-- ==== Sys2Proof/Word.lean ====
section
/-!
DEFINITION. The words of the block (00_scope.md R8): bytes, nibbles, eight-byte payloads, and the receiver's
"specified or not" values (10_state.md R44, 20_memory.md R60).
-/

namespace Sys2Proof

/-- A byte: 8 bits, bit 0 the least significant (R8). -/
abbrev Byte := BitVec 8

/-- A nibble: 4 bits (R8). -/
abbrev Nibble := BitVec 4

/-- The 16-bit value of a number operation, `NUMW` = 16 (R7). -/
abbrev Value := BitVec 16

/-- A payload of exactly eight bytes, `P[0..7]` of the formats FG and FB (R81). -/
structure Bytes8 where
  p0 : Byte
  p1 : Byte
  p2 : Byte
  p3 : Byte
  p4 : Byte
  p5 : Byte
  p6 : Byte
  p7 : Byte
deriving DecidableEq, Repr, Inhabited

/-- The eight bytes in order, `P[0]` first. -/
def Bytes8.toList (p : Bytes8) : List Byte :=
  [p.p0, p.p1, p.p2, p.p3, p.p4, p.p5, p.p6, p.p7]

/-- A value of the reference receiver that is specified or not. The receiver's own rules ask which (R58 "an unspecified
AC, ACSEL or CHCFG flag", R60 "if ... COLPTR, PAGEPTR are specified"), so "unspecified" is a state of the
receiver and not a missing reset value. It stands for an arbitrary value (R44): see `Tracked.Admits`. -/
inductive Tracked (α : Type) where
  /-- An arbitrary value that a claim must hold for every choice of (R44). -/
  | unspecified
  /-- The value is known to be `v`. -/
  | is (v : α)
deriving DecidableEq, Repr, Inhabited

namespace Tracked

/-- The values a controller may hold where the receiver records `t`: any value where `t` is unspecified (R44). -/
def Admits {α : Type} : Tracked α → α → Prop
  | .unspecified, _ => True
  | .is v, w => w = v

/-- Whether the receiver knows the value. -/
def specified {α : Type} : Tracked α → Bool
  | .unspecified => false
  | .is _ => true

end Tracked

end Sys2Proof
end

