-- ==== Sys2Proof/Config.lean ====
section
/-!
DEFINITION. The parameters of the block: the constants the source fixes (00_scope.md R5), those the spec adds (R7),
and the open ones (R6), which are the fields of `Config`. No operation changes any of them (10_state.md R31).
The defaults are the spec's, for tests; a statement about the machine holds for every `Config`.
-/

namespace Sys2Proof

/-! ## Constants of R5 and R7 -/

/-- `T_HOLD`, lower bound in microseconds of the strobe's hold (R5, R111). -/
def tHold : Nat := 5

/-- `T_SETTLE`, lower bound in microseconds of the settle after the strobe (R5, R111). -/
def tSettle : Nat := 1000

/-- `T_PWRON`, lower bound in microseconds of the power-on delay (R5, R118). -/
def tPwron : Nat := 20000

/-- `PX_W`, the panel's width in columns (R5). -/
def pxW : Nat := 128

/-- `PAGES`, the panel's number of pages (R5). -/
def pages : Nat := 8

/-- `DIGIT_PITCH`, the column distance between two digits of the pixel number (R7). -/
def digitPitch : Byte := 8#8

/-! ## Open parameters of R6 -/

/-- `COLS`: "16 or 20 and nothing else" (D9). -/
inductive Columns where
  | c16
  | c20
deriving DecidableEq, Repr, Inhabited

/-- `COLS` as a number (R5). -/
def Columns.count : Columns → Nat
  | .c16 => 16
  | .c20 => 20

/-- `ROWBASE[0..3]`, the controller address of column 0 of each row (R6). -/
structure RowBase where
  row0 : Byte
  row1 : Byte
  row2 : Byte
  row3 : Byte
deriving DecidableEq, Repr, Inhabited

/-- The default offsets for either width (R6, R72). -/
def RowBase.standard : Columns → RowBase
  | .c16 => ⟨0x00#8, 0x40#8, 0x10#8, 0x50#8⟩
  | .c20 => ⟨0x00#8, 0x40#8, 0x14#8, 0x54#8⟩

/-- What one position command byte sets (20_memory.md R60): the page, the low and the high part of the column, each or
none of them. -/
structure PosEffect where
  page : Option (BitVec 3)
  colLo : Option (BitVec 4)
  colHi : Option (BitVec 3)
deriving DecidableEq, Repr, Inhabited

/-- `PX_SETPOS(x, page)`, the command bytes that set the write position (R6): the default, or any other function
written out as its table, row `128 * page + x`. Another `PX_SETPOS` brings along the receiver's rows for its bytes, which
take the place of R60's three position rows: "a model that takes another `PX_SETPOS` must replace these three rows to
match" (log 11). -/
inductive SetPos where
  | standard
  | table (rows : List (List Byte)) (received : List (Byte × PosEffect))
deriving DecidableEq, Repr, Inhabited

/-- `DIGIT_FONT[0..9][0..7]`: ten bitmaps of eight columns and no others (R52, R208). -/
structure DigitFont where
  d0 : Bytes8
  d1 : Bytes8
  d2 : Bytes8
  d3 : Bytes8
  d4 : Bytes8
  d5 : Bytes8
  d6 : Bytes8
  d7 : Bytes8
  d8 : Bytes8
  d9 : Bytes8
deriving DecidableEq, Repr, Inhabited

/-- The ten bitmaps, digit 0 first. -/
def DigitFont.toList (f : DigitFont) : List Bytes8 :=
  [f.d0, f.d1, f.d2, f.d3, f.d4, f.d5, f.d6, f.d7, f.d8, f.d9]

/-- The one constraint on the font: the ten strings are pairwise different (R210). -/
abbrev DigitFont.distinct (f : DigitFont) : Prop := f.toList.Nodup

/-- The configuration of the block: every open parameter of R6. -/
structure Config where
  /-- `COLS` -/
  cols : Columns
  /-- `ROWBASE[0..3]` -/
  rowBase : RowBase
  /-- `LEGACY_NIB` -/
  legacyNib : Nibble
  /-- `T_INIT1`, microseconds -/
  tInit1 : Nat
  /-- `T_INIT2`, microseconds -/
  tInit2 : Nat
  /-- `T_INIT3`, microseconds -/
  tInit3 : Nat
  /-- `FOURBIT_NIB`, present or absent (D7) -/
  fourbitNib : Option Nibble
  /-- `CMD_FUNCSET` -/
  cmdFuncset : Byte
  /-- `CMD_DISPON` -/
  cmdDispon : Byte
  /-- `CMD_ENTRY` -/
  cmdEntry : Byte
  /-- `CMD_CLEAR` -/
  cmdClear : Byte
  /-- `CMD_DDRAM` -/
  cmdDdram : Byte
  /-- `CMD_CGRAM` -/
  cmdCgram : Byte
  /-- `I2C_ADDR`, the whole first byte of a transaction -/
  i2cAddr : Byte
  /-- `CTL_CMD` -/
  ctlCmd : Byte
  /-- `CTL_DAT` -/
  ctlDat : Byte
  /-- `T_I2C`, microseconds -/
  tI2c : Nat
  /-- `OLED_INIT_SEQ` -/
  oledInitSeq : List Byte
  /-- `PX_SETPOS` -/
  pxSetpos : SetPos
  /-- `DIGIT_FONT` -/
  digitFont : DigitFont
deriving DecidableEq, Repr, Inhabited

/-- The default `OLED_INIT_SEQ`, 20 bytes (41_i2c_master.md R152). -/
def oledInitDefault : List Byte :=
  [0xAE#8, 0xD5#8, 0x80#8, 0xA8#8, 0x3F#8, 0xD3#8, 0x00#8, 0x40#8, 0x8D#8, 0x14#8,
   0x20#8, 0x02#8, 0xA1#8, 0xC8#8, 0xDA#8, 0x12#8, 0x81#8, 0xCF#8, 0xA4#8, 0xAF#8]

/-- FREE VALUE (log 3): the font of the build, which the spec leaves open with no default (R6, R210). -/
opaque Config.openFont : DigitFont

/-- The defaults of R6 for a given width and font. -/
def Config.standard (cols : Columns) (font : DigitFont) : Config where
  cols := cols
  rowBase := RowBase.standard cols
  legacyNib := 0x3#4
  tInit1 := 4100
  tInit2 := 100
  tInit3 := 0
  fourbitNib := some 0x2#4
  cmdFuncset := 0x28#8
  cmdDispon := 0x0C#8
  cmdEntry := 0x06#8
  cmdClear := 0x01#8
  cmdDdram := 0x80#8
  cmdCgram := 0x40#8
  i2cAddr := 0x78#8
  ctlCmd := 0x00#8
  ctlDat := 0x40#8
  tI2c := 0
  oledInitSeq := oledInitDefault
  pxSetpos := .standard
  digitFont := font

/-- The six command values for which the command table of 20_memory.md R57 is written. -/
abbrev Config.charCommandsStandard (c : Config) : Prop :=
  c.cmdFuncset = 0x28#8 ∧ c.cmdDispon = 0x0C#8 ∧ c.cmdEntry = 0x06#8 ∧ c.cmdClear = 0x01#8 ∧
    c.cmdDdram = 0x80#8 ∧ c.cmdCgram = 0x40#8

/-- The parameters of the nibble intake at their defaults as well: the legacy nibble and the lone switch nibble (D7). -/
abbrev Config.charStandard (c : Config) : Prop :=
  c.charCommandsStandard ∧ c.legacyNib = 0x3#4 ∧ c.fourbitNib = some 0x2#4

/-- The hypotheses R160 asks a model to take with another `ROWBASE`: every row's last cell has a 7-bit address, and
the four rows' ranges do not overlap. -/
abbrev Config.rowsLegal (c : Config) : Prop :=
  let n := c.cols.count
  let b := [c.rowBase.row0.toNat, c.rowBase.row1.toNat, c.rowBase.row2.toNat, c.rowBase.row3.toNat]
  (∀ x ∈ b, x + n - 1 ≤ 0x7F) ∧ b.Pairwise (fun x y => x + n ≤ y ∨ y + n ≤ x)

/-- What R151 fixes of `OLED_INIT_SEQ`: it ends with the display-on command, here the default's 0xAF. -/
abbrev Config.oledSeqLegal (c : Config) : Prop := c.oledInitSeq.getLast? = some 0xAF#8

end Sys2Proof
end

