-- ==== Sys2Proof/Syntax.lean ====
section
/-!
DEFINITION. The 22 operations of 30_encoding.md R83, one constructor per row of spec/opcode_table.json. The arguments are
the request's operand latches of 10_state.md R21: bytes as they stand in the request (R84), the 16-bit value `V`,
and the payload `P`. The count `N` is the payload's length (R97).
-/

namespace Sys2Proof

/-- One request, decoded. -/
inductive Instr where
  /-- LCD.INIT (0x10, F0), R118 -/
  | lcdInit
  /-- LCD.CMD (0x11, F1): `A` = byte, R114 -/
  | lcdCmd (b : Byte)
  /-- LCD.DAT (0x12, F1): `A` = byte, R115 -/
  | lcdDat (b : Byte)
  /-- LCD.NIB (0x13, F1): `A[4]` = rs, `A[3:0]` = nibble, `A[7:5]` must be 0, R85, R113 -/
  | lcdNib (a : Byte)
  /-- I2C.START (0x20, F0), R136 -/
  | i2cStart
  /-- I2C.STOP (0x21, F0), R137 -/
  | i2cStop
  /-- I2C.WRB (0x22, F1): `A` = byte, R138 -/
  | i2cWrb (b : Byte)
  /-- I2C.XFER (0x23, FX): `A` = control byte, `P` = payload, R140 -/
  | i2cXfer (ctl : Byte) (p : List Byte)
  /-- OLED.CMD (0x24, F1): `A` = command byte, R141 -/
  | oledCmd (b : Byte)
  /-- OLED.DAT (0x25, F1): `A` = data byte, R142 -/
  | oledDat (b : Byte)
  /-- OLED.INIT (0x26, F0), R150 -/
  | oledInit
  /-- CH.CLEAR (0x30, F0), R161 -/
  | chClear
  /-- CH.SETCUR (0x31, F2): `A` = row, `B` = col, R162 -/
  | chSetcur (row col : Byte)
  /-- CH.PUTC (0x32, F1): `A` = character code, R163 -/
  | chPutc (c : Byte)
  /-- CH.TEXT (0x33, FT): `P` = character codes, R165 -/
  | chText (p : List Byte)
  /-- CH.GLYPH (0x34, FG): `A` = slot, `P[0..7]` = rows, R166 -/
  | chGlyph (slot : Byte) (rows : Bytes8)
  /-- CH.NUM (0x35, FV): `A` = row, `B` = col, `V` = value, R203 -/
  | chNum (row col : Byte) (v : Value)
  /-- PX.CLEAR (0x40, F0), R183 -/
  | pxClear
  /-- PX.CLRPG (0x41, F1): `A` = page, R182 -/
  | pxClrpg (page : Byte)
  /-- PX.SETPOS (0x42, F2): `A` = x, `B` = page, R181 -/
  | pxSetpos (x page : Byte)
  /-- PX.BLIT (0x43, FB): `A` = x, `B` = page, `P[0..7]` = columns, R184 -/
  | pxBlit (x page : Byte) (sprite : Bytes8)
  /-- PX.NUM (0x44, FV): `A` = x, `B` = page, `V` = value, R205 -/
  | pxNum (x page : Byte) (v : Value)
deriving DecidableEq, Repr

end Sys2Proof
end

