-- ==== Sys2Proof/WellFormed.lean ====
section
/-!
DEFINITION. Which requests are well formed: the payload count fits its byte (30_encoding.md R86), and every operand is in
the range R88 accepts. The meanings check the ranges for themselves (Machine/Operands.lean), since R222 puts
the check after decode; a lemma of Laws/ says the two agree.
-/

namespace Sys2Proof

/-- The payload's length fits the count byte `N` (R86), so that the request has bytes at all. -/
def Instr.encodable : Instr → Bool
  | .i2cXfer _ p => decide (p.length ≤ 255)
  | .chText p => decide (p.length ≤ 255)
  | _ => true

/-- The ranges of R88: a request outside them is refused with `BadOperand`. -/
def Instr.inRange (cols : Columns) : Instr → Bool
  | .lcdNib a => decide (a.toNat < 32)
  | .chSetcur row col => decide (row.toNat ≤ 3) && decide (col.toNat ≤ cols.count - 1)
  | .chNum row col _ => decide (row.toNat ≤ 3) && decide (col.toNat ≤ cols.count - 1)
  | .chGlyph slot _ => decide (slot.toNat ≤ 7)
  | .pxClrpg page => decide (page.toNat ≤ 7)
  | .pxSetpos x page => decide (x.toNat ≤ 127) && decide (page.toNat ≤ 7)
  | .pxBlit x page _ => decide (x.toNat ≤ 120) && decide (page.toNat ≤ 7)
  | .pxNum x page v => decide (x.toNat ≤ 96) && decide (page.toNat ≤ 7) && decide (v.toNat ≤ 9999)
  | _ => true

/-- A request the spec gives a meaning. -/
def Instr.wellFormed (cols : Columns) (i : Instr) : Bool :=
  i.encodable && i.inRange cols

end Sys2Proof
end

