-- ==== Sys2Proof/Decode.lean ====
section
/-!
DEFINITION. Decoding a request from the bytes of the request stream (30_encoding.md R80 to R90), and encoding one. Total on any
bytes: `BadOpcode` for a reserved opcode byte (R87), `Truncated` for a request that runs past the end (R90), in
that order (60_exceptions.md R224). The operand ranges of R88 are not decode's: they are the first line of the
operation (R221).
-/

namespace Sys2Proof

/-! ## Formats and the opcode map -/

/-- The eight request formats of R81, each with what it makes of its operand bytes. -/
inductive Format where
  | f0 (i : Instr)
  | f1 (mk : Byte → Instr)
  | f2 (mk : Byte → Byte → Instr)
  | fv (mk : Byte → Byte → Value → Instr)
  | ft (mk : List Byte → Instr)
  | fx (mk : Byte → List Byte → Instr)
  | fg (mk : Byte → Bytes8 → Instr)
  | fb (mk : Byte → Byte → Bytes8 → Instr)

/-- 0x1n: the parallel driver (R82, R83). -/
def lcdOpcodes : List (Byte × Format) :=
  [(0x10#8, .f0 .lcdInit), (0x11#8, .f1 .lcdCmd), (0x12#8, .f1 .lcdDat), (0x13#8, .f1 .lcdNib)]

/-- 0x2n: the serial driver (R82, R83). -/
def serialOpcodes : List (Byte × Format) :=
  [(0x20#8, .f0 .i2cStart), (0x21#8, .f0 .i2cStop), (0x22#8, .f1 .i2cWrb), (0x23#8, .fx .i2cXfer),
   (0x24#8, .f1 .oledCmd), (0x25#8, .f1 .oledDat), (0x26#8, .f0 .oledInit)]

/-- 0x3n: the character surface and its number renderer (R82, R83). -/
def charOpcodes : List (Byte × Format) :=
  [(0x30#8, .f0 .chClear), (0x31#8, .f2 .chSetcur), (0x32#8, .f1 .chPutc), (0x33#8, .ft .chText),
   (0x34#8, .fg .chGlyph), (0x35#8, .fv .chNum)]

/-- 0x4n: the pixel surface and its number renderer (R82, R83). -/
def pixelOpcodes : List (Byte × Format) :=
  [(0x40#8, .f0 .pxClear), (0x41#8, .f1 .pxClrpg), (0x42#8, .f2 .pxSetpos), (0x43#8, .fb .pxBlit),
   (0x44#8, .fv .pxNum)]

/-- The opcode map of R83; an opcode byte in no row is reserved (R87). -/
def opcodeMap : List (Byte × Format) :=
  lcdOpcodes ++ serialOpcodes ++ charOpcodes ++ pixelOpcodes

/-- Why a request has no decoding. -/
inductive DecodeError where
  /-- R87: a reserved opcode byte. -/
  | badOpcode
  /-- R90: the request's bytes run past the end of the stream. -/
  | truncated
deriving DecidableEq, Repr

/-- The first `n` bytes and the rest, if there are `n`. -/
def takeBytes : Nat → List Byte → Option (List Byte × List Byte)
  | 0, bs => some ([], bs)
  | _ + 1, [] => none
  | n + 1, b :: bs =>
    match takeBytes n bs with
    | some (p, rest) => some (b :: p, rest)
    | none => none

/-- R84: `V = zext_16(byte3) OR (zext_16(byte4) << 8)`. -/
def assembleValue (lo hi : Byte) : Value :=
  lo.zeroExtend 16 ||| (hi.zeroExtend 16 <<< 8)

/-- The operand bytes of a format (R81, R86): the request and the bytes after it, or nothing if bytes are missing. -/
def Format.operands : Format → List Byte → Option (Instr × List Byte)
  | .f0 i, bs => some (i, bs)
  | .f1 mk, a :: bs => some (mk a, bs)
  | .f2 mk, a :: b :: bs => some (mk a b, bs)
  | .fv mk, a :: b :: lo :: hi :: bs => some (mk a b (assembleValue lo hi), bs)
  | .ft mk, n :: bs =>
    match takeBytes n.toNat bs with
    | some (p, rest) => some (mk p, rest)
    | none => none
  | .fx mk, a :: n :: bs =>
    match takeBytes n.toNat bs with
    | some (p, rest) => some (mk a p, rest)
    | none => none
  | .fg mk, a :: p0 :: p1 :: p2 :: p3 :: p4 :: p5 :: p6 :: p7 :: bs =>
    some (mk a ⟨p0, p1, p2, p3, p4, p5, p6, p7⟩, bs)
  | .fb mk, a :: b :: p0 :: p1 :: p2 :: p3 :: p4 :: p5 :: p6 :: p7 :: bs =>
    some (mk a b ⟨p0, p1, p2, p3, p4, p5, p6, p7⟩, bs)
  | _, _ => none

/-- The request at the head of the bytes, and the bytes after it; or why there is none, in the order of R224. -/
def decode : List Byte → Except DecodeError (Instr × List Byte)
  | [] => .error .truncated
  | op :: bs =>
    match opcodeMap.lookup op with
    | none => .error .badOpcode
    | some f =>
      match f.operands bs with
      | none => .error .truncated
      | some r => .ok r

/-! ## Encoding -/

/-- The low byte of `V`, at offset 3 of format FV (R81, R84). -/
def valueLo (v : Value) : Byte := v.extractLsb' 0 8

/-- The high byte of `V`, at offset 4 of format FV (R81, R84). -/
def valueHi (v : Value) : Byte := v.extractLsb' 8 8

/-- The bytes of a request (R81, R83). -/
def encode : Instr → List Byte
  | .lcdInit => [0x10#8]
  | .lcdCmd b => [0x11#8, b]
  | .lcdDat b => [0x12#8, b]
  | .lcdNib a => [0x13#8, a]
  | .i2cStart => [0x20#8]
  | .i2cStop => [0x21#8]
  | .i2cWrb b => [0x22#8, b]
  | .i2cXfer ctl p => 0x23#8 :: ctl :: BitVec.ofNat 8 p.length :: p
  | .oledCmd b => [0x24#8, b]
  | .oledDat b => [0x25#8, b]
  | .oledInit => [0x26#8]
  | .chClear => [0x30#8]
  | .chSetcur row col => [0x31#8, row, col]
  | .chPutc c => [0x32#8, c]
  | .chText p => 0x33#8 :: BitVec.ofNat 8 p.length :: p
  | .chGlyph slot rows => 0x34#8 :: slot :: rows.toList
  | .chNum row col v => [0x35#8, row, col, valueLo v, valueHi v]
  | .pxClear => [0x40#8]
  | .pxClrpg page => [0x41#8, page]
  | .pxSetpos x page => [0x42#8, x, page]
  | .pxBlit x page sprite => 0x43#8 :: x :: page :: sprite.toList
  | .pxNum x page v => [0x44#8, x, page, valueLo v, valueHi v]

/-- The length of a request in bytes (R81, R86). -/
def Instr.length : Instr → Nat
  | .lcdInit | .i2cStart | .i2cStop | .oledInit | .chClear | .pxClear => 1
  | .lcdCmd _ | .lcdDat _ | .lcdNib _ | .i2cWrb _ | .oledCmd _ | .oledDat _ | .chPutc _ | .pxClrpg _ => 2
  | .chSetcur _ _ | .pxSetpos _ _ => 3
  | .chNum _ _ _ | .pxNum _ _ _ => 5
  | .chText p => 2 + p.length
  | .i2cXfer _ p => 3 + p.length
  | .chGlyph _ _ => 10
  | .pxBlit _ _ _ => 11

/-! ## Pseudo-operations -/

/-- The pseudo-operations of R98. -/
inductive Pseudo where
  /-- CH.DRAWGLYPH slot, `slot` in 0 to 7 and nothing else -/
  | drawGlyph (slot : BitVec 3)
  /-- CH.PRINT row, col, text -/
  | print (row col : Byte) (text : List Byte)
  /-- CH.BLANK row, col -/
  | blank (row col : Byte)
deriving DecidableEq, Repr

/-- Their exact expansions (R98). -/
def Pseudo.expand : Pseudo → List Instr
  | .drawGlyph slot => [.chPutc (slot.zeroExtend 8)]
  | .print row col text => [.chSetcur row col, .chText text]
  | .blank row col => [.chSetcur row col, .chPutc 0x20#8]

/-! ## The opcode table's numbering -/

/-- The longest request: format FX with `N` = 255 (R81). -/
def longestRequest : Nat := 258

/-- The bytes of a table word: byte `k` is bits `8k+7` to `8k`, byte 0 first in the stream; every bit at or above
`nbits` is 0, up to the longest request. -/
def tableBytes (nbits w : Nat) : List Byte :=
  (List.range longestRequest).map fun k => BitVec.ofNat 8 ((w % 2 ^ nbits) / 2 ^ (8 * k))

/-- The instruction the decoder reads from a table word. -/
def decodeTableWord (nbits w : Nat) : Option Instr :=
  match decode (tableBytes nbits w) with
  | .ok (i, _) => some i
  | .error _ => none

end Sys2Proof
end

