-- ==== Sys2Proof/Machine/State.lean ====
section
/-!
DEFINITION. The state of 10_state.md R41: the block, the character receiver, the pixel receiver, and the parameters of
the step that ride along unchanged (the request stream and the configuration). Plain data throughout.
-/

namespace Sys2Proof.Machine

/-! ## Lines and events -/

/-- The five output lines, each at the last level written to it (R26 to R30); `true` is level 1. -/
structure Lines where
  /-- `NIB[3:0]` (R26) -/
  nib : Nibble
  /-- `RS` (R27) -/
  rs : Bool
  /-- `EN` (R28) -/
  en : Bool
  /-- `SCL` (R29) -/
  scl : Bool
  /-- `SDA` (R30) -/
  sda : Bool
deriving DecidableEq, Repr, Inhabited

/-- An event of the trace (R39): `Set(L, v)`, one constructor for each line, or `Wait(d)` in microseconds. -/
inductive Event where
  | nib (v : Nibble)
  | rs (v : Bool)
  | en (v : Bool)
  | scl (v : Bool)
  | sda (v : Bool)
  | wait (d : Nat)
deriving DecidableEq, Repr

/-! ## Memory -/

/-- A shadow memory (R38): (address, byte) pairs, addresses strictly rising. An address not listed holds an
unspecified byte (log 16). -/
abbrev Memory := List Host.Cell

/-! ## The character receiver -/

/-- `IFMODE` (R34, R56). -/
inductive IfMode where
  | unknown
  | if8
  | if4Hi
  | if4Lo
deriving DecidableEq, Repr

/-- `ACSEL` (R35). -/
inductive AcSel where
  | ddram
  | cgram
deriving DecidableEq, Repr

/-- `CHCFG`, the seven flags of R32 and R57. -/
structure ChCfg where
  /-- display on -/
  d : Tracked Bool
  /-- cursor shown -/
  c : Tracked Bool
  /-- cursor blink -/
  b : Tracked Bool
  /-- two lines -/
  n : Tracked Bool
  /-- 5×10 font -/
  f : Tracked Bool
  /-- address counter increments -/
  id : Tracked Bool
  /-- display shift on write -/
  s : Tracked Bool
deriving DecidableEq, Repr

/-- What a command byte on the parallel bus asks for: the kinds of row of R57. -/
inductive CharCommand where
  | clear
  | home
  | entryMode (id s : Bool)
  | displayControl (d c b : Bool)
  | functionSet (eightBit n f : Bool)
  | glyphAddress (a : BitVec 6)
  | cellAddress (a : BitVec 7)
  /-- "not modelled (no operation, cursor and display shifts)" -/
  | unlisted
deriving DecidableEq, Repr

/-- The reference receiver of the parallel bus (R34, R35, R38, R56 to R58). -/
structure CharRx where
  /-- `IFMODE` -/
  ifMode : IfMode
  /-- `LEGACYCNT` -/
  legacyCnt : Nat
  /-- `HINIB` -/
  hiNib : Tracked Nibble
  /-- `HIRS` -/
  hiRs : Tracked Bool
  /-- `AC`: 7 bits for `ddram`; for `cgram` the top bit is 0 (log 17) -/
  ac : Tracked (BitVec 7)
  /-- `ACSEL` -/
  acSel : Tracked AcSel
  /-- `CHCFG` -/
  chCfg : ChCfg
  /-- `DDRAM`, addresses 0 to 127 (R53) -/
  ddram : Memory
  /-- `CGRAM`, addresses 0 to 63 (R54) -/
  cgram : Memory
deriving DecidableEq, Repr

/-! ## The pixel receiver -/

/-- `BUSCOND` (R37), `unspecified` only straight after reset (log 6). -/
inductive BusCond where
  | unspecified
  | idle
  | opened
deriving DecidableEq, Repr

/-- The place in a transaction: R59's first byte flag, and the byte kinds of R60 (log 12). -/
inductive RxPhase where
  | first
  | control
  | payload
  | ignored
deriving DecidableEq, Repr

/-- `STREAM` (R60). -/
inductive Stream where
  | command
  | data
deriving DecidableEq, Repr

/-- The reference receiver of the serial bus (R36, R37, R38, R59, R60). -/
structure PixelRx where
  /-- `BUSCOND` -/
  busCond : BusCond
  /-- `BITS`, oldest first -/
  bits : List Bool
  /-- which byte of the transaction comes next -/
  phase : RxPhase
  /-- `ADDRESSED` -/
  addressed : Tracked Bool
  /-- `STREAM` -/
  stream : Tracked Stream
  /-- `PXSYNC` -/
  pxSync : Bool
  /-- `PXON` -/
  pxOn : Tracked Bool
  /-- `COLPTR[3:0]` -/
  colLo : Tracked (BitVec 4)
  /-- `COLPTR[6:4]` -/
  colHi : Tracked (BitVec 3)
  /-- `PAGEPTR` -/
  pagePtr : Tracked (BitVec 3)
  /-- `GDDRAM`, address `128 * page + x` for `GDDRAM[page][x]` (R55) -/
  gddram : Memory
deriving DecidableEq, Repr

/-! ## Refusals -/

/-- The codes of R221. -/
inductive RefuseCode where
  | badOpcode
  | truncated
  | badOperand
deriving DecidableEq, Repr

/-- The number of a code (R221). -/
def RefuseCode.number : RefuseCode → Nat
  | .badOpcode => 1
  | .truncated => 2
  | .badOperand => 3

/-- The set refusal mark (R40): the code and the `pc` of the refused request. -/
structure RefusalMark where
  code : RefuseCode
  pc : Nat
deriving DecidableEq, Repr

/-- Why the machine stops. The hardware has no fault (R220); the one entry is the end of a run. -/
inductive Fault where
  /-- Raised by `step` when `pc` is the length of `REQ`: the run is over, and the state takes no further step (R24).
  Safe: nothing is claimed of a step that does not happen (log 8). -/
  | runOver
deriving DecidableEq, Repr

/-- Why a step has no meaning. -/
inductive Refusal where
  /-- Raised by `exec` for an operation that has no meaning yet. Safe. -/
  | notModelled (mnemonic : String)
  /-- Raised by `step` in a state whose refusal mark is set: "a state with the mark set takes no further step" (R40).
  It carries the mark. Safe (log 7). -/
  | requestRefused (mark : RefusalMark)
deriving DecidableEq, Repr

/-! ## The state -/

/-- The state of R41. -/
structure State where
  /-- the configuration of R6: a parameter of the step, never changed (log 2) -/
  cfg : Config
  /-- `REQ`: a parameter of the step, never changed (R51, log 1) -/
  req : List Byte
  /-- the five lines -/
  lines : Lines
  /-- `pc`, the byte index of the next request (R23) -/
  pc : Nat
  /-- `trace`, oldest event first (R39) -/
  trace : List Event
  /-- `refused`, clear or set (R40) -/
  refused : Option RefusalMark
  /-- the character receiver -/
  lcd : CharRx
  /-- the pixel receiver -/
  px : PixelRx
deriving DecidableEq, Repr

/-- `CHCFG` after reset and after `Havoc`: every flag unspecified (R44, R56). -/
def ChCfg.unspecified : ChCfg :=
  ⟨.unspecified, .unspecified, .unspecified, .unspecified, .unspecified, .unspecified, .unspecified⟩

/-- The character receiver after reset (R44). -/
def CharRx.reset : CharRx where
  ifMode := .unknown
  legacyCnt := 0
  hiNib := .unspecified
  hiRs := .unspecified
  ac := .unspecified
  acSel := .unspecified
  chCfg := .unspecified
  ddram := []
  cgram := []

/-- The pixel receiver after reset (R37, R44), for the levels the serial lines come up at. -/
def PixelRx.reset (l : Lines) : PixelRx where
  busCond := if l.scl && l.sda then .idle else .unspecified
  bits := []
  phase := .first
  addressed := .unspecified
  stream := .unspecified
  pxSync := false
  pxOn := .unspecified
  colLo := .unspecified
  colHi := .unspecified
  pagePtr := .unspecified
  gddram := []

/-- The state after power-up (R42 to R44) of a build `cfg` whose lines come up at `l`, with the request stream `req`. -/
def State.powerUp (cfg : Config) (req : List Byte) (l : Lines) : State where
  cfg := cfg
  req := req
  lines := l
  pc := 0
  trace := []
  refused := none
  lcd := .reset
  px := .reset l

/-- DESIGN CHOICE (log 4): the levels of `State.reset`; the spec gives none (R42). -/
def Lines.reset : Lines := ⟨0x0#4, false, false, false, false⟩

/-- The machine right after reset, with the defaults of R6 at `COLS` = 16 (log 2), a font the model does not know (log 3)
and no program placed (log 1). -/
def State.reset : State :=
  State.powerUp (Config.standard .c16 Config.openFont) [] Lines.reset

end Sys2Proof.Machine
end

