-- ==== Sys2Proof/Machine/Flags.lean ====
section
/-!
DEFINITION. Flags. The block has none (10_state.md R25). The flags that exist are the character controller's, `CHCFG`
(R32), which its command bytes set (20_memory.md R57).
-/

namespace Sys2Proof.Machine

/-- Entry mode (R57): `ID` and `S`. -/
def ChCfg.entryMode (id s : Bool) (c : ChCfg) : ChCfg :=
  { c with id := .is id, s := .is s }

/-- Display control (R57): `D`, `C` and `B`. -/
def ChCfg.displayControl (d cur blink : Bool) (c : ChCfg) : ChCfg :=
  { c with d := .is d, c := .is cur, b := .is blink }

/-- Function set (R57): `N` and `F`. -/
def ChCfg.functionSet (n f : Bool) (c : ChCfg) : ChCfg :=
  { c with n := .is n, f := .is f }

/-- The lone switch to 4-bit transfers (R56, mode `if8`): `N` and `F` become unspecified. -/
def ChCfg.functionLost (c : ChCfg) : ChCfg :=
  { c with n := .unspecified, f := .unspecified }

/-- Clear (R57): `ID <- 1`. -/
def ChCfg.cleared (c : ChCfg) : ChCfg :=
  { c with id := .is true }

/-- Left-to-right entry without shift, the one mode in which R58 stores a data byte. A flag the receiver does not know
does not satisfy it (log 9). -/
def ChCfg.leftToRight (c : ChCfg) : Bool :=
  decide (c.id = .is true ∧ c.s = .is false)

/-- No flag of `CHCFG` is unspecified: only then does R58 know where a data byte goes ("an unspecified `AC`, `ACSEL` or
`CHCFG` flag makes the written location unspecified"). -/
def ChCfg.known (c : ChCfg) : Bool :=
  c.d.specified && c.c.specified && c.b.specified && c.n.specified && c.f.specified && c.id.specified && c.s.specified

end Sys2Proof.Machine
end

