-- ==== Sys2Proof/Machine/Memory.lean ====
section
/-!
DEFINITION. The one read and the one write of a shadow memory, and its canonical form (20_memory.md R53 to R55; log 16).
-/

namespace Sys2Proof.Machine

/-- The byte at an address; an address not listed holds an unspecified byte (R38, R44). -/
def Memory.read : Memory → Nat → Tracked Byte
  | [], _ => .unspecified
  | (a, b) :: m, i => if a = i then .is b else Memory.read m i

/-- `MemWrite(S, a, 1, v)` (R11): the byte at `i` becomes `v`, in the canonical form. -/
def Memory.write : Memory → Nat → Byte → Memory
  | [], i, v => [(i, v)]
  | (a, b) :: m, i, v =>
    if i < a then (i, v) :: (a, b) :: m
    else if i = a then (i, v) :: m
    else (a, b) :: Memory.write m i v

/-- A memory of `n` bytes that all hold `v`. -/
def Memory.fill (n : Nat) (v : Byte) : Memory :=
  (List.range n).map fun a => (a, v)

/-- Every byte becomes unspecified (R56, R58, R60). -/
def Memory.lost : Memory := []

/-- The canonical form: addresses strictly rising and below the size of the space. -/
abbrev Memory.wf (size : Nat) (m : Memory) : Prop :=
  m.Pairwise (fun x y => x.1 < y.1) ∧ ∀ c ∈ m, c.1 < size

/-- The address of `GDDRAM[page][x]` (R55). -/
def gddramAddr (page x : Nat) : Nat := 128 * page + x

end Sys2Proof.Machine
end

