-- ==== Sys2Proof/Machine/CharReceiver.lean ====
section
/-!
DEFINITION. The reference receiver of the parallel bus (20_memory.md R56, R57, R58): the spec's own device (D24; log 21).
-/

namespace Sys2Proof.Machine

/-- `Havoc()` (R56): `LEGACYCNT` keeps its value. `HINIB` and `HIRS` are not in R56's list, but in mode `unknown` "every
other receiver field stays unspecified", so they are made unspecified with the rest (log 28). -/
def CharRx.havoc (c : CharRx) : CharRx :=
  { c with
    ifMode := .unknown, hiNib := .unspecified, hiRs := .unspecified, ac := .unspecified, acSel := .unspecified,
    chCfg := .unspecified, ddram := Memory.lost, cgram := Memory.lost }

/-! ## The command table (R57) -/

/-- R57, for the default command values: the first matching row. -/
def standardCommand (b : Byte) : CharCommand :=
  let n := b.toNat
  if n = 0x01 then .clear
  else if n = 0x02 ∨ n = 0x03 then .home
  else if 0x04 ≤ n ∧ n ≤ 0x07 then .entryMode (b.getLsbD 1) (b.getLsbD 0)
  else if 0x08 ≤ n ∧ n ≤ 0x0F then .displayControl (b.getLsbD 2) (b.getLsbD 1) (b.getLsbD 0)
  else if 0x20 ≤ n ∧ n ≤ 0x3F then .functionSet (b.getLsbD 4) (b.getLsbD 3) (b.getLsbD 2)
  else if 0x40 ≤ n ∧ n ≤ 0x7F then .glyphAddress (b.extractLsb' 0 6)
  else if 0x80 ≤ n then .cellAddress (b.extractLsb' 0 7)
  else .unlisted

/-- Whether `b` is the command base `base` with an address in the bits of `mask` (R6). -/
def isAddress (base mask b : Byte) : Bool :=
  b &&& ~~~mask == base &&& ~~~mask && b &&& base == base

/-- The commands a build has of its own, with the meaning R6 gives each of them (R92): a model with other command values
"must change those tables with them" (92_eei_decisions.md; log 10). -/
def ownCommand (cfg : Config) (b : Byte) : Option CharCommand :=
  if b = cfg.cmdClear then some .clear
  else if b = cfg.cmdEntry then some (.entryMode true false)
  else if b = cfg.cmdDispon then some (.displayControl true false false)
  else if b = cfg.cmdFuncset then some (.functionSet false true false)
  else if isAddress cfg.cmdCgram 0x3F#8 b then some (.glyphAddress ((b &&& ~~~cfg.cmdCgram).extractLsb' 0 6))
  else if isAddress cfg.cmdDdram 0x7F#8 b then some (.cellAddress ((b &&& ~~~cfg.cmdDdram).extractLsb' 0 7))
  else none

/-- Whether a build keeps a row of R57 whole: the row's command has its default value, or the row belongs to none of the
parameters. -/
def keepsRow (cfg : Config) : CharCommand → Bool
  | .clear => cfg.cmdClear == 0x01#8
  | .entryMode _ _ => cfg.cmdEntry == 0x06#8
  | .displayControl _ _ _ => cfg.cmdDispon == 0x0C#8
  | .functionSet _ _ _ => cfg.cmdFuncset == 0x28#8
  | .glyphAddress _ => cfg.cmdCgram == 0x40#8
  | .cellAddress _ => cfg.cmdDdram == 0x80#8
  | .home => true
  | .unlisted => true

/-- The command table of a build: its own commands, then what it keeps of R57. With the default command values it is R57
itself (log 10). -/
def commandOf (cfg : Config) (b : Byte) : CharCommand :=
  match ownCommand cfg b with
  | some c => c
  | none => if keepsRow cfg (standardCommand b) then standardCommand b else .unlisted

/-- The effect of a command (R57). -/
def CharRx.perform : CharCommand → CharRx → CharRx
  | .clear, c =>
    { c with ddram := Memory.fill 128 0x20#8, acSel := .is .ddram, ac := .is 0#7, chCfg := c.chCfg.cleared }
  | .home, c => { c with acSel := .is .ddram, ac := .is 0#7 }
  | .entryMode id s, c => { c with chCfg := c.chCfg.entryMode id s }
  | .displayControl d cur blink, c => { c with chCfg := c.chCfg.displayControl d cur blink }
  | .functionSet eightBit n f, c =>
    { c with chCfg := c.chCfg.functionSet n f, ifMode := if eightBit then .if8 else c.ifMode }
  | .glyphAddress a, c => { c with acSel := .is .cgram, ac := .is (a.zeroExtend 7) }
  | .cellAddress a, c => { c with acSel := .is .ddram, ac := .is a }
  | .unlisted, c => c.havoc

/-! ## Data bytes (R58) -/

/-- "Every `DDRAM` and `CGRAM` byte becomes unspecified" (R58). -/
def CharRx.memoriesLost (c : CharRx) : CharRx :=
  { c with ddram := Memory.lost, cgram := Memory.lost }

/-- The address after `a` in `DDRAM` (R58): the controller's two-line layout. -/
def ddramNext (a : BitVec 7) : BitVec 7 :=
  if a = 0x27#7 then 0x40#7 else if a = 0x67#7 then 0x00#7 else a + 1#7

/-- The address after `a` in `CGRAM`, `(AC + 1) % 64` (R58). -/
def cgramNext (a : BitVec 7) : BitVec 7 :=
  ((a + 1#7).extractLsb' 0 6).zeroExtend 7

/-- The store of a data byte and the move of `AC` (R58). With `AC` or `ACSEL` unspecified the location is too, and both
keep what they were, R58 giving them no value then (log 14). -/
def CharRx.stored (b : Byte) (c : CharRx) : CharRx :=
  match c.acSel, c.ac with
  | .is .ddram, .is a =>
    { c with ddram := Memory.write c.ddram a.toNat b, ac := .is (ddramNext a) }
  | .is .cgram, .is a =>
    { c with cgram := Memory.write c.cgram (a.toNat % 64) (b &&& 0x1F#8), ac := .is (cgramNext a) }
  | _, _ => c.memoriesLost

/-- A data byte, delivered with `RS` = 1 (R58). With a flag of `CHCFG` unspecified, `ID` and `S` apart, the location is
unspecified and `AC` moves as R58 says (log 9). -/
def CharRx.data (b : Byte) (c : CharRx) : CharRx :=
  if c.chCfg.leftToRight then
    if c.chCfg.known then c.stored b else (c.stored b).memoriesLost
  else c.havoc

/-! ## Nibbles (R56) -/

/-- `Deliver(rs, b)` (R56). -/
def CharRx.deliver (cfg : Config) (rs : Bool) (b : Byte) (c : CharRx) : CharRx :=
  if rs then c.data b else CharRx.perform (commandOf cfg b) c

/-- R56, "first, in every mode". -/
def CharRx.countLegacy (rs : Bool) (n : Nibble) (c : CharRx) : CharRx :=
  { c with legacyCnt := if rs = false ∧ n = 0x3#4 then min (c.legacyCnt + 1) 3 else 0 }

/-- R56, "then, by IFMODE". -/
def CharRx.intake (cfg : Config) (rs : Bool) (n : Nibble) (c : CharRx) : CharRx :=
  match c.ifMode with
  | .unknown => c
  | .if8 =>
    if rs = false ∧ n = 0x3#4 then c
    else if rs = false ∧ n = 0x2#4 then { c with ifMode := .if4Hi, chCfg := c.chCfg.functionLost }
    else c.havoc
  | .if4Hi => { c with hiNib := .is n, hiRs := .is rs, ifMode := .if4Lo }
  | .if4Lo =>
    match c.hiNib, c.hiRs with
    | .is h, .is r =>
      if rs = r then CharRx.deliver cfg rs (h ++ n) { c with ifMode := .if4Hi } else c.havoc
    | _, _ => c.havoc

/-- R56, "last, in every mode". -/
def CharRx.settleLegacy (c : CharRx) : CharRx :=
  if c.ifMode = .unknown ∧ c.legacyCnt = 3 then { c with ifMode := .if8 } else c

/-- The whole intake of one latched pair (R56). -/
def CharRx.onStrobe (cfg : Config) (rs : Bool) (n : Nibble) (c : CharRx) : CharRx :=
  ((c.countLegacy rs n).intake cfg rs n).settleLegacy

/-- What the character receiver does at an event, `l` the levels before it: it acts at each change of `EN` from 1
to 0, on the levels `RS` and `NIB` hold then (R56). -/
def CharRx.observe (cfg : Config) (l : Lines) (e : Event) (c : CharRx) : CharRx :=
  match e with
  | .en v => if l.en = true ∧ v = false then c.onStrobe cfg l.rs l.nib else c
  | _ => c

end Sys2Proof.Machine
end

