-- ==== Sys2Proof/Machine/PixelReceiver.lean ====
section
/-!
DEFINITION. The reference receiver of the serial bus (20_memory.md R59, R60): the spec's own device (D24; log 21).
-/

namespace Sys2Proof.Machine

/-! ## Byte intake (R60) -/

/-- `PxHavoc()` (R60). -/
def PixelRx.havoc (p : PixelRx) : PixelRx :=
  { p with
    pxSync := false, colLo := .unspecified, colHi := .unspecified, pagePtr := .unspecified,
    pxOn := .unspecified }

/-- `COLPTR`, specified when both its parts are (R60). -/
def PixelRx.colPtr (p : PixelRx) : Tracked (BitVec 7) :=
  match p.colHi, p.colLo with
  | .is h, .is l => .is (h ++ l)
  | _, _ => .unspecified

/-- Both parts of `COLPTR` take a new value. -/
def PixelRx.setCol (c : BitVec 7) (p : PixelRx) : PixelRx :=
  { p with colHi := .is (c.extractLsb' 4 3), colLo := .is (c.extractLsb' 0 4) }

/-- A data-stream byte (R60): stored at the write position, which moves on by one column inside the page. -/
def PixelRx.data (b : Byte) (p : PixelRx) : PixelRx :=
  match p.pxSync, p.colPtr, p.pagePtr with
  | true, .is c, .is g =>
    PixelRx.setCol (c + 1#7) { p with gddram := Memory.write p.gddram (gddramAddr g.toNat c.toNat) b }
  | _, _, _ => { p with gddram := Memory.lost }

/-- The three position rows of R60, for the default `PX_SETPOS`. -/
def standardPosition (b : Byte) : Option PosEffect :=
  let n := b.toNat
  if 0xB0 ≤ n ∧ n ≤ 0xB7 then some ⟨some (b.extractLsb' 0 3), none, none⟩
  else if n ≤ 0x0F then some ⟨none, some (b.extractLsb' 0 4), none⟩
  else if 0x10 ≤ n ∧ n ≤ 0x17 then some ⟨none, none, some (b.extractLsb' 0 3)⟩
  else none

/-- The position rows of a build: R60's, or those its own `PX_SETPOS` brings along in their place (log 11). -/
def positionOf (cfg : Config) (b : Byte) : Option PosEffect :=
  match cfg.pxSetpos with
  | .standard => standardPosition b
  | .table _ received => received.lookup b

/-- A new value where there is one. -/
def renewed {α : Type} (o : Option α) (t : Tracked α) : Tracked α :=
  match o with
  | some v => .is v
  | none => t

/-- The write position takes the parts a position command sets (R60). -/
def PixelRx.place (e : PosEffect) (p : PixelRx) : PixelRx :=
  { p with
    pagePtr := renewed e.page p.pagePtr, colLo := renewed e.colLo p.colLo,
    colHi := renewed e.colHi p.colHi }

/-- What one position command after another sets: the later one wins in each part. -/
def laterPosition (e f : PosEffect) : PosEffect :=
  ⟨f.page <|> e.page, f.colLo <|> e.colLo, f.colHi <|> e.colHi⟩

/-- What a list of command bytes sets of the write position, if each of them is a position command. -/
def positionsOf (cfg : Config) : List Byte → Option PosEffect
  | [] => some ⟨none, none, none⟩
  | b :: bs =>
    match positionOf cfg b, positionsOf cfg bs with
    | some e, some f => some (laterPosition e f)
    | _, _ => none

/-- A command-stream byte (R60): a position row of the build, on, off, or `PxHavoc()`. -/
def PixelRx.command (cfg : Config) (b : Byte) (p : PixelRx) : PixelRx :=
  match positionOf cfg b with
  | some e => p.place e
  | none =>
    if b = 0xAE#8 then { p with pxOn := .is false }
    else if b = 0xAF#8 then { p with pxOn := .is true }
    else p.havoc

/-- `RecvByte(byte)` (R60). -/
def PixelRx.recvByte (cfg : Config) (b : Byte) (p : PixelRx) : PixelRx :=
  match p.phase with
  | .first =>
    if b = cfg.i2cAddr then { p with addressed := .is true, phase := .control }
    else { p with addressed := .is false, phase := .ignored }
  | .control =>
    if b = cfg.ctlCmd then { p with stream := .is .command, phase := .payload }
    else if b = cfg.ctlDat then { p with stream := .is .data, phase := .payload }
    else { p.havoc with phase := .ignored }
  | .payload =>
    match p.stream with
    | .is .data => p.data b
    | .is .command => p.command cfg b
    | .unspecified => { p.havoc with gddram := Memory.lost }
  | .ignored => p

/-! ## Line decode (R59) -/

/-- The byte of the first eight bits: `BITS[0]` is bit 7 (R59). -/
def byteOfBits (bits : List Bool) : Byte :=
  (bits.take 8).foldl (fun acc v => (acc <<< 1) ||| (if v then 1#8 else 0#8)) 0#8

/-- A start condition (R59). -/
def PixelRx.startCond (p : PixelRx) : PixelRx :=
  { p with busCond := .opened, bits := [], phase := .first }

/-- A stop condition (R59). -/
def PixelRx.stopCond (p : PixelRx) : PixelRx :=
  { p with busCond := .idle, bits := [] }

/-- A rising edge of `SCL` with `SDA` at `v` (R59). The ninth bit is the ack slot: it is appended, and ignored. `feed` is
what takes the byte: `recvByte`, but for the bytes of OLED.INIT (R153). -/
def PixelRx.takeBit (feed : Byte → PixelRx → PixelRx) (v : Bool) (p : PixelRx) : PixelRx :=
  if p.busCond = .opened then
    let bits := p.bits ++ [v]
    if bits.length = 9 then feed (byteOfBits bits) { p with bits := [] }
    else { p with bits := bits }
  else p

/-- What the pixel receiver does at an event, `l` the levels before it (R59): it follows the changes of `SCL` and
`SDA` only, as the normal form shows them. -/
def PixelRx.observe (feed : Byte → PixelRx → PixelRx) (l : Lines) (e : Event) (p : PixelRx) : PixelRx :=
  match e with
  | .sda v =>
    if l.scl = true ∧ l.sda = true ∧ v = false then p.startCond
    else if l.scl = true ∧ l.sda = false ∧ v = true then p.stopCond
    else p
  | .scl v => if l.scl = false ∧ v = true then p.takeBit feed l.sda else p
  | _ => p

/-- R153: the effect of OLED.INIT as a whole, beside that of its line events. -/
def PixelRx.initialised (p : PixelRx) : PixelRx :=
  { p with
    pxSync := true, pxOn := .is true, colLo := .unspecified, colHi := .unspecified,
    pagePtr := .unspecified }

end Sys2Proof.Machine
end

