-- ==== Sys2Proof/Machine/Ops.lean ====
section
/-!
DEFINITION. The shared operations of the machine: one event on the lines, the trace and the receivers (00_scope.md R9,
R10), a list of them, the completion of an operation (10_state.md R24) and the refusal of one (60_exceptions.md
R221). There is no return from a refusal: trap return does not exist (R226).
-/

namespace Sys2Proof.Machine

/-- The levels of the lines after an event; a wait leaves them (R9, R230). -/
def Lines.apply (e : Event) (l : Lines) : Lines :=
  match e with
  | .nib v => { l with nib := v }
  | .rs v => { l with rs := v }
  | .en v => { l with en := v }
  | .scl v => { l with scl := v }
  | .sda v => { l with sda := v }
  | .wait _ => l

/-- One event: `PinWrite(L, v)` (R9) or `Delay(d)` (R10). The line takes its level, the event is appended to the
trace, and the receivers see it (R41, R76). -/
def emitVia (feed : Byte → PixelRx → PixelRx) (e : Event) (s : State) : State :=
  { s with
    lines := s.lines.apply e
    trace := s.trace ++ [e]
    lcd := s.lcd.observe s.cfg s.lines e
    px := s.px.observe feed s.lines e }

/-- The events of a sequence in order (R75). -/
def emitAllVia (feed : Byte → PixelRx → PixelRx) : List Event → State → State
  | [], s => s
  | e :: es, s => emitAllVia feed es (emitVia feed e s)

/-- The events of a sequence in order, the pixel receiver taking each byte by R60. -/
def emitAll (es : List Event) (s : State) : State :=
  emitAllVia (PixelRx.recvByte s.cfg) es s

/-- The events of a sequence whose bytes are not fed through R60 (R153). -/
def emitAllMuted (es : List Event) (s : State) : State :=
  emitAllVia (fun _ p => p) es s

/-- `pc <- pc + n` (R12, R24). -/
def State.advance (n : Nat) (s : State) : State :=
  { s with pc := s.pc + n }

/-- An operation that emits `es` and then moves `pc` by its length `n` (R24). -/
def complete (es : List Event) (n : Nat) (s : State) : Host.Outcome State Fault Refusal :=
  .next ((emitAll es s).advance n)

/-- `raise Refuse(code)` (R221): the mark becomes (code, pc); no event, every line, `pc` and the trace unchanged. The
run ends there: `step` answers a refusal in a marked state (R40, log 7). -/
def State.refuse (code : RefuseCode) (s : State) : State :=
  { s with refused := some ⟨code, s.pc⟩ }

/-- The first line of an operation with operand ranges (R88, R221): refused before any event, or carried out. -/
def guardOperands (ok : Bool) (k : State → Host.Outcome State Fault Refusal) (s : State) :
    Host.Outcome State Fault Refusal :=
  if ok then k s else .next (s.refuse .badOperand)

end Sys2Proof.Machine
end

