-- ==== Sys2Proof/Machine/Operands.lean ====
section
/-!
DEFINITION. Operands: the acceptance conditions of 30_encoding.md R88, the sub-fields of LCD.NIB (R85), the cell address
(42_char_surface.md R160), the set-position bytes (00_scope.md R6), and the digit font's read (20_memory.md R52).
-/

namespace Sys2Proof.Machine

/-! ## Acceptance (R88) -/

/-- LCD.NIB: `A[7:5] = 0`. -/
def nibOperandOk (a : Byte) : Bool := a.extractLsb' 5 3 == 0#3

/-- CH.SETCUR, CH.NUM: `A <= 3` and `B <= COLS - 1`. -/
def cellOk (cfg : Config) (row col : Byte) : Bool :=
  decide (row.toNat ≤ 3) && decide (col.toNat < cfg.cols.count)

/-- CH.GLYPH: `A <= 7`. -/
def slotOk (slot : Byte) : Bool := decide (slot.toNat ≤ 7)

/-- PX.CLRPG and the page of every pixel operation: at most 7. -/
def pageOk (page : Byte) : Bool := decide (page.toNat ≤ 7)

/-- PX.SETPOS: `A <= 127` and `B <= 7`. -/
def posOk (x page : Byte) : Bool := decide (x.toNat ≤ 127) && pageOk page

/-- PX.BLIT: `A <= 120` and `B <= 7`. -/
def blitOk (x page : Byte) : Bool := decide (x.toNat ≤ 120) && pageOk page

/-- PX.NUM: `A <= 96` and `B <= 7` and `V <= 9999`. -/
def pxNumOk (x page : Byte) (v : Value) : Bool :=
  decide (x.toNat ≤ 96) && pageOk page && decide (v.toNat ≤ 9999)

/-! ## Fields -/

/-- `rs = A[4]` (R85). -/
def nibRs (a : Byte) : Bool := a.getLsbD 4

/-- `n = A[3:0]` (R85). -/
def nibData (a : Byte) : Nibble := a.extractLsb' 0 4

/-- `ROWBASE[row]`; only rows 0 to 3 reach it (R88). -/
def rowBaseAt (rb : RowBase) (row : Byte) : Byte :=
  match row.toNat with
  | 0 => rb.row0
  | 1 => rb.row1
  | 2 => rb.row2
  | _ => rb.row3

/-- `CellAddr(row, col) = ROWBASE[row] + col` (R160). -/
def cellAddr (cfg : Config) (row col : Byte) : Byte := rowBaseAt cfg.rowBase row + col

/-- `CMD_DDRAM OR (CellAddr AND 0x7F)` (R162). -/
def cursorCommand (cfg : Config) (row col : Byte) : Byte :=
  cfg.cmdDdram ||| (cellAddr cfg row col &&& 0x7F#8)

/-- `CMD_CGRAM OR (8 * slot)` (R166). -/
def glyphCommand (cfg : Config) (slot : Byte) : Byte := cfg.cmdCgram ||| (8#8 * slot)

/-- `PX_SETPOS(x, page)` (R6): the default bytes, or the build's table (log 11). -/
def setposBytes (cfg : Config) (x page : Byte) : List Byte :=
  match cfg.pxSetpos with
  | .standard => [0xB0#8 ||| page, x &&& 0x0F#8, 0x10#8 ||| (x >>> 4)]
  | .table rows _ => rows.getD (128 * page.toNat + x.toNat) []

/-- `MemRead(FONT, d, 8)` (R11, R52); only digits 0 to 9 reach it (R202, log 23). -/
def glyphOf (f : DigitFont) (d : Nat) : Bytes8 :=
  match d with
  | 0 => f.d0
  | 1 => f.d1
  | 2 => f.d2
  | 3 => f.d3
  | 4 => f.d4
  | 5 => f.d5
  | 6 => f.d6
  | 7 => f.d7
  | 8 => f.d8
  | _ => f.d9

end Sys2Proof.Machine
end

