-- ==== Sys2Proof/Machine/Lcd.lean ====
section
/-!
DEFINITION. The parallel 4-bit driver (40_parallel_lcd_driver.md): LcdNibble, LcdByte, and the operations LCD.INIT,
LCD.CMD, LCD.DAT, LCD.NIB.
-/

namespace Sys2Proof.Machine

/-- `LcdNibble(rs, n)` (R110): six events, in this order. -/
def lcdNibble (rs : Bool) (n : Nibble) : List Event :=
  [.nib n, .rs rs, .en true, .wait tHold, .en false, .wait tSettle]

/-- `LcdByte(rs, b)` (R112): high nibble, then low nibble. -/
def lcdByte (rs : Bool) (b : Byte) : List Event :=
  lcdNibble rs (b.extractLsb' 4 4) ++ lcdNibble rs (b.extractLsb' 0 4)

/-- A list of data bytes, each by `LcdByte(1, b)`, in list order (R165, R166, R203). -/
def lcdData (bs : List Byte) : List Event := bs.flatMap (lcdByte true)

/-- The optional lone nibble that switches the controller to 4-bit transfers (R118, D7). -/
def fourbitSwitch : Option Nibble → List Event
  | some n => lcdNibble false n
  | none => []

/-- The initialisation sequence of R118. -/
def lcdInitEvents (c : Config) : List Event :=
  [.wait tPwron] ++ lcdNibble false c.legacyNib ++ [.wait c.tInit1] ++ lcdNibble false c.legacyNib ++
    [.wait c.tInit2] ++ lcdNibble false c.legacyNib ++ [.wait c.tInit3] ++ fourbitSwitch c.fourbitNib ++
    lcdByte false c.cmdFuncset ++ lcdByte false c.cmdDispon ++ lcdByte false c.cmdEntry ++
    lcdByte false c.cmdClear

/-- LCD.INIT (R118). -/
def execLcdInit (s : State) : Host.Outcome State Fault Refusal :=
  complete (lcdInitEvents s.cfg) 1 s

/-- LCD.CMD (R114): register select 0. -/
def execLcdCmd (b : Byte) (s : State) : Host.Outcome State Fault Refusal :=
  complete (lcdByte false b) 2 s

/-- LCD.DAT (R115): register select 1. -/
def execLcdDat (b : Byte) (s : State) : Host.Outcome State Fault Refusal :=
  complete (lcdByte true b) 2 s

/-- LCD.NIB (R113): one 4-bit transfer with no partner; refused when `A[7:5]` is not 0. -/
def execLcdNib (a : Byte) (s : State) : Host.Outcome State Fault Refusal :=
  guardOperands (nibOperandOk a) (complete (lcdNibble (nibRs a) (nibData a)) 2) s

end Sys2Proof.Machine
end

