-- ==== Sys2Proof/Machine/CharSurface.lean ====
section
/-!
DEFINITION. The display surface, character form (42_char_surface.md): CH.CLEAR, CH.SETCUR, CH.PUTC, CH.TEXT, CH.GLYPH.
-/

namespace Sys2Proof.Machine

/-- CH.CLEAR (R161). -/
def execChClear (s : State) : Host.Outcome State Fault Refusal :=
  complete (lcdByte false s.cfg.cmdClear) 1 s

/-- CH.SETCUR (R162). -/
def execChSetcur (row col : Byte) (s : State) : Host.Outcome State Fault Refusal :=
  guardOperands (cellOk s.cfg row col) (complete (lcdByte false (cursorCommand s.cfg row col)) 3) s

/-- CH.PUTC (R163). -/
def execChPutc (c : Byte) (s : State) : Host.Outcome State Fault Refusal :=
  complete (lcdByte true c) 2 s

/-- CH.TEXT (R165): first character first; no terminator. -/
def execChText (p : List Byte) (s : State) : Host.Outcome State Fault Refusal :=
  complete (lcdData p) (2 + p.length) s

/-- CH.GLYPH (R166): the glyph-memory address, then the eight rows, top first. -/
def execChGlyph (slot : Byte) (rows : Bytes8) (s : State) : Host.Outcome State Fault Refusal :=
  guardOperands (slotOk slot)
    (complete (lcdByte false (glyphCommand s.cfg slot) ++ lcdData rows.toList) 10) s

end Sys2Proof.Machine
end

