-- ==== Sys2Proof/Machine/Decimal.lean ====
section
/-!
DEFINITION. The arithmetic of the decimal renderer (44_decimal_renderer.md R200 to R202), on natural numbers.
-/

namespace Sys2Proof.Machine

/-- The loop of R201, at most `fuel` rounds: the digits of `v`, least significant first. -/
def digitsLow : Nat → Nat → List Nat
  | 0, _ => []
  | fuel + 1, v => if v = 0 then [] else v % 10 :: digitsLow fuel (v / 10)

/-- `CharDigits(V)` (R201): most significant first, no leading zeros, "0" special-cased; a 16-bit value needs at most
5 rounds. -/
def charDigits (v : Value) : List Nat :=
  if v = 0#16 then [0] else (digitsLow 5 v.toNat).reverse

/-- `PixDigits(V)` (R202): four digits, padded with zeros on the left. -/
def pixDigits (v : Value) : List Nat :=
  [v.toNat / 1000, v.toNat / 100 % 10, v.toNat / 10 % 10, v.toNat % 10]

/-- The character code of a digit, `0x30 + d` (R203, R207). -/
def digitCode (d : Nat) : Byte := 0x30#8 + BitVec.ofNat 8 d

end Sys2Proof.Machine
end

