-- ==== Sys2Proof/Machine/Serial.lean ====
section
/-!
DEFINITION. The bit-banged I2C master (41_i2c_master.md): the sub-sequences of R131 to R139 and the operations I2C.START,
I2C.STOP, I2C.WRB, I2C.XFER, OLED.CMD, OLED.DAT, OLED.INIT.
-/

namespace Sys2Proof.Machine

/-- `I2cStart()` (R131), `t` the delay `T_I2C`. -/
def i2cStart (t : Nat) : List Event :=
  [.sda true, .scl true, .wait t, .sda false, .wait t, .scl false, .wait t]

/-- `I2cStop()` (R132). -/
def i2cStop (t : Nat) : List Event :=
  [.sda false, .wait t, .scl true, .wait t, .sda true, .wait t]

/-- `I2cBit(v)` (R133). -/
def i2cBit (t : Nat) (v : Bool) : List Event :=
  [.sda v, .wait t, .scl true, .wait t, .scl false, .wait t]

/-- The bits of a byte, bit 7 first (R62). -/
def bitsOfByte (b : Byte) : List Bool :=
  [b.getLsbD 7, b.getLsbD 6, b.getLsbD 5, b.getLsbD 4, b.getLsbD 3, b.getLsbD 2, b.getLsbD 1, b.getLsbD 0]

/-- `I2cWriteByte(b)` (R134): eight bits, then the dummy acknowledge clock with `SDA` at 1 (R135). -/
def i2cWriteByte (t : Nat) (b : Byte) : List Event :=
  (bitsOfByte b).flatMap (i2cBit t) ++ i2cBit t true

/-- `OledXfer(ctl, p)` (R139): start, address, control byte, payload, stop. -/
def oledXfer (c : Config) (ctl : Byte) (p : List Byte) : List Event :=
  i2cStart c.tI2c ++ i2cWriteByte c.tI2c c.i2cAddr ++ i2cWriteByte c.tI2c ctl ++
    p.flatMap (i2cWriteByte c.tI2c) ++ i2cStop c.tI2c

/-- `OledCmd(b)`: one command-stream transaction with one payload byte (R141). -/
def oledCmdEvents (c : Config) (b : Byte) : List Event := oledXfer c c.ctlCmd [b]

/-- `OledDat(b)`: one data-stream transaction with one payload byte (R142). -/
def oledDatEvents (c : Config) (b : Byte) : List Event := oledXfer c c.ctlDat [b]

/-- The pixel initialisation (R150): each byte of the sequence in a transaction of its own. -/
def oledInitEvents (c : Config) : List Event := c.oledInitSeq.flatMap (oledCmdEvents c)

/-- I2C.START (R136). -/
def execI2cStart (s : State) : Host.Outcome State Fault Refusal :=
  complete (i2cStart s.cfg.tI2c) 1 s

/-- I2C.STOP (R137). -/
def execI2cStop (s : State) : Host.Outcome State Fault Refusal :=
  complete (i2cStop s.cfg.tI2c) 1 s

/-- I2C.WRB (R138). -/
def execI2cWrb (b : Byte) (s : State) : Host.Outcome State Fault Refusal :=
  complete (i2cWriteByte s.cfg.tI2c b) 2 s

/-- I2C.XFER (R140): any control byte, sent as it is. -/
def execI2cXfer (ctl : Byte) (p : List Byte) (s : State) : Host.Outcome State Fault Refusal :=
  complete (oledXfer s.cfg ctl p) (3 + p.length) s

/-- OLED.CMD (R141). -/
def execOledCmd (b : Byte) (s : State) : Host.Outcome State Fault Refusal :=
  complete (oledCmdEvents s.cfg b) 2 s

/-- OLED.DAT (R142). -/
def execOledDat (b : Byte) (s : State) : Host.Outcome State Fault Refusal :=
  complete (oledDatEvents s.cfg b) 2 s

/-- The pixel receiver takes the effect of OLED.INIT as a whole (R153). -/
def State.pixelInitialised (s : State) : State := { s with px := s.px.initialised }

/-- OLED.INIT (R150): its line events, whose bytes are not fed through R60, and the effect of R153 (log 13). -/
def execOledInit (s : State) : Host.Outcome State Fault Refusal :=
  .next ((emitAllMuted (oledInitEvents s.cfg) s).pixelInitialised.advance 1)

end Sys2Proof.Machine
end

