-- ==== Sys2Proof/Machine/PixelSurface.lean ====
section
/-!
DEFINITION. The display surface, pixel form (43_pixel_surface.md): PX.CLEAR, PX.CLRPG, PX.SETPOS, PX.BLIT.
-/

namespace Sys2Proof.Machine

/-- The position commands, each in a transaction of its own (R181). -/
def setposEvents (c : Config) (x page : Byte) : List Event :=
  (setposBytes c x page).flatMap (oledCmdEvents c)

/-- Column bytes from the write position on, each in a transaction of its own. -/
def columnEvents (c : Config) (cols : List Byte) : List Event := cols.flatMap (oledDatEvents c)

/-- The body of PX.BLIT (R184). -/
def blitEvents (c : Config) (x page : Byte) (sprite : Bytes8) : List Event :=
  setposEvents c x page ++ columnEvents c sprite.toList

/-- The body of PX.CLRPG (R182): position (0, page), then 128 zero bytes. -/
def clearPageEvents (c : Config) (page : Byte) : List Event :=
  setposEvents c 0#8 page ++ columnEvents c (List.replicate pxW 0x00#8)

/-- The body of PX.CLEAR (R183): every page, page 0 first. -/
def clearPanelEvents (c : Config) : List Event :=
  (List.range pages).flatMap fun p => clearPageEvents c (BitVec.ofNat 8 p)

/-- PX.SETPOS (R181). -/
def execPxSetpos (x page : Byte) (s : State) : Host.Outcome State Fault Refusal :=
  guardOperands (posOk x page) (complete (setposEvents s.cfg x page) 3) s

/-- PX.CLRPG (R182). -/
def execPxClrpg (page : Byte) (s : State) : Host.Outcome State Fault Refusal :=
  guardOperands (pageOk page) (complete (clearPageEvents s.cfg page) 2) s

/-- PX.CLEAR (R183). -/
def execPxClear (s : State) : Host.Outcome State Fault Refusal :=
  complete (clearPanelEvents s.cfg) 1 s

/-- PX.BLIT (R184). -/
def execPxBlit (x page : Byte) (sprite : Bytes8) (s : State) : Host.Outcome State Fault Refusal :=
  guardOperands (blitOk x page) (complete (blitEvents s.cfg x page sprite) 11) s

end Sys2Proof.Machine
end

