-- ==== Sys2Proof/Machine/Number.lean ====
section
/-!
DEFINITION. The decimal renderer's operations (44_decimal_renderer.md): CH.NUM (R203) and PX.NUM (R205).
-/

namespace Sys2Proof.Machine

/-- The digit codes CH.NUM sends, most significant first (R203). -/
def numberCodes (v : Value) : List Byte := (charDigits v).map digitCode

/-- CH.NUM (R203): the position as CH.SETCUR, then the digits as CH.PUTC. -/
def execChNum (row col : Byte) (v : Value) (s : State) : Host.Outcome State Fault Refusal :=
  guardOperands (cellOk s.cfg row col)
    (complete (lcdByte false (cursorCommand s.cfg row col) ++ lcdData (numberCodes v)) 5) s

/-- One blit for each digit, each `DIGIT_PITCH` columns to the right of the one before (R205). -/
def digitBlits (c : Config) (x page : Byte) : List Nat → List Event
  | [] => []
  | d :: ds => blitEvents c x page (glyphOf c.digitFont d) ++ digitBlits c (x + digitPitch) page ds

/-- PX.NUM (R205). -/
def execPxNum (x page : Byte) (v : Value) (s : State) : Host.Outcome State Fault Refusal :=
  guardOperands (pxNumOk x page v) (complete (digitBlits s.cfg x page (pixDigits v)) 5) s

end Sys2Proof.Machine
end

