-- ==== Sys2Proof/Machine/Dispatch.lean ====
section
/-!
DEFINITION. One arm for each operation of 30_encoding.md R83.
-/

namespace Sys2Proof.Machine

def exec (i : Instr) (s : State) : Host.Outcome State Fault Refusal :=
  match i with
  -- the parallel driver
  | .lcdInit => Sys2Proof.Machine.execLcdInit s
  | .lcdCmd b => Sys2Proof.Machine.execLcdCmd b s
  | .lcdDat b => Sys2Proof.Machine.execLcdDat b s
  | .lcdNib a => Sys2Proof.Machine.execLcdNib a s
  -- the serial driver
  | .i2cStart => Sys2Proof.Machine.execI2cStart s
  | .i2cStop => Sys2Proof.Machine.execI2cStop s
  | .i2cWrb b => Sys2Proof.Machine.execI2cWrb b s
  | .i2cXfer ctl p => Sys2Proof.Machine.execI2cXfer ctl p s
  | .oledCmd b => Sys2Proof.Machine.execOledCmd b s
  | .oledDat b => Sys2Proof.Machine.execOledDat b s
  | .oledInit => Sys2Proof.Machine.execOledInit s
  -- the character surface and its number
  | .chClear => Sys2Proof.Machine.execChClear s
  | .chSetcur row col => Sys2Proof.Machine.execChSetcur row col s
  | .chPutc c => Sys2Proof.Machine.execChPutc c s
  | .chText p => Sys2Proof.Machine.execChText p s
  | .chGlyph slot rows => Sys2Proof.Machine.execChGlyph slot rows s
  | .chNum row col v => Sys2Proof.Machine.execChNum row col v s
  -- the pixel surface and its number
  | .pxClear => Sys2Proof.Machine.execPxClear s
  | .pxClrpg page => Sys2Proof.Machine.execPxClrpg page s
  | .pxSetpos x page => Sys2Proof.Machine.execPxSetpos x page s
  | .pxBlit x page sprite => Sys2Proof.Machine.execPxBlit x page sprite s
  | .pxNum x page v => Sys2Proof.Machine.execPxNum x page v s

end Sys2Proof.Machine
end

