-- ==== Sys2Proof/Machine/Fetch.lean ====
section
/-!
DEFINITION. Fetching the next request from the request stream (20_memory.md R51; 10_state.md R23, R24) and what a failed
decode does (30_encoding.md R87, R90).
-/

namespace Sys2Proof.Machine

/-- The bytes of the request stream from `pc` on (R23). -/
def State.pending (s : State) : List Byte := s.req.drop s.pc

/-- The refusal code of a failed decode (R221). -/
def refuseCodeOf : DecodeError → RefuseCode
  | .badOpcode => .badOpcode
  | .truncated => .truncated

/-- One request: decoded whole before its first event (R222), then carried out or refused. -/
def runRequest (s : State) : Host.Outcome State Fault Refusal :=
  match decode s.pending with
  | .ok (i, _) => exec i s
  | .error e => .next (s.refuse (refuseCodeOf e))

/-- The request stream with the bytes of a table word placed at `pc`. -/
def placeWord (req : List Byte) (pc nbits w : Nat) : List Byte :=
  req.take pc ++ List.replicate (pc - req.length) 0x00#8 ++ tableBytes nbits w ++
    req.drop (pc + longestRequest)

end Sys2Proof.Machine
end

