-- ==== Sys2Proof/Machine/Step.lean ====
section
/-!
DEFINITION. One step: one request, from its fetch to its last event (20_memory.md R71, R75).
-/

namespace Sys2Proof.Machine

/-- One step. A marked state takes none (R40); at the end of `REQ` the run is over (R24); otherwise the request at `pc`
runs or is refused. -/
def step (s : State) : Host.Outcome State Fault Refusal :=
  match s.refused with
  | some m => .refused (.requestRefused m)
  | none => if s.pc = s.req.length then .fault .runOver else runRequest s

/-- The state with an instruction's bytes placed in the request stream at `pc`, and the refusal mark clear, so that
the next step fetches and runs it (log 1, log 24). -/
def State.withFetchWord (s : State) (nbits w : Nat) : State :=
  { s with req := placeWord s.req s.pc nbits w, refused := none }

end Sys2Proof.Machine
end

