-- ==== Sys2Proof/Machine/Observe.lean ====
section
/-!
DEFINITION. What can be said of a trace and of the receivers: the trace normal form (00_scope.md R15), the latched
sequence (40_parallel_lcd_driver.md R116), the decoded transactions (41_i2c_master.md R143), the sum of the wait
lower bounds (70_reset_and_hazards.md R263), and the picture (20_memory.md R53 to R55, R72, R73). The machine reads none of these.
-/

namespace Sys2Proof.Machine

/-! ## The events of an operation -/

/-- The events an accepted operation emits, in order (R75): a function of the configuration and the operands alone. -/
def wireEvents (c : Config) : Instr → List Event
  | .lcdInit => lcdInitEvents c
  | .lcdCmd b => lcdByte false b
  | .lcdDat b => lcdByte true b
  | .lcdNib a => lcdNibble (nibRs a) (nibData a)
  | .i2cStart => i2cStart c.tI2c
  | .i2cStop => i2cStop c.tI2c
  | .i2cWrb b => i2cWriteByte c.tI2c b
  | .i2cXfer ctl p => oledXfer c ctl p
  | .oledCmd b => oledCmdEvents c b
  | .oledDat b => oledDatEvents c b
  | .oledInit => oledInitEvents c
  | .chClear => lcdByte false c.cmdClear
  | .chSetcur row col => lcdByte false (cursorCommand c row col)
  | .chPutc b => lcdByte true b
  | .chText p => lcdData p
  | .chGlyph slot rows => lcdByte false (glyphCommand c slot) ++ lcdData rows.toList
  | .chNum row col v => lcdByte false (cursorCommand c row col) ++ lcdData (numberCodes v)
  | .pxClear => clearPanelEvents c
  | .pxClrpg page => clearPageEvents c page
  | .pxSetpos x page => setposEvents c x page
  | .pxBlit x page sprite => blitEvents c x page sprite
  | .pxNum x page v => digitBlits c x page (pixDigits v)

/-- The operations of the parallel backend: opcode groups 0x1n and 0x3n (R82). -/
def onParallelBus : Instr → Bool
  | .lcdInit | .lcdCmd _ | .lcdDat _ | .lcdNib _ => true
  | .chClear | .chSetcur _ _ | .chPutc _ | .chText _ | .chGlyph _ _ | .chNum _ _ _ => true
  | .i2cStart | .i2cStop | .i2cWrb _ | .i2cXfer _ _ | .oledCmd _ | .oledDat _ | .oledInit => false
  | .pxClear | .pxClrpg _ | .pxSetpos _ _ | .pxBlit _ _ _ | .pxNum _ _ _ => false

/-! ## What an operation puts on its bus -/

/-- The two latched pairs of a byte, high nibble first (R61, R112). -/
def bytePairs (rs : Bool) (b : Byte) : List (Bool × Nibble) :=
  [(rs, b.extractLsb' 4 4), (rs, b.extractLsb' 0 4)]

/-- One pair for each LcdNibble an accepted operation executes, in order (R116). -/
def strobePairs (c : Config) : Instr → List (Bool × Nibble)
  | .lcdInit =>
    [(false, c.legacyNib), (false, c.legacyNib), (false, c.legacyNib)] ++
      c.fourbitNib.toList.map (fun n => (false, n)) ++ bytePairs false c.cmdFuncset ++
      bytePairs false c.cmdDispon ++ bytePairs false c.cmdEntry ++ bytePairs false c.cmdClear
  | .lcdCmd b => bytePairs false b
  | .lcdDat b => bytePairs true b
  | .lcdNib a => [(nibRs a, nibData a)]
  | .chClear => bytePairs false c.cmdClear
  | .chSetcur row col => bytePairs false (cursorCommand c row col)
  | .chPutc b => bytePairs true b
  | .chText p => p.flatMap (bytePairs true)
  | .chGlyph slot rows => bytePairs false (glyphCommand c slot) ++ rows.toList.flatMap (bytePairs true)
  | .chNum row col v =>
    bytePairs false (cursorCommand c row col) ++ (numberCodes v).flatMap (bytePairs true)
  | .i2cStart | .i2cStop | .i2cWrb _ | .i2cXfer _ _ | .oledCmd _ | .oledDat _ | .oledInit => []
  | .pxClear | .pxClrpg _ | .pxSetpos _ _ | .pxBlit _ _ _ | .pxNum _ _ _ => []

/-- A transaction of one payload byte on the command stream, for each byte (R141). -/
def commandTransfers (c : Config) (bs : List Byte) : List (List Byte) :=
  bs.map fun b => [c.i2cAddr, c.ctlCmd, b]

/-- A transaction of one payload byte on the data stream, for each byte (R142). -/
def dataTransfers (c : Config) (bs : List Byte) : List (List Byte) :=
  bs.map fun b => [c.i2cAddr, c.ctlDat, b]

/-- The transactions of a blit (R184). -/
def blitTransfers (c : Config) (x page : Byte) (sprite : Bytes8) : List (List Byte) :=
  commandTransfers c (setposBytes c x page) ++ dataTransfers c sprite.toList

/-- The transactions of a page clear (R182). -/
def clearPageTransfers (c : Config) (page : Byte) : List (List Byte) :=
  commandTransfers c (setposBytes c 0#8 page) ++ dataTransfers c (List.replicate pxW 0x00#8)

/-- The transactions of the four blits of PX.NUM (R205). -/
def numberTransfers (c : Config) (x page : Byte) (v : Value) : List (List Byte) :=
  blitTransfers c x page (glyphOf c.digitFont (v.toNat / 1000)) ++
    blitTransfers c (x + 8#8) page (glyphOf c.digitFont (v.toNat / 100 % 10)) ++
    blitTransfers c (x + 16#8) page (glyphOf c.digitFont (v.toNat / 10 % 10)) ++
    blitTransfers c (x + 24#8) page (glyphOf c.digitFont (v.toNat % 10))

/-- One transaction `[I2C_ADDR, ctl, payload...]` for each OledXfer an accepted operation executes, in order (R143). -/
def transfers (c : Config) : Instr → List (List Byte)
  | .i2cXfer ctl p => [c.i2cAddr :: ctl :: p]
  | .oledCmd b => commandTransfers c [b]
  | .oledDat b => dataTransfers c [b]
  | .oledInit => commandTransfers c c.oledInitSeq
  | .pxClear => (List.range pages).flatMap fun p => clearPageTransfers c (BitVec.ofNat 8 p)
  | .pxClrpg page => clearPageTransfers c page
  | .pxSetpos x page => commandTransfers c (setposBytes c x page)
  | .pxBlit x page sprite => blitTransfers c x page sprite
  | .pxNum x page v => numberTransfers c x page v
  | .lcdInit | .lcdCmd _ | .lcdDat _ | .lcdNib _ => []
  | .chClear | .chSetcur _ _ | .chPutc _ | .chText _ | .chGlyph _ _ | .chNum _ _ _ => []
  | .i2cStart | .i2cStop | .i2cWrb _ => []

/-- The operations made of whole transactions (R145). -/
def isComposed : Instr → Bool
  | .i2cXfer _ _ | .oledCmd _ | .oledDat _ | .oledInit => true
  | .pxClear | .pxClrpg _ | .pxSetpos _ _ | .pxBlit _ _ _ | .pxNum _ _ _ => true
  | .lcdInit | .lcdCmd _ | .lcdDat _ | .lcdNib _ => false
  | .chClear | .chSetcur _ _ | .chPutc _ | .chText _ | .chGlyph _ _ | .chNum _ _ _ => false
  | .i2cStart | .i2cStop | .i2cWrb _ => false

/-! ## Traces -/

/-- The levels after a list of events. -/
def linesAfter : Lines → List Event → Lines
  | l, [] => l
  | l, e :: es => linesAfter (l.apply e) es

/-- A write of the level the line already has, or a wait of 0 (R15, (1) and (2)). -/
def Event.silent (l : Lines) : Event → Bool
  | .nib v => v == l.nib
  | .rs v => v == l.rs
  | .en v => v == l.en
  | .scl v => v == l.scl
  | .sda v => v == l.sda
  | .wait d => d == 0

/-- R15, (1) and (2). -/
def dropSilent : Lines → List Event → List Event
  | _, [] => []
  | l, e :: es => if e.silent l then dropSilent l es else e :: dropSilent (l.apply e) es

/-- An event put before a list whose adjacent waits are merged (R15, (3)). -/
def consEvent : Event → List Event → List Event
  | .wait a, .wait b :: es => .wait (a + b) :: es
  | e, es => e :: es

/-- R15, (3). -/
def mergeWaits (es : List Event) : List Event := es.foldr consEvent []

/-- The normal form of a trace from given line levels (R15). -/
def normalForm (l : Lines) (es : List Event) : List Event := mergeWaits (dropSilent l es)

/-- The pair (`RS`, `NIB`) at a change of `EN` from 1 to 0 (R116). -/
def latchedAt (l : Lines) : Event → List (Bool × Nibble)
  | .en v => if l.en = true ∧ v = false then [(l.rs, l.nib)] else []
  | .nib _ | .rs _ | .scl _ | .sda _ | .wait _ => []

/-- The latched sequence (R116): the pairs at each change of `EN` from 1 to 0, in order. -/
def latched : Lines → List Event → List (Bool × Nibble)
  | _, [] => []
  | l, e :: es => latchedAt l e ++ latched (l.apply e) es

/-- The level of `SDA` at a rising edge of `SCL` (R59). -/
def clockedAt (l : Lines) : Event → List Bool
  | .scl v => if l.scl = false ∧ v = true then [l.sda] else []
  | .nib _ | .rs _ | .en _ | .sda _ | .wait _ => []

/-- The level of `SDA` at each rising edge of `SCL`, in order (R59, R138). -/
def clocked : Lines → List Event → List Bool
  | _, [] => []
  | l, e :: es => clockedAt l e ++ clocked (l.apply e) es

/-- Whether an event is a wait. -/
def Event.isWait : Event → Bool
  | .wait _ => true
  | .nib _ | .rs _ | .en _ | .scl _ | .sda _ => false

/-- The sum of the wait lower bounds, in microseconds (R263). -/
def waitSum (es : List Event) : Nat :=
  (es.map fun e => match e with | .wait d => d | _ => 0).sum

/-! ## Transactions -/

/-- The receiver view being built (R143). -/
structure BusView where
  /-- a start condition was seen and no stop condition since -/
  opened : Bool
  /-- the bits since the last whole byte -/
  bits : List Bool
  /-- the whole bytes of the open transaction -/
  bytes : List Byte
  /-- the transactions closed by a stop condition, oldest first -/
  closed : List (List Byte)
deriving DecidableEq, Repr

/-- Nothing seen yet on a bus that is not open. -/
def BusView.empty : BusView := ⟨false, [], [], []⟩

/-- One event of R59, for the list of transactions alone. -/
def BusView.observe (l : Lines) (e : Event) (v : BusView) : BusView :=
  match e with
  | .sda b =>
    if l.scl = true ∧ l.sda = true ∧ b = false then { v with opened := true, bits := [], bytes := [] }
    else if l.scl = true ∧ l.sda = false ∧ b = true then
      if v.opened then ⟨false, [], [], v.closed ++ [v.bytes]⟩ else v
    else v
  | .scl b =>
    if l.scl = false ∧ b = true ∧ v.opened = true then
      let bits := v.bits ++ [l.sda]
      if bits.length = 9 then { v with bits := [], bytes := v.bytes ++ [byteOfBits bits] }
      else { v with bits := bits }
    else v
  | _ => v

/-- The receiver view after a list of events. -/
def BusView.run : Lines → List Event → BusView → BusView
  | _, [], v => v
  | l, e :: es, v => BusView.run (l.apply e) es (v.observe l e)

/-- The decoded transactions of a trace, from given line levels and a bus that is not open (R143). -/
def transactions (l : Lines) (es : List Event) : List (List Byte) :=
  (BusView.run l es .empty).closed

/-! ## The picture -/

/-- The code shown in the visible cell `(row, col)` (R53, R72). -/
def State.cell (s : State) (row col : Byte) : Tracked Byte :=
  Memory.read s.lcd.ddram ((cellAddr s.cfg row col &&& 0x7F#8).toNat)

/-- Row `r` of glyph `slot` (R54). -/
def State.glyphRow (s : State) (slot r : Nat) : Tracked Byte :=
  Memory.read s.lcd.cgram (8 * slot + r)

/-- `GDDRAM[page][x]` (R55). -/
def State.column (s : State) (page x : Nat) : Tracked Byte :=
  Memory.read s.px.gddram (gddramAddr page x)

/-- Bit `i` of a byte that is specified or not. -/
def trackedBit (i : Nat) : Tracked Byte → Tracked Bool
  | .unspecified => .unspecified
  | .is b => .is (b.getLsbD i)

/-- Pixel `(x, y)`: bit `y % 8` of `GDDRAM[y / 8][x]`, lit when it is 1 (R55, R73). -/
def State.pixel (s : State) (x y : Nat) : Tracked Bool := trackedBit (y % 8) (s.column (y / 8) x)

/-- Pixel `k` from the left, 0 to 4, of row `r` of glyph `slot`: bit 4 is the leftmost (R54, R167). -/
def State.glyphPixel (s : State) (slot r k : Nat) : Tracked Bool := trackedBit (4 - k) (s.glyphRow slot r)

/-- Pixel `k` from the left of row `r` of what the cell `(row, col)` shows, a dark pixel when it is true: a cell whose
code is 0 to 7 shows the glyph of that slot (R54, R93, R164). The shape of any other code is not in the shadow
memories (93_implementation_defined.md U20), so its pixels are unspecified. -/
def State.shownPixel (s : State) (row col : Byte) (r k : Nat) : Tracked Bool :=
  match s.cell row col with
  | .is code => if code.toNat ≤ 7 then s.glyphPixel code.toNat r k else .unspecified
  | .unspecified => .unspecified

/-- The byte on the serial bus once its eighth bit is in, from the eighth rising edge of `SCL` (R76) to the ninth, at which
the receiver takes it (R59). -/
def PixelRx.heardByte (p : PixelRx) : Option Byte :=
  if p.bits.length = 8 then some (byteOfBits p.bits) else none

/-! ## Reading a number back (R209) -/

/-- The value of a list of decimal digits, most significant first. -/
def decimalValue (ds : List Nat) : Nat := ds.foldl (fun acc d => 10 * acc + d) 0

/-- The digit whose font entry is the block (R209 (b)). -/
def digitOf (f : DigitFont) (block : Bytes8) : Option Nat :=
  f.toList.findIdx? (fun g => g == block)

end Sys2Proof.Machine
end

