-- ==== Sys2Proof/Safety.lean ====
section
/-!
DEFINITION. What counts as a safe run and as a well-formed state: the end of a run (10_state.md R24, 60_exceptions.md
R227), and the invariant every step keeps.
-/

namespace Sys2Proof.Machine

/-- The run is over and no request was refused (R24, R227). -/
abbrev State.final (s : State) : Prop := s.pc = s.req.length ∧ s.refused = none

/-- No request of the run was refused (R40). -/
abbrev State.running (s : State) : Prop := s.refused = none

/-- The character receiver is as the rules leave it: what R56 says of each transfer mode, the spaces of R53 and R54, and
the 6-bit pointer of R35. -/
structure CharRx.Inv (c : CharRx) : Prop where
  legacy_le : c.legacyCnt ≤ 3
  unknown_legacy : c.ifMode = .unknown → c.legacyCnt < 3
  unknown_ac : c.ifMode = .unknown → c.ac = .unspecified ∧ c.acSel = .unspecified
  unknown_half : c.ifMode = .unknown → c.hiNib = .unspecified ∧ c.hiRs = .unspecified
  unknown_cfg : c.ifMode = .unknown → c.chCfg = .unspecified
  unknown_mem : c.ifMode = .unknown → c.ddram = Memory.lost ∧ c.cgram = Memory.lost
  half_byte : c.ifMode = .if4Lo → c.hiNib.specified = true ∧ c.hiRs.specified = true
  ac_with_sel : c.acSel.specified = c.ac.specified
  cgram_ac : c.acSel = .is .cgram → ∀ a, c.ac = .is a → a.toNat < 64
  ddram_wf : Memory.wf 128 c.ddram
  cgram_wf : Memory.wf 64 c.cgram
  cgram_five_bits : ∀ x ∈ c.cgram, x.2.toNat < 32

/-- The pixel receiver is as the rules leave it: fewer than nine bits held and only inside a transaction (R59), what R60
says of each place in a transaction, and the space of R55. -/
structure PixelRx.Inv (p : PixelRx) : Prop where
  bits_lt : p.bits.length < 9
  bits_open : p.busCond ≠ .opened → p.bits = []
  control_addressed : p.phase = .control → p.addressed = .is true
  payload_addressed : p.phase = .payload → p.addressed = .is true ∧ p.stream.specified = true
  sync_on : p.pxSync = true → p.pxOn.specified = true
  gddram_wf : Memory.wf 1024 p.gddram

/-- The invariant of the machine. -/
structure State.Inv (s : State) : Prop where
  pc_le : s.pc ≤ s.req.length
  mark_pc : ∀ m, s.refused = some m → m.pc = s.pc
  lcd : s.lcd.Inv
  px : s.px.Inv

/-! ## Runs -/

/-- `n` steps, ending early where one does not answer a next state. -/
def runFor : Nat → State → Host.Outcome State Fault Refusal
  | 0, s => .next s
  | n + 1, s =>
    match step s with
    | .next t => runFor n t
    | .fault f => .fault f
    | .refused r => .refused r

/-- The operations of a list one after the other, each from the state the one before leaves. -/
def execAll : List Instr → State → Host.Outcome State Fault Refusal
  | [], s => .next s
  | i :: is, s =>
    match exec i s with
    | .next t => execAll is t
    | .fault f => .fault f
    | .refused r => .refused r

/-! ## What a statement may ask of a state -/

/-- An operation is accepted: it answers a next state with its events in the trace, `pc` past the request and the
refusal mark as it was (R24, R88). -/
abbrev Accepts (s : State) (i : Instr) : Prop :=
  ∃ t, exec i s = .next t ∧ t.refused = s.refused ∧ t.pc = s.pc + i.length ∧
    t.trace = s.trace ++ wireEvents s.cfg i

/-- An operation is refused with `BadOperand`: nothing changes but the mark (R88, R221). -/
abbrev RefusesOperand (s : State) (i : Instr) : Prop :=
  exec i s = .next { s with refused := some ⟨.badOperand, s.pc⟩ }

/-- The command values of a build tell its commands apart: the four plain commands differ, the two address commands leave
the address bits free (R6), no plain command is an address command, and the two address ranges do not meet. The
defaults are such values. -/
abbrev CommandsLegal (c : Config) : Prop :=
  let plain := [c.cmdClear, c.cmdEntry, c.cmdDispon, c.cmdFuncset]
  plain.Nodup ∧ c.cmdCgram &&& 0x3F#8 = 0#8 ∧ c.cmdDdram &&& 0x7F#8 = 0#8 ∧
    (∀ b ∈ plain, isAddress c.cmdCgram 0x3F#8 b = false ∧ isAddress c.cmdDdram 0x7F#8 b = false) ∧
    isAddress c.cmdDdram 0x7F#8 c.cmdCgram = false

/-- The receiver's position rows match the build's `PX_SETPOS` (R60): the bytes of every position set its page and its
column, whatever the position was before them. The default has them (R181). -/
abbrev SetposMatched (c : Config) : Prop :=
  ∀ x < 128, ∀ page < 8, positionsOf c (setposBytes c (BitVec.ofNat 8 x) (BitVec.ofNat 8 page)) =
    some ⟨some (BitVec.ofNat 3 page), some (BitVec.ofNat 4 x), some (BitVec.ofNat 3 (x / 16))⟩

/-- The wire bytes the pixel receiver tells apart are told apart: the two control bytes differ (R60, R95), and the position
rows match. -/
abbrev PixelLegal (c : Config) : Prop := c.ctlCmd ≠ c.ctlDat ∧ SetposMatched c

/-- The character receiver pairs nibbles, in a build with legal command values (R34). -/
abbrev State.charPaired (s : State) : Prop := CommandsLegal s.cfg ∧ s.lcd.ifMode = .if4Hi

/-- The character receiver is synchronised, in left-to-right entry (R209), and knows every flag (R58). -/
abbrev State.charReady (s : State) : Prop :=
  s.charPaired ∧ s.lcd.chCfg.leftToRight = true ∧ s.lcd.chCfg.known = true

/-- The pixel receiver is synchronised (R209), in a build with matching position rows, and it does not hold the eight bits
of an accidental byte (R138). -/
abbrev State.pixelReady (s : State) : Prop :=
  PixelLegal s.cfg ∧ s.px.pxSync = true ∧ s.px.bits.length < 8

/-! ## Frames -/

/-- What an operation of the parallel bus leaves: the parameters, the mark, the serial lines and the pixel receiver
(R31, R51). -/
abbrev ParallelFrame (s t : State) : Prop :=
  t.cfg = s.cfg ∧ t.req = s.req ∧ t.refused = s.refused ∧ t.lines.scl = s.lines.scl ∧
    t.lines.sda = s.lines.sda ∧ t.px = s.px

/-- What an operation of the serial bus leaves: the parameters, the mark, the parallel lines and the character receiver
(R31, R51). -/
abbrev SerialFrame (s t : State) : Prop :=
  t.cfg = s.cfg ∧ t.req = s.req ∧ t.refused = s.refused ∧ t.lines.nib = s.lines.nib ∧
    t.lines.rs = s.lines.rs ∧ t.lines.en = s.lines.en ∧ t.lcd = s.lcd

/-- The serial bus is idle and the receiver sees it so (R130, R132). -/
abbrev State.busIdle (s : State) : Prop :=
  s.lines.scl = true ∧ s.lines.sda = true ∧ s.px.busCond = .idle ∧ s.px.bits = []

end Sys2Proof.Machine
end

