-- ==== Sys2Proof/Certificates/Slice0/Obligations.lean ====
section
/-!
DEFINITION. The statements for the provers, in the order of the spec's files. Each holds for every configuration and
every state that meets its hypotheses, whether or not a run reaches it. `encode`, `wireEvents`, `strobePairs` and
`transfers` are the reader's views of an operation (Decode.lean, Machine/Observe.lean).
-/

open Sys2Proof Sys2Proof.Machine

/-! ## Encoding (30_encoding.md) -/

/-- R81, R83, R84, R86: every request with a payload its count byte can hold is decoded from its own bytes, with every
operand at every value, and decode stops at its last byte. -/
def Obligations.DecodeOfEncodeIsTheRequest : Prop :=
  ∀ (i : Instr) (rest : List Byte), i.encodable = true → decode (encode i ++ rest) = .ok (i, rest)

/-- R80, R81, R86: the bytes decode takes are the encoding of what it gives, so no two requests share their bytes and
no byte is skipped. -/
def Obligations.DecodedBytesAreTheEncoding : Prop :=
  ∀ (bs rest : List Byte) (i : Instr), decode bs = .ok (i, rest) →
    bs = encode i ++ rest ∧ (encode i).length = i.length ∧ i.encodable = true

/-- Words of the spec's own examples (R97, R113, R140, R162, R184, R203, R205). -/
def Obligations.SpecWordsDecode : Prop :=
  decode [0x11#8, 0x28#8] = .ok (.lcdCmd 0x28#8, []) ∧
  decode [0x13#8, 0x03#8] = .ok (.lcdNib 0x03#8, []) ∧
  decode [0x23#8, 0x00#8, 0x02#8, 0xAE#8, 0xAF#8] = .ok (.i2cXfer 0x00#8 [0xAE#8, 0xAF#8], []) ∧
  decode [0x31#8, 0x02#8, 0x05#8] = .ok (.chSetcur 2#8 5#8, []) ∧
  decode [0x33#8, 0x02#8, 0x48#8, 0x49#8] = .ok (.chText [0x48#8, 0x49#8], []) ∧
  decode [0x34#8, 0x01#8, 0x0E#8, 0x1F#8, 0x15#8, 0x1F#8, 0x0E#8, 0x0A#8, 0x0A#8, 0x00#8] =
    .ok (.chGlyph 1#8 ⟨0x0E#8, 0x1F#8, 0x15#8, 0x1F#8, 0x0E#8, 0x0A#8, 0x0A#8, 0x00#8⟩, []) ∧
  decode [0x35#8, 0x00#8, 0x0C#8, 0xD2#8, 0x04#8] = .ok (.chNum 0#8 12#8 1234#16, []) ∧
  decode [0x43#8, 0x10#8, 0x06#8, 0xFF#8, 0x81#8, 0x81#8, 0x81#8, 0x81#8, 0x81#8, 0x81#8, 0xFF#8] =
    .ok (.pxBlit 16#8 6#8 ⟨0xFF#8, 0x81#8, 0x81#8, 0x81#8, 0x81#8, 0x81#8, 0x81#8, 0xFF#8⟩, []) ∧
  decode [0x44#8, 0x60#8, 0x00#8, 0x2A#8, 0x00#8] = .ok (.pxNum 96#8 0#8 42#16, [])

/-- R84: the value of a number request is its fourth byte plus 256 times its fifth, and its position operands are the
bytes as they stand. -/
def Obligations.NumberValueIsLowByteFirst : Prop :=
  ∀ (a b lo hi : Byte) (rest : List Byte), ∃ v w : Value,
    decode (0x35#8 :: a :: b :: lo :: hi :: rest) = .ok (.chNum a b v, rest) ∧
    decode (0x44#8 :: a :: b :: lo :: hi :: rest) = .ok (.pxNum a b w, rest) ∧
    v = lo.zeroExtend 16 ||| (hi.zeroExtend 16 <<< 8) ∧ w = v ∧ v.toNat = lo.toNat + 256 * hi.toNat

/-- R87: a request whose first byte is reserved is refused with `BadOpcode` before any event, whatever follows it, and
no other opcode byte is. -/
def Obligations.ReservedOpcodeIsRefused : Prop :=
  ∀ (s : State) (op : Byte) (bs : List Byte), s.refused = none → s.req.drop s.pc = op :: bs →
    ((op.toNat ≤ 0x0F ∨ (0x14 ≤ op.toNat ∧ op.toNat ≤ 0x1F) ∨ (0x27 ≤ op.toNat ∧ op.toNat ≤ 0x2F) ∨
        (0x36 ≤ op.toNat ∧ op.toNat ≤ 0x3F) ∨ 0x45 ≤ op.toNat) ↔
      step s = .next { s with refused := some ⟨.badOpcode, s.pc⟩ })

/-- R90, and R224 for the order: a request of which at least the opcode and not all bytes are there is refused with
`Truncated` before any event, whatever its operands are. -/
def Obligations.TruncatedRequestIsRefused : Prop :=
  ∀ (s : State) (i : Instr) (n : Nat), s.refused = none → i.encodable = true → 0 < n → n < i.length →
    s.req.drop s.pc = (encode i).take n →
      step s = .next { s with refused := some ⟨.truncated, s.pc⟩ }

/-- R88 row by row: inside the ranges a request is accepted, outside it is refused with `BadOperand` and nothing else
changes; every other request is accepted whatever its operands are. -/
def Obligations.OperandRangesDecideAcceptance : Prop :=
  ∀ s : State,
    (∀ a, (a.extractLsb' 5 3 = 0#3 → Accepts s (.lcdNib a)) ∧
      (a.extractLsb' 5 3 ≠ 0#3 → RefusesOperand s (.lcdNib a))) ∧
    (∀ row col, (row.toNat ≤ 3 ∧ col.toNat ≤ s.cfg.cols.count - 1 → Accepts s (.chSetcur row col)) ∧
      (¬ (row.toNat ≤ 3 ∧ col.toNat ≤ s.cfg.cols.count - 1) → RefusesOperand s (.chSetcur row col))) ∧
    (∀ row col v, (row.toNat ≤ 3 ∧ col.toNat ≤ s.cfg.cols.count - 1 → Accepts s (.chNum row col v)) ∧
      (¬ (row.toNat ≤ 3 ∧ col.toNat ≤ s.cfg.cols.count - 1) → RefusesOperand s (.chNum row col v))) ∧
    (∀ slot rows, (slot.toNat ≤ 7 → Accepts s (.chGlyph slot rows)) ∧
      (¬ slot.toNat ≤ 7 → RefusesOperand s (.chGlyph slot rows))) ∧
    (∀ page, (page.toNat ≤ 7 → Accepts s (.pxClrpg page)) ∧
      (¬ page.toNat ≤ 7 → RefusesOperand s (.pxClrpg page))) ∧
    (∀ x page, (x.toNat ≤ 127 ∧ page.toNat ≤ 7 → Accepts s (.pxSetpos x page)) ∧
      (¬ (x.toNat ≤ 127 ∧ page.toNat ≤ 7) → RefusesOperand s (.pxSetpos x page))) ∧
    (∀ x page p, (x.toNat ≤ 120 ∧ page.toNat ≤ 7 → Accepts s (.pxBlit x page p)) ∧
      (¬ (x.toNat ≤ 120 ∧ page.toNat ≤ 7) → RefusesOperand s (.pxBlit x page p))) ∧
    (∀ x page v, (x.toNat ≤ 96 ∧ page.toNat ≤ 7 ∧ v.toNat ≤ 9999 → Accepts s (.pxNum x page v)) ∧
      (¬ (x.toNat ≤ 96 ∧ page.toNat ≤ 7 ∧ v.toNat ≤ 9999) → RefusesOperand s (.pxNum x page v))) ∧
    (∀ b, Accepts s (.lcdCmd b) ∧ Accepts s (.lcdDat b) ∧ Accepts s (.i2cWrb b) ∧ Accepts s (.oledCmd b) ∧
      Accepts s (.oledDat b) ∧ Accepts s (.chPutc b)) ∧
    (∀ ctl p, Accepts s (.i2cXfer ctl p) ∧ Accepts s (.chText p)) ∧
    Accepts s .lcdInit ∧ Accepts s .i2cStart ∧ Accepts s .i2cStop ∧ Accepts s .oledInit ∧ Accepts s .chClear ∧
    Accepts s .pxClear

/-! ## Steps, runs and the trace (10_state.md, 20_memory.md, 60_exceptions.md) -/

/-- R23, R222: where the run is not over and no request was refused, a step is the operation that the bytes at `pc`
decode to, from this very state. -/
def Obligations.StepRunsTheDecodedRequest : Prop :=
  ∀ (s : State) (i : Instr) (rest : List Byte), s.refused = none → s.pc ≠ s.req.length →
    decode (s.req.drop s.pc) = .ok (i, rest) → step s = exec i s

/-- R24, R40: a step stops exactly at the end of an unrefused run and in a refused state. The names of the two stops are
the model's (log 7, log 8). -/
def Obligations.StepStopsOnlyAtTheEndOrAfterARefusal : Prop :=
  ∀ s : State,
    (∀ f, step s = .fault f ↔ s.refused = none ∧ s.pc = s.req.length ∧ f = .runOver) ∧
    (∀ r, step s = .refused r ↔ ∃ m, s.refused = some m ∧ r = .requestRefused m)

/-- R24, R100: a step that refuses nothing moves `pc` by the length of the request it decoded, never past the end. -/
def Obligations.PcMovesByTheRequestLength : Prop :=
  ∀ s t : State, step s = .next t → t.refused = none →
    ∃ i rest, decode (s.req.drop s.pc) = .ok (i, rest) ∧ t.pc = s.pc + i.length ∧
      t.req.drop t.pc = rest ∧ t.pc ≤ t.req.length

/-- R221, R222, R224: a step that refuses changes nothing but the mark, which holds `pc` and the first code that
applies, and no later step happens. -/
def Obligations.RefusalIsPrecise : Prop :=
  ∀ s t : State, step s = .next t → t.refused ≠ none →
    ∃ code, t = { s with refused := some ⟨code, s.pc⟩ } ∧
      (code = .badOpcode ↔ decode (s.req.drop s.pc) = .error .badOpcode) ∧
      (code = .truncated ↔ decode (s.req.drop s.pc) = .error .truncated) ∧
      (code = .badOperand ↔
        ∃ i rest, decode (s.req.drop s.pc) = .ok (i, rest) ∧ i.inRange s.cfg.cols = false) ∧
      step t = .refused (.requestRefused ⟨code, s.pc⟩)

/-- R24, R75, R227: a stream of well-formed requests runs to its end, and the trace is their events in request order. -/
def Obligations.WellFormedProgramRunsToItsEnd : Prop :=
  ∀ (s : State) (prog : List Instr) (before : List Byte), s.refused = none →
    (∀ i ∈ prog, i.wellFormed s.cfg.cols = true) → s.req = before ++ prog.flatMap encode →
    s.pc = before.length →
      ∃ t, runFor prog.length s = .next t ∧ t.final ∧ t.cfg = s.cfg ∧ t.req = s.req ∧
        t.trace = s.trace ++ prog.flatMap (wireEvents s.cfg)

/-- R227: every run ends, after at most as many steps as bytes are left, at the end of the stream or with a refused
request, and not both. -/
def Obligations.EveryRunEnds : Prop :=
  ∀ s : State, s.pc ≤ s.req.length →
    ∃ n t, n ≤ s.req.length - s.pc ∧ runFor n s = .next t ∧ (t.final ∨ t.refused ≠ none) ∧
      ¬ (t.final ∧ t.refused ≠ none)

/-- R26 to R31, R39, R50, R51: a step only appends to the trace, each line then has the last level written to it, and the
configuration, the font in it and the request stream never change. -/
def Obligations.StepOnlyAppendsToTheTrace : Prop :=
  ∀ s t : State, step s = .next t →
    (∃ es, t.trace = s.trace ++ es ∧ t.lines = linesAfter s.lines es) ∧ t.cfg = s.cfg ∧ t.req = s.req

/-- R25, R51, R70, R117, R144: nothing the block does depends on the receivers or on the trace so far. -/
def Obligations.ReceiversAreNeverRead : Prop :=
  ∀ (s t : State) (c : CharRx) (p : PixelRx) (tr : List Event), step s = .next t →
    ∃ es u, step { s with lcd := c, px := p, trace := tr } = .next u ∧ t.trace = s.trace ++ es ∧
      u.trace = tr ++ es ∧ u.lines = t.lines ∧ u.pc = t.pc ∧ u.refused = t.refused ∧ u.cfg = t.cfg ∧
      u.req = t.req

/-- R31, R82: an operation of group 0x1n or 0x3n leaves the serial lines and the pixel controller, one of group 0x2n or
0x4n the parallel lines and the character controller, and every operation is in one of the four groups. -/
def Obligations.BackendsAreIndependent : Prop :=
  ∀ (i : Instr) (s t : State) (op : Byte), (encode i).head? = some op → exec i s = .next t →
    (op.extractLsb' 4 4 = 1#4 ∨ op.extractLsb' 4 4 = 3#4 →
      t.lines.scl = s.lines.scl ∧ t.lines.sda = s.lines.sda ∧ t.px = s.px) ∧
    (op.extractLsb' 4 4 = 2#4 ∨ op.extractLsb' 4 4 = 4#4 →
      t.lines.nib = s.lines.nib ∧ t.lines.rs = s.lines.rs ∧ t.lines.en = s.lines.en ∧ t.lcd = s.lcd) ∧
    (op.extractLsb' 4 4 = 1#4 ∨ op.extractLsb' 4 4 = 2#4 ∨ op.extractLsb' 4 4 = 3#4 ∨
      op.extractLsb' 4 4 = 4#4)

/-- R15, R56, R59, R76: the receivers, the lines, the latched sequence and the transactions are the same for a list of
events and for its normal form. -/
def Obligations.NormalFormIsAllTheReceiversSee : Prop :=
  ∀ (s : State) (es : List Event),
    (emitAll (normalForm s.lines es) s).lines = (emitAll es s).lines ∧
    (emitAll (normalForm s.lines es) s).lcd = (emitAll es s).lcd ∧
    (emitAll (normalForm s.lines es) s).px = (emitAll es s).px ∧
    latched s.lines (normalForm s.lines es) = latched s.lines es ∧
    transactions s.lines (normalForm s.lines es) = transactions s.lines es

/-- Every step keeps the invariant of Safety.lean, from every state that meets it (R24, R35, R40, R53 to R56, R58 to
R60). -/
def Obligations.StepKeepsTheInvariant : Prop :=
  ∀ s t : State, s.Inv → step s = .next t → t.Inv

/-- The invariant holds right after power-up, of every build, at every line level, and in `State.reset`. -/
def Obligations.PowerUpMeetsTheInvariant : Prop :=
  (∀ (cfg : Config) (req : List Byte) (l : Lines), (State.powerUp cfg req l).Inv) ∧ State.reset.Inv

/-- R37, R43, R44: what power-up leaves, at every line level. `unspecified` is the receiver's own mark (log 5). -/
def Obligations.PowerUpValues : Prop :=
  ∀ (cfg : Config) (req : List Byte) (l : Lines),
    let s := State.powerUp cfg req l
    s.pc = 0 ∧ s.trace = [] ∧ s.refused = none ∧ s.lines = l ∧
    s.lcd.ifMode = .unknown ∧ s.lcd.legacyCnt = 0 ∧ s.px.pxSync = false ∧ s.px.bits = [] ∧
    s.lcd.hiNib = .unspecified ∧ s.lcd.hiRs = .unspecified ∧ s.lcd.ac = .unspecified ∧
    s.lcd.acSel = .unspecified ∧ s.lcd.chCfg.d = .unspecified ∧ s.lcd.chCfg.c = .unspecified ∧
    s.lcd.chCfg.b = .unspecified ∧ s.lcd.chCfg.n = .unspecified ∧ s.lcd.chCfg.f = .unspecified ∧
    s.lcd.chCfg.id = .unspecified ∧ s.lcd.chCfg.s = .unspecified ∧
    s.px.pxOn = .unspecified ∧ s.px.colPtr = .unspecified ∧ s.px.colLo = .unspecified ∧
    s.px.colHi = .unspecified ∧ s.px.pagePtr = .unspecified ∧ s.px.addressed = .unspecified ∧
    s.px.stream = .unspecified ∧
    (∀ a, Memory.read s.lcd.ddram a = .unspecified ∧ Memory.read s.lcd.cgram a = .unspecified ∧
      Memory.read s.px.gddram a = .unspecified) ∧
    (l.scl = true ∧ l.sda = true → s.px.busCond = .idle) ∧
    (¬ (l.scl = true ∧ l.sda = true) → s.px.busCond = .unspecified)

/-! ## The parallel driver (40_parallel_lcd_driver.md) -/

/-- R110, R113: LCD.NIB is one 4-bit transfer: its six events, the levels after it, and one latched pair. -/
def Obligations.LcdNibIsOneNibbleTransfer : Prop :=
  ∀ (a : Byte) (s : State), a.extractLsb' 5 3 = 0#3 →
    exec (.lcdNib a) s = .next
      { s with
        lines := { s.lines with nib := a.extractLsb' 0 4, rs := a.getLsbD 4, en := false }
        pc := s.pc + 2
        trace := s.trace ++
          [.nib (a.extractLsb' 0 4), .rs (a.getLsbD 4), .en true, .wait 5, .en false, .wait 1000]
        lcd := s.lcd.onStrobe s.cfg (a.getLsbD 4) (a.extractLsb' 0 4) }

/-- R112, R114, R115, R163: a byte is its high nibble and then its low nibble, with register select 0 for LCD.CMD and 1
for LCD.DAT and CH.PUTC; the twelve events, the levels after them, and everything left alone. -/
def Obligations.ByteIsHighNibbleThenLowNibble : Prop :=
  ∀ (b : Byte) (s : State) (i : Instr) (r : Bool),
    (i = .lcdCmd b ∧ r = false) ∨ (i = .lcdDat b ∧ r = true) ∨ (i = .chPutc b ∧ r = true) →
    exec i s = .next
      { s with
        lines := { s.lines with nib := b.extractLsb' 0 4, rs := r, en := false }
        pc := s.pc + 2
        trace := s.trace ++
          [.nib (b.extractLsb' 4 4), .rs r, .en true, .wait 5, .en false, .wait 1000,
           .nib (b.extractLsb' 0 4), .rs r, .en true, .wait 5, .en false, .wait 1000]
        lcd := (s.lcd.onStrobe s.cfg r (b.extractLsb' 4 4)).onStrobe s.cfg r (b.extractLsb' 0 4) }

/-- R116: whatever the levels before it, the latched sequence of a run of accepted requests is, in request order, one
pair for each LcdNibble executed. -/
def Obligations.LatchedSequenceIsOnePairPerNibble : Prop :=
  ∀ (c : Config) (l : Lines) (prog : List Instr),
    latched l (prog.flatMap (wireEvents c)) = prog.flatMap (strobePairs c)

/-- R253: wherever a run of accepted requests writes `NIB` or `RS`, `EN` is 0 (unless it came up at 1 and was not yet
strobed, R42), and a settle delay has passed since every fall of `EN` before it. -/
def Obligations.NibAndRsAreStableAroundTheStrobe : Prop :=
  ∀ (c : Config) (l : Lines) (prog : List Instr) (pre post : List Event) (e : Event),
    prog.flatMap (wireEvents c) = pre ++ e :: post → (∃ v, e = .nib v) ∨ (∃ v, e = .rs v) →
      (l.en = false ∨ (∃ v, .en v ∈ pre) → (linesAfter l pre).en = false) ∧
      ∀ pre₁ pre₂, pre = pre₁ ++ .en false :: pre₂ → .wait 1000 ∈ pre₂

/-- R118: LCD.INIT emits the source's sequence, with the lone switch nibble where the build has one; with the default
parameters its latched sequence is the twelve pairs and its waits sum to 36260, whatever the levels before it. -/
def Obligations.LcdInitSequence : Prop :=
  (∀ s : State, ∃ t, exec .lcdInit s = .next t ∧ t.pc = s.pc + 1 ∧ ParallelFrame s t ∧
    t.trace = s.trace ++
      ([.wait 20000] ++ lcdNibble false s.cfg.legacyNib ++ [.wait s.cfg.tInit1] ++
        lcdNibble false s.cfg.legacyNib ++ [.wait s.cfg.tInit2] ++ lcdNibble false s.cfg.legacyNib ++
        [.wait s.cfg.tInit3] ++ (s.cfg.fourbitNib.toList.flatMap (lcdNibble false)) ++
        lcdByte false s.cfg.cmdFuncset ++ lcdByte false s.cfg.cmdDispon ++ lcdByte false s.cfg.cmdEntry ++
        lcdByte false s.cfg.cmdClear)) ∧
  (∀ (c : Config) (l : Lines), c.charStandard → c.tInit1 = 4100 → c.tInit2 = 100 → c.tInit3 = 0 →
    latched l (wireEvents c .lcdInit) =
      [(false, 0x3#4), (false, 0x3#4), (false, 0x3#4), (false, 0x2#4), (false, 0x2#4), (false, 0x8#4),
       (false, 0x0#4), (false, 0xC#4), (false, 0x0#4), (false, 0x6#4), (false, 0x0#4), (false, 0x1#4)] ∧
    waitSum (wireEvents c .lcdInit) = 36260)

/-- R119, R120: with the default nibbles and any legal command values (log 10), none of which is the byte 0x33 of two
legacy nibbles, LCD.INIT leaves the character receiver in the same state from every state whatever, also from the middle
of a nibble pair and a second time; with the default values it leaves `NIB` at 0x1. The glyph memory is not made known
(log 26). -/
def Obligations.LcdInitFromAnyState : Prop :=
  ∀ s : State, CommandsLegal s.cfg → ownCommand s.cfg 0x33#8 = none → s.cfg.legacyNib = 0x3#4 →
    s.cfg.fourbitNib = some 0x2#4 →
    ∃ t, exec .lcdInit s = .next t ∧ ParallelFrame s t ∧
      t.lines.nib = s.cfg.cmdClear.extractLsb' 0 4 ∧ (s.cfg.charCommandsStandard → t.lines.nib = 0x1#4) ∧
      t.lines.rs = false ∧
      t.lines.en = false ∧ t.lcd.ifMode = .if4Hi ∧
      t.lcd.chCfg = ⟨.is true, .is false, .is false, .is true, .is false, .is true, .is false⟩ ∧
      t.lcd.acSel = .is .ddram ∧ t.lcd.ac = .is 0#7 ∧
      (∀ a < 128, Memory.read t.lcd.ddram a = .is 0x20#8) ∧
      (∀ a, Memory.read t.lcd.cgram a = Memory.read s.lcd.cgram a ∨
        Memory.read t.lcd.cgram a = .unspecified)

/-- R56: three latched pairs (0, 0x3) in a row bring the receiver to `if8`, whatever it was, in every build that has no
command of its own at 0x33, the byte two of them pair into (the default build has none; log 10). -/
def Obligations.ThreeLegacyStrobesForceEightBitMode : Prop :=
  ∀ s : State, ownCommand s.cfg 0x33#8 = none →
    ∃ t, execAll [.lcdNib 0x03#8, .lcdNib 0x03#8, .lcdNib 0x03#8] s = .next t ∧
    t.lcd.ifMode = .if8 ∧ ParallelFrame s t ∧ t.pc = s.pc + 6

/-- R57, R89: what a command byte does to a synchronised receiver with the default command values, row by row; the request
completes on every byte. Then, in every build with legal command values, what the build's own commands do (R6, R92; the
model's table for such a build, log 10), and that home stays. `LEGACYCNT`, which every strobe writes (R56), is the one
field the statement leaves open. -/
def Obligations.CommandByteTakesItsTableRow : Prop :=
  (∀ (s : State) (b : Byte), s.cfg.charCommandsStandard → s.lcd.ifMode = .if4Hi →
    ∃ t, exec (.lcdCmd b) s = .next t ∧ ParallelFrame s t ∧ t.pc = s.pc + 2 ∧
      let n := b.toNat
      let c := { s.lcd with
        legacyCnt := t.lcd.legacyCnt, hiNib := .is (b.extractLsb' 4 4), hiRs := .is false }
      (n = 0x01 →
        t.lcd = { c with ddram := Memory.fill 128 0x20#8, acSel := .is .ddram, ac := .is 0#7,
                         chCfg := { c.chCfg with id := .is true } }) ∧
      (n = 0x02 ∨ n = 0x03 → t.lcd = { c with acSel := .is .ddram, ac := .is 0#7 }) ∧
      (0x04 ≤ n ∧ n ≤ 0x07 →
        t.lcd = { c with chCfg := { c.chCfg with id := .is (b.getLsbD 1), s := .is (b.getLsbD 0) } }) ∧
      (0x08 ≤ n ∧ n ≤ 0x0F →
        t.lcd = { c with chCfg := { c.chCfg with
          d := .is (b.getLsbD 2), c := .is (b.getLsbD 1), b := .is (b.getLsbD 0) } }) ∧
      (0x20 ≤ n ∧ n ≤ 0x3F →
        t.lcd = { c with chCfg := { c.chCfg with n := .is (b.getLsbD 3), f := .is (b.getLsbD 2) },
                         ifMode := if b.getLsbD 4 then .if8 else .if4Hi }) ∧
      (0x40 ≤ n ∧ n ≤ 0x7F →
        t.lcd.ac = .is (BitVec.ofNat 7 (n % 64)) ∧ t.lcd = { c with acSel := .is .cgram, ac := t.lcd.ac }) ∧
      (0x80 ≤ n →
        t.lcd.ac = .is (BitVec.ofNat 7 (n % 128)) ∧ t.lcd = { c with acSel := .is .ddram, ac := t.lcd.ac }) ∧
      (n = 0x00 ∨ (0x10 ≤ n ∧ n ≤ 0x1F) →
        t.lcd = { c with ifMode := .unknown, hiNib := .unspecified, hiRs := .unspecified,
                         ac := .unspecified, acSel := .unspecified, chCfg := .unspecified,
                         ddram := Memory.lost, cgram := Memory.lost })) ∧
  (∀ (s : State) (b : Byte), s.charPaired →
    ∃ t, exec (.lcdCmd b) s = .next t ∧ ParallelFrame s t ∧ t.pc = s.pc + 2 ∧
      let c := { s.lcd with
        legacyCnt := t.lcd.legacyCnt, hiNib := .is (b.extractLsb' 4 4), hiRs := .is false }
      (b = s.cfg.cmdClear →
        t.lcd = { c with ddram := Memory.fill 128 0x20#8, acSel := .is .ddram, ac := .is 0#7,
                         chCfg := { c.chCfg with id := .is true } }) ∧
      (b = s.cfg.cmdEntry → t.lcd = { c with chCfg := { c.chCfg with id := .is true, s := .is false } }) ∧
      (b = s.cfg.cmdDispon →
        t.lcd = { c with chCfg := { c.chCfg with d := .is true, c := .is false, b := .is false } }) ∧
      (b = s.cfg.cmdFuncset → t.lcd = { c with chCfg := { c.chCfg with n := .is true, f := .is false } }) ∧
      (∀ a : Byte, a.toNat ≤ 0x3F → b = s.cfg.cmdCgram ||| a →
        t.lcd = { c with acSel := .is .cgram, ac := .is (BitVec.ofNat 7 a.toNat) }) ∧
      (∀ a : Byte, a.toNat ≤ 0x7F → b = s.cfg.cmdDdram ||| a →
        t.lcd = { c with acSel := .is .ddram, ac := .is (BitVec.ofNat 7 a.toNat) }) ∧
      (ownCommand s.cfg b = none → b = 0x02#8 ∨ b = 0x03#8 →
        t.lcd = { c with acSel := .is .ddram, ac := .is 0#7 }))

/-- R58: what a data byte, sent by LCD.DAT or CH.PUTC, does to a synchronised receiver: where it is stored and where
the address counter goes, with the jumps of the two-line layout; that both memories are lost where the place is not known
or a flag of `CHCFG` is not; and that nothing else of the receiver changes. An entry mode that is not known counts as not
left-to-right, and with another flag not known the address counter moves as ever (log 9). -/
def Obligations.DataByteIsStoredAtTheAddressCounter : Prop :=
  ∀ (s : State) (b : Byte) (i : Instr), i = .lcdDat b ∨ i = .chPutc b → s.lcd.ifMode = .if4Hi →
    ∃ t, exec i s = .next t ∧ ParallelFrame s t ∧ t.pc = s.pc + 2 ∧
      let c := { s.lcd with legacyCnt := 0, hiNib := .is (b.extractLsb' 4 4), hiRs := .is true }
      (¬ (s.lcd.chCfg.id = .is true ∧ s.lcd.chCfg.s = .is false) →
        t.lcd = { c with ifMode := .unknown, hiNib := .unspecified, hiRs := .unspecified,
                         ac := .unspecified, acSel := .unspecified, chCfg := .unspecified,
                         ddram := Memory.lost, cgram := Memory.lost }) ∧
      (s.lcd.chCfg.id = .is true ∧ s.lcd.chCfg.s = .is false →
        (∀ a, s.lcd.acSel = .is .ddram → s.lcd.ac = .is a →
          t.lcd.ac = .is (if a = 0x27#7 then 0x40#7 else if a = 0x67#7 then 0x00#7
            else BitVec.ofNat 7 ((a.toNat + 1) % 128)) ∧
          (s.lcd.chCfg.known = true →
            Memory.read t.lcd.ddram a.toNat = .is b ∧
            (∀ j, j ≠ a.toNat → Memory.read t.lcd.ddram j = Memory.read s.lcd.ddram j) ∧
            t.lcd = { c with ac := t.lcd.ac, ddram := t.lcd.ddram })) ∧
        (∀ a, s.lcd.acSel = .is .cgram → s.lcd.ac = .is a →
          t.lcd.ac = .is (BitVec.ofNat 7 ((a.toNat + 1) % 64)) ∧
          (s.lcd.chCfg.known = true →
            Memory.read t.lcd.cgram (a.toNat % 64) = .is (b &&& 0x1F#8) ∧
            (∀ j, j ≠ a.toNat % 64 → Memory.read t.lcd.cgram j = Memory.read s.lcd.cgram j) ∧
            t.lcd = { c with ac := t.lcd.ac, cgram := t.lcd.cgram })) ∧
        (s.lcd.acSel = .unspecified ∨ s.lcd.ac = .unspecified →
          t.lcd = { c with ddram := Memory.lost, cgram := Memory.lost }) ∧
        (s.lcd.chCfg.known = false →
          t.lcd = { c with ac := t.lcd.ac, ddram := Memory.lost, cgram := Memory.lost }))

/-- R255, R56: after a lone LCD.NIB at a synchronised receiver the next byte is split across two wrong pairs: a data byte
after a command nibble loses the receiver, and after a data nibble `n` the byte `n` with the data byte's high nibble is
stored and its low nibble is left waiting. -/
def Obligations.LoneNibbleShiftsThePairing : Prop :=
  ∀ (s : State) (a b : Byte), s.charReady → a.extractLsb' 5 3 = 0#3 →
    ∃ t u, exec (.lcdNib a) s = .next t ∧ exec (.lcdDat b) t = .next u ∧
      t.lcd.ifMode = .if4Lo ∧ t.lcd.hiNib = .is (a.extractLsb' 0 4) ∧ t.lcd.hiRs = .is (a.getLsbD 4) ∧
      t.lcd.ddram = s.lcd.ddram ∧ t.lcd.cgram = s.lcd.cgram ∧
      (a.getLsbD 4 = false → u.lcd.ifMode = .unknown ∧ u.lcd.ac = .unspecified ∧
        u.lcd.acSel = .unspecified ∧ u.lcd.chCfg = .unspecified ∧
        ∀ j, Memory.read u.lcd.ddram j = .unspecified ∧ Memory.read u.lcd.cgram j = .unspecified) ∧
      (a.getLsbD 4 = true → u.lcd.ifMode = .if4Lo ∧ u.lcd.hiNib = .is (b.extractLsb' 0 4) ∧
        ∀ p, s.lcd.acSel = .is .ddram → s.lcd.ac = .is p →
          Memory.read u.lcd.ddram p.toNat =
            .is (BitVec.ofNat 8 (16 * (a.extractLsb' 0 4).toNat + (b.extractLsb' 4 4).toNat)))

/-! ## The serial driver (41_i2c_master.md) -/

/-- R131: I2C.START makes a start condition from any line state; the receiver is open and holds no bit after it. A stray
bit taken on the way, when the bus was open and `SCL` was 0, is discarded unless it is the ninth (R59). -/
def Obligations.StartConditionFromAnyLineState : Prop :=
  ∀ s : State, ∃ t, exec .i2cStart s = .next t ∧ SerialFrame s t ∧ t.pc = s.pc + 1 ∧
    t.lines.scl = false ∧ t.lines.sda = false ∧
    t.trace = s.trace ++ [.sda true, .scl true, .wait s.cfg.tI2c, .sda false, .wait s.cfg.tI2c,
      .scl false, .wait s.cfg.tI2c] ∧
    t.px.busCond = .opened ∧ t.px.bits = [] ∧ t.px.phase = .first ∧
    (s.lines.scl = true ∨ s.px.busCond ≠ .opened ∨ s.px.bits.length ≠ 8 →
      t.px = { s.px with busCond := .opened, bits := [], phase := .first })

/-- R132: I2C.STOP leaves the bus idle from any line state, and delivers nothing to a receiver that does not hold eight
bits; on an idle bus it opens and closes an empty transaction. -/
def Obligations.StopConditionLeavesTheBusIdle : Prop :=
  ∀ s : State, ∃ t, exec .i2cStop s = .next t ∧ SerialFrame s t ∧ t.pc = s.pc + 1 ∧ t.busIdle ∧
    t.trace = s.trace ++ [.sda false, .wait s.cfg.tI2c, .scl true, .wait s.cfg.tI2c, .sda true,
      .wait s.cfg.tI2c] ∧
    (s.lines.scl = false → s.px.bits.length ≠ 8 → t.px = { s.px with busCond := .idle, bits := [] }) ∧
    (s.lines.scl = true → s.lines.sda = true →
      t.px = { s.px with busCond := .idle, bits := [], phase := .first })

/-- R133, R134, R135, R138: inside a transaction I2C.WRB clocks the eight bits, bit 7 first, then the ack slot with `SDA`
at 1, and the receiver takes the byte; the events are the same 54 whatever the bus is doing. The receiver has heard the
whole byte at the eighth rising edge and not before (R76), and takes it at the ninth (R59; log 27). -/
def Obligations.WriteByteClocksTheByte : Prop :=
  ∀ (s : State) (b : Byte), ∃ t, exec (.i2cWrb b) s = .next t ∧ SerialFrame s t ∧ t.pc = s.pc + 2 ∧
    t.lines.scl = false ∧ t.lines.sda = true ∧
    (∃ es, t.trace = s.trace ++ es ∧ es.length = 54 ∧
      es = ([b.getLsbD 7, b.getLsbD 6, b.getLsbD 5, b.getLsbD 4, b.getLsbD 3, b.getLsbD 2, b.getLsbD 1,
          b.getLsbD 0, true].flatMap fun v =>
        [.sda v, .wait s.cfg.tI2c, .scl true, .wait s.cfg.tI2c, .scl false, .wait s.cfg.tI2c]) ∧
      (s.lines.scl = false → clocked s.lines es =
        [b.getLsbD 7, b.getLsbD 6, b.getLsbD 5, b.getLsbD 4, b.getLsbD 3, b.getLsbD 2, b.getLsbD 1,
         b.getLsbD 0, true])) ∧
    (s.lines.scl = false → s.px.busCond = .opened → s.px.bits = [] →
      t.px = s.px.recvByte s.cfg b ∧
      ∃ pre post, i2cWriteByte s.cfg.tI2c b = pre ++ .scl true :: post ∧
        (clocked s.lines (pre ++ [.scl true])).length = 8 ∧ (emitAll pre s).px.heardByte = none ∧
        (emitAll (pre ++ [.scl true]) s).px.heardByte = some b ∧
        (emitAll (pre ++ [.scl true]) s).px = { s.px with bits := bitsOfByte b }) ∧
    (s.lines.scl = false → s.px.busCond ≠ .opened → t.px = s.px)

/-- R138, R258: I2C.WRB on the idle bus: a byte whose bit 7 is 1 is ignored; one whose bit 7 is 0 makes a start condition
by accident, and the receiver holds the other seven bits and the ack slot. -/
def Obligations.WriteByteOnTheIdleBus : Prop :=
  ∀ (s : State) (b : Byte), s.busIdle → ∃ t, exec (.i2cWrb b) s = .next t ∧ SerialFrame s t ∧
    (b.getLsbD 7 = true → t.px = s.px) ∧
    (b.getLsbD 7 = false →
      t.px = { s.px with
        busCond := .opened, phase := .first
        bits := [b.getLsbD 6, b.getLsbD 5, b.getLsbD 4, b.getLsbD 3, b.getLsbD 2, b.getLsbD 1,
          b.getLsbD 0, true] })

/-- R143: from any line levels, the receiver view of a run of composed operations is one transaction
`[I2C_ADDR, ctl, payload...]` for each OledXfer executed, in order, and nothing else. -/
def Obligations.TransactionsOfComposedOperations : Prop :=
  ∀ (c : Config) (l : Lines) (prog : List Instr), (∀ i ∈ prog, isComposed i = true) →
    transactions l (prog.flatMap (wireEvents c)) = prog.flatMap (transfers c)

/-- R139, R145: the primitives in the source's shape, start, address, control byte, payload, stop, do exactly what
I2C.XFER does, from any state; only the bytes the requests take differ. -/
def Obligations.PrimitivesComposeToTheTransaction : Prop :=
  ∀ (s : State) (ctl : Byte) (p : List Byte), ∃ t u,
    execAll (.i2cStart :: (s.cfg.i2cAddr :: ctl :: p).map Instr.i2cWrb ++ [.i2cStop]) s = .next t ∧
    exec (.i2cXfer ctl p) s = .next u ∧ u = { t with pc := u.pc } ∧
    t.pc = s.pc + 6 + 2 * p.length ∧ u.pc = s.pc + 3 + p.length

/-- R140, R142, R60: a data-stream byte, sent by OLED.DAT or by I2C.XFER, is stored at the write position, which moves on
by one column inside the page, from 127 to 0; without a known position or before OLED.INIT every byte of the panel memory
is lost. -/
def Obligations.DataStreamByteIsStoredAtTheWritePosition : Prop :=
  ∀ (s : State) (b : Byte) (i : Instr), i = .oledDat b ∨ i = .i2cXfer s.cfg.ctlDat [b] →
    s.cfg.ctlCmd ≠ s.cfg.ctlDat → s.px.bits.length < 8 →
    ∃ t, exec i s = .next t ∧ SerialFrame s t ∧ t.pc = s.pc + i.length ∧ t.busIdle ∧
      t.trace = s.trace ++ oledXfer s.cfg s.cfg.ctlDat [b] ∧
      t.px.pagePtr = s.px.pagePtr ∧ t.px.pxSync = s.px.pxSync ∧ t.px.pxOn = s.px.pxOn ∧
      t.px.addressed = .is true ∧ t.px.stream = .is .data ∧
      (∀ c g, s.px.pxSync = true → s.px.colPtr = .is c → s.px.pagePtr = .is g →
        t.px.colPtr = .is (BitVec.ofNat 7 ((c.toNat + 1) % 128)) ∧
        t.column g.toNat c.toNat = .is b ∧
        ∀ a, a ≠ 128 * g.toNat + c.toNat → Memory.read t.px.gddram a = Memory.read s.px.gddram a) ∧
      (s.px.pxSync = false ∨ s.px.colPtr = .unspecified ∨ s.px.pagePtr = .unspecified →
        ∀ a, Memory.read t.px.gddram a = .unspecified)

/-- R141, R60, R89: what a command-stream byte does, row by row, with the default position commands; the request
completes on every byte, and the panel memory is left alone. -/
def Obligations.CommandStreamByteTakesItsTableRow : Prop :=
  ∀ (s : State) (b : Byte) (i : Instr), i = .oledCmd b ∨ i = .i2cXfer s.cfg.ctlCmd [b] →
    s.cfg.pxSetpos = .standard → s.px.bits.length < 8 →
    ∃ t, exec i s = .next t ∧ SerialFrame s t ∧ t.pc = s.pc + i.length ∧ t.busIdle ∧
      t.trace = s.trace ++ oledXfer s.cfg s.cfg.ctlCmd [b] ∧
      let n := b.toNat
      let p := { s.px with
        busCond := .idle, bits := [], phase := .payload, addressed := .is true, stream := .is .command }
      (n ≤ 0x0F → t.px = { p with colLo := .is (BitVec.ofNat 4 n) }) ∧
      (0x10 ≤ n ∧ n ≤ 0x17 → t.px = { p with colHi := .is (BitVec.ofNat 3 (n % 8)) }) ∧
      (n = 0xAE → t.px = { p with pxOn := .is false }) ∧
      (n = 0xAF → t.px = { p with pxOn := .is true }) ∧
      (0xB0 ≤ n ∧ n ≤ 0xB7 → t.px = { p with pagePtr := .is (BitVec.ofNat 3 (n % 8)) }) ∧
      ((0x18 ≤ n ∧ n ≤ 0xAD) ∨ 0xB8 ≤ n →
        t.px = { p with pxSync := false, colLo := .unspecified, colHi := .unspecified,
                        pagePtr := .unspecified, pxOn := .unspecified })

/-- R140, R60: I2C.XFER with any other control byte is sent as it is, and the receiver loses its position, its mode and
its on state but no byte of the panel memory; with no payload the two header bytes are all it sends. -/
def Obligations.UnknownControlByteLosesThePosition : Prop :=
  ∀ (s : State) (ctl : Byte) (p : List Byte), ctl ≠ s.cfg.ctlCmd → ctl ≠ s.cfg.ctlDat →
    s.px.bits.length < 8 →
    ∃ t, exec (.i2cXfer ctl p) s = .next t ∧ SerialFrame s t ∧ t.pc = s.pc + 3 + p.length ∧ t.busIdle ∧
      t.trace = s.trace ++ oledXfer s.cfg ctl p ∧ (oledXfer s.cfg ctl p).length = 13 + 54 * (2 + p.length) ∧
      t.px = { s.px with
        busCond := .idle, bits := [], phase := .ignored, addressed := .is true
        pxSync := false, colLo := .unspecified, colHi := .unspecified, pagePtr := .unspecified
        pxOn := .unspecified }

/-- R140, R141, R142: one transaction with several payload bytes leaves the receiver as one transaction for each of them
does, on either stream. -/
def Obligations.TransactionFramingDoesNotMatter : Prop :=
  ∀ (s : State) (p : List Byte), s.cfg.ctlCmd ≠ s.cfg.ctlDat → s.px.bits.length < 8 → p ≠ [] →
    (∃ t u, exec (.i2cXfer s.cfg.ctlCmd p) s = .next t ∧ execAll (p.map Instr.oledCmd) s = .next u ∧
      t.px = u.px ∧ t.lines = u.lines) ∧
    (∃ t u, exec (.i2cXfer s.cfg.ctlDat p) s = .next t ∧ execAll (p.map Instr.oledDat) s = .next u ∧
      t.px = u.px ∧ t.lines = u.lines)

/-- R150, R153, R154: OLED.INIT sends each byte of the sequence in a transaction of its own, for any sequence; if
there is one, the bus is idle after it. The receiver is synchronised and on, its position is not known, and the panel
memory is unchanged. -/
def Obligations.OledInitAsAWhole : Prop :=
  ∀ s : State, ∃ t, exec .oledInit s = .next t ∧ SerialFrame s t ∧ t.pc = s.pc + 1 ∧
    t.trace = s.trace ++ s.cfg.oledInitSeq.flatMap (fun b => oledXfer s.cfg s.cfg.ctlCmd [b]) ∧
    t.px.pxSync = true ∧ t.px.pxOn = .is true ∧ t.px.colPtr = .unspecified ∧
    t.px.colLo = .unspecified ∧ t.px.colHi = .unspecified ∧ t.px.pagePtr = .unspecified ∧
    t.px.gddram = s.px.gddram ∧ (s.cfg.oledInitSeq ≠ [] → t.busIdle)

/-! ## The character surface (42_char_surface.md) -/

/-- R161: CH.CLEAR at a receiver that pairs nibbles: every cell is a space, the address counter is at cell (0, 0), the
entry mode increments, and the glyph memory and the other flags are not touched. -/
def Obligations.ClearMakesEveryCellASpace : Prop :=
  ∀ s : State, s.charPaired → ∃ t, exec .chClear s = .next t ∧ ParallelFrame s t ∧ t.pc = s.pc + 1 ∧
    t.trace = s.trace ++ lcdByte false s.cfg.cmdClear ∧
    (∀ a < 128, Memory.read t.lcd.ddram a = .is 0x20#8) ∧ t.lcd.acSel = .is .ddram ∧ t.lcd.ac = .is 0#7 ∧
    t.lcd.chCfg = { s.lcd.chCfg with id := .is true } ∧ t.lcd.cgram = s.lcd.cgram ∧ t.charPaired

/-- R160, R162: CH.SETCUR at a receiver that pairs nibbles sends the address of the cell and points the controller at it,
for every legal set of row offsets and command values; nothing is stored. -/
def Obligations.SetCursorSelectsTheCell : Prop :=
  ∀ (s : State) (row col : Byte), s.charPaired → s.cfg.rowsLegal → row.toNat ≤ 3 →
    col.toNat ≤ s.cfg.cols.count - 1 →
    ∃ t, exec (.chSetcur row col) s = .next t ∧ ParallelFrame s t ∧ t.pc = s.pc + 3 ∧
      (rowBaseAt s.cfg.rowBase row).toNat + col.toNat ≤ 0x7F ∧
      t.trace = s.trace ++ lcdByte false
        (s.cfg.cmdDdram ||| BitVec.ofNat 8 ((rowBaseAt s.cfg.rowBase row).toNat + col.toNat)) ∧
      t.lcd.acSel = .is .ddram ∧
      t.lcd.ac = .is (BitVec.ofNat 7 ((rowBaseAt s.cfg.rowBase row).toNat + col.toNat)) ∧
      t.lcd.ddram = s.lcd.ddram ∧ t.lcd.cgram = s.lcd.cgram ∧ t.lcd.chCfg = s.lcd.chCfg ∧ t.charPaired

/-- R165, R58, R72: CH.TEXT stores its characters in string order along the controller's address order from the address
counter on, and no other byte changes (eighty is the length of that order). In that order, with the default row offsets
of either width, row 2 continues row 0 and row 3 continues row 1. -/
def Obligations.TextIsStoredInAddressOrder : Prop :=
  (∀ (s : State) (p : List Byte) (a : BitVec 7), s.charReady → s.lcd.acSel = .is .ddram →
    s.lcd.ac = .is a → p.length ≤ 80 →
    ∃ t, exec (.chText p) s = .next t ∧ ParallelFrame s t ∧ t.pc = s.pc + 2 + p.length ∧
      t.trace = s.trace ++ p.flatMap (lcdByte true) ∧ t.lcd.ac = .is (ddramNext^[p.length] a) ∧
      t.lcd.acSel = .is .ddram ∧ t.lcd.cgram = s.lcd.cgram ∧ t.lcd.chCfg = s.lcd.chCfg ∧ t.charReady ∧
      (∀ k (h : k < p.length), Memory.read t.lcd.ddram (ddramNext^[k] a).toNat = .is p[k]) ∧
      (∀ j, (∀ k < p.length, j ≠ (ddramNext^[k] a).toNat) →
        Memory.read t.lcd.ddram j = Memory.read s.lcd.ddram j)) ∧
  ∀ c : Columns,
    ddramNext (BitVec.ofNat 7 ((RowBase.standard c).row0.toNat + c.count - 1)) =
      BitVec.ofNat 7 (RowBase.standard c).row2.toNat ∧
    ddramNext (BitVec.ofNat 7 ((RowBase.standard c).row1.toNat + c.count - 1)) =
      BitVec.ofNat 7 (RowBase.standard c).row3.toNat

/-- R98, R162, R165: CH.PRINT, expanded, shows its text in the cells from `(row, col)` rightwards when it fits in the
row, and changes no other byte of the cell memory. -/
def Obligations.PrintShowsTheTextInItsCells : Prop :=
  ∀ (s : State) (row col : Byte) (text : List Byte), s.charReady →
    s.cfg.rowBase = RowBase.standard s.cfg.cols → row.toNat ≤ 3 → col.toNat ≤ s.cfg.cols.count - 1 →
    col.toNat + text.length ≤ s.cfg.cols.count →
    ∃ t, execAll (Pseudo.print row col text).expand s = .next t ∧ ParallelFrame s t ∧ t.charReady ∧
      t.lcd.cgram = s.lcd.cgram ∧
      (∀ k (h : k < text.length), t.cell row (col + BitVec.ofNat 8 k) = .is text[k]) ∧
      (∀ j, (∀ k < text.length, j ≠ (cellAddr s.cfg row (col + BitVec.ofNat 8 k)).toNat) →
        Memory.read t.lcd.ddram j = Memory.read s.lcd.ddram j)

/-- R166, R54: CH.GLYPH stores the low five bits of its eight rows in its slot and nothing else, and leaves the address
counter in glyph memory. -/
def Obligations.GlyphIsStoredInItsSlot : Prop :=
  ∀ (s : State) (slot : Byte) (rows : Bytes8), s.charReady → slot.toNat ≤ 7 →
    ∃ t, exec (.chGlyph slot rows) s = .next t ∧ ParallelFrame s t ∧ t.pc = s.pc + 10 ∧
      t.trace = s.trace ++ (lcdByte false (s.cfg.cmdCgram ||| 8#8 * slot) ++ rows.toList.flatMap (lcdByte true)) ∧
      (∀ r (h : r < rows.toList.length), t.glyphRow slot.toNat r = .is (rows.toList[r] &&& 0x1F#8)) ∧
      (∀ a, (∀ r < 8, a ≠ 8 * slot.toNat + r) → Memory.read t.lcd.cgram a = Memory.read s.lcd.cgram a) ∧
      t.lcd.acSel = .is .cgram ∧ t.lcd.ac = .is (BitVec.ofNat 7 ((8 * slot.toNat + 8) % 64)) ∧
      t.lcd.ddram = s.lcd.ddram ∧ t.lcd.chCfg = s.lcd.chCfg ∧ t.charReady

/-- R168, R257: a character sent straight after CH.GLYPH goes into the following glyph slot and not onto the screen; with
a CH.SETCUR between them it goes into its cell. -/
def Obligations.CharacterAfterGlyphNeedsACursor : Prop :=
  ∀ (s : State) (slot row col c : Byte) (rows : Bytes8), s.charReady → s.cfg.rowsLegal → slot.toNat ≤ 7 →
    row.toNat ≤ 3 → col.toNat ≤ s.cfg.cols.count - 1 →
    (∃ t, execAll [.chGlyph slot rows, .chPutc c] s = .next t ∧ t.lcd.ddram = s.lcd.ddram ∧
      Memory.read t.lcd.cgram ((8 * slot.toNat + 8) % 64) = .is (c &&& 0x1F#8)) ∧
    (∃ t u, exec (.chGlyph slot rows) s = .next t ∧
      execAll [.chSetcur row col, .chPutc c] t = .next u ∧ u.cell row col = .is c ∧
      u.lcd.cgram = t.lcd.cgram)

/-! ## The pixel surface (43_pixel_surface.md) -/

/-- R181: PX.SETPOS, in every build whose receiver rows match its `PX_SETPOS` (R60; log 11), the default one among them: a
transaction for each byte, the position after them, and that nothing is stored; with the default, the three bytes. -/
def Obligations.SetPositionLoadsThePosition : Prop :=
  ∀ (s : State) (x page : Byte), SetposMatched s.cfg → s.px.bits.length < 8 → x.toNat ≤ 127 →
    page.toNat ≤ 7 →
    ∃ t, exec (.pxSetpos x page) s = .next t ∧ SerialFrame s t ∧ t.pc = s.pc + 3 ∧ t.busIdle ∧
      t.trace = s.trace ++ ((setposBytes s.cfg x page).flatMap fun c => oledXfer s.cfg s.cfg.ctlCmd [c]) ∧
      (s.cfg.pxSetpos = .standard →
        setposBytes s.cfg x page = [0xB0#8 ||| page, x &&& 0x0F#8, 0x10#8 ||| (x >>> 4)]) ∧
      t.px.pagePtr = .is (BitVec.ofNat 3 page.toNat) ∧ t.px.colPtr = .is (BitVec.ofNat 7 x.toNat) ∧
      t.px.gddram = s.px.gddram ∧ t.px.pxSync = s.px.pxSync ∧ t.px.pxOn = s.px.pxOn

/-- R184: PX.BLIT at a synchronised receiver, in every build whose position rows match, stores its eight
columns at `(x, page)` and nothing else, and leaves the
position after them. -/
def Obligations.BlitStoresEightColumns : Prop :=
  ∀ (s : State) (x page : Byte) (p : Bytes8), s.pixelReady → x.toNat ≤ 120 → page.toNat ≤ 7 →
    ∃ t, exec (.pxBlit x page p) s = .next t ∧ SerialFrame s t ∧ t.pc = s.pc + 11 ∧ t.busIdle ∧
      t.trace = s.trace ++ (((setposBytes s.cfg x page).flatMap fun c =>
        oledXfer s.cfg s.cfg.ctlCmd [c]) ++ p.toList.flatMap fun b => oledXfer s.cfg s.cfg.ctlDat [b]) ∧
      (∀ i (h : i < p.toList.length), t.column page.toNat (x.toNat + i) = .is p.toList[i]) ∧
      (∀ a, (∀ i < 8, a ≠ 128 * page.toNat + (x.toNat + i)) →
        Memory.read t.px.gddram a = Memory.read s.px.gddram a) ∧
      t.px.pagePtr = .is (BitVec.ofNat 3 page.toNat) ∧
      t.px.colPtr = .is (BitVec.ofNat 7 ((x.toNat + 8) % 128)) ∧ t.px.pxSync = true ∧
      t.px.pxOn = s.px.pxOn

/-- R186: of two sprites in the same page the later one wins in every column it covers, and the earlier one stays in the
columns it does not: no merging. -/
def Obligations.LaterSpriteWins : Prop :=
  ∀ (s : State) (x y page : Byte) (p q : Bytes8), s.pixelReady → x.toNat ≤ 120 → y.toNat ≤ 120 →
    page.toNat ≤ 7 →
    ∃ t, execAll [.pxBlit x page p, .pxBlit y page q] s = .next t ∧
      (∀ i (h : i < q.toList.length), t.column page.toNat (y.toNat + i) = .is q.toList[i]) ∧
      (∀ i (h : i < p.toList.length), (x.toNat + i < y.toNat ∨ y.toNat + 7 < x.toNat + i) →
        t.column page.toNat (x.toNat + i) = .is p.toList[i])

/-- R182: PX.CLRPG at a synchronised receiver, in every build whose position rows match, sets every
column of its page to 0 and no other byte, and leaves the
position at column 0 of the page. -/
def Obligations.ClearPageZeroesItsPage : Prop :=
  ∀ (s : State) (page : Byte), s.pixelReady → page.toNat ≤ 7 →
    ∃ t, exec (.pxClrpg page) s = .next t ∧ SerialFrame s t ∧ t.pc = s.pc + 2 ∧ t.busIdle ∧
      t.trace = s.trace ++ (((setposBytes s.cfg 0#8 page).flatMap fun c =>
        oledXfer s.cfg s.cfg.ctlCmd [c]) ++
          (List.replicate 128 0x00#8).flatMap fun b => oledXfer s.cfg s.cfg.ctlDat [b]) ∧
      (∀ x < 128, t.column page.toNat x = .is 0x00#8) ∧
      (∀ a, (∀ x < 128, a ≠ 128 * page.toNat + x) →
        Memory.read t.px.gddram a = Memory.read s.px.gddram a) ∧
      t.px.pagePtr = .is (BitVec.ofNat 3 page.toNat) ∧ t.px.colPtr = .is 0#7 ∧ t.px.pxSync = true ∧
      t.px.pxOn = s.px.pxOn

/-- R183: PX.CLEAR at a synchronised receiver sets every byte of the panel memory to 0 and leaves the position at column
0 of page 7. -/
def Obligations.ClearZeroesThePanel : Prop :=
  ∀ s : State, s.pixelReady → ∃ t, exec .pxClear s = .next t ∧ SerialFrame s t ∧ t.pc = s.pc + 1 ∧
    t.busIdle ∧ (∀ page < 8, ∀ x < 128, t.column page x = .is 0x00#8) ∧ t.px.pagePtr = .is 7#3 ∧
    t.px.colPtr = .is 0#7 ∧ t.px.pxSync = true ∧ t.px.pxOn = s.px.pxOn

/-! ## The decimal renderer (44_decimal_renderer.md) -/

/-- R201: the digits of the character form. -/
def Obligations.CharDigitsAreTheDecimalDigits : Prop :=
  ∀ v : Value,
    1 ≤ (charDigits v).length ∧ (charDigits v).length ≤ 5 ∧ (∀ d ∈ charDigits v, d ≤ 9) ∧
    decimalValue (charDigits v) = v.toNat ∧ (v = 0#16 → charDigits v = [0]) ∧
    ((charDigits v).head? = some 0 → charDigits v = [0])

/-- R202: the digits of the pixel form. -/
def Obligations.PixDigitsAreFourPaddedDigits : Prop :=
  ∀ v : Value, v.toNat ≤ 9999 →
    ∃ d0 d1 d2 d3, pixDigits v = [d0, d1, d2, d3] ∧ d0 ≤ 9 ∧ d1 ≤ 9 ∧ d2 ≤ 9 ∧ d3 ≤ 9 ∧
      1000 * d0 + 100 * d1 + 10 * d2 + d3 = v.toNat

/-- R203, R204, R209 (a): CH.NUM at a synchronised receiver, where the digits fit in the row: reading the cells from
`(row, col)` rightwards gives the value back, the first is not "0" unless the value is 0, the position is set first so
that an address counter left in glyph memory does not matter, and no other cell is written, not even to the right. -/
def Obligations.CharNumberReadsBack : Prop :=
  ∀ (s : State) (row col : Byte) (v : Value), s.charReady →
    s.cfg.rowBase = RowBase.standard s.cfg.cols → row.toNat ≤ 3 → col.toNat ≤ s.cfg.cols.count - 1 →
    col.toNat + (charDigits v).length ≤ s.cfg.cols.count →
    ∃ (t : State) (codes : List Byte), exec (.chNum row col v) s = .next t ∧ ParallelFrame s t ∧
      t.pc = s.pc + 5 ∧
      t.trace = s.trace ++ (lcdByte false (cursorCommand s.cfg row col) ++ codes.flatMap (lcdByte true)) ∧
      codes.length = (charDigits v).length ∧
      (∀ k (h : k < codes.length), t.cell row (col + BitVec.ofNat 8 k) = .is codes[k]) ∧
      (∀ b ∈ codes, 0x30 ≤ b.toNat ∧ b.toNat ≤ 0x39) ∧
      decimalValue (codes.map fun b => b.toNat - 0x30) = v.toNat ∧
      (codes.head? = some 0x30#8 → v = 0#16) ∧
      (∀ j, (∀ k < codes.length, j ≠ (cellAddr s.cfg row (col + BitVec.ofNat 8 k)).toNat) →
        Memory.read t.lcd.ddram j = Memory.read s.lcd.ddram j) ∧
      t.lcd.cgram = s.lcd.cgram ∧ t.charReady

/-- R205, R206: PX.NUM at a synchronised receiver stores the font columns of its four digits at `x`, `x + 8`, `x + 16`
and `x + 24` of the page and nothing else. -/
def Obligations.PixNumberStoresFourFontBlocks : Prop :=
  ∀ (s : State) (x page : Byte) (v : Value), s.pixelReady → x.toNat ≤ 96 → page.toNat ≤ 7 →
    v.toNat ≤ 9999 →
    ∃ t, exec (.pxNum x page v) s = .next t ∧ SerialFrame s t ∧ t.pc = s.pc + 5 ∧ t.busIdle ∧
      (∀ k d, (pixDigits v)[k]? = some d → ∀ i b, (glyphOf s.cfg.digitFont d).toList[i]? = some b →
        t.column page.toNat (x.toNat + 8 * k + i) = .is b) ∧
      (∀ a, (∀ i < 32, a ≠ 128 * page.toNat + (x.toNat + i)) →
        Memory.read t.px.gddram a = Memory.read s.px.gddram a) ∧
      t.px.pagePtr = .is (BitVec.ofNat 3 page.toNat) ∧
      t.px.colPtr = .is (BitVec.ofNat 7 ((x.toNat + 32) % 128)) ∧ t.px.pxSync = true ∧
      t.px.pxOn = s.px.pxOn

/-- R209 (b), R210: with ten pairwise different font entries, reading the four blocks written by PX.NUM and looking each
up in the font gives the value back. -/
def Obligations.PixNumberReadsBack : Prop :=
  ∀ (s : State) (x page : Byte) (v : Value), s.pixelReady → s.cfg.digitFont.distinct → x.toNat ≤ 96 →
    page.toNat ≤ 7 → v.toNat ≤ 9999 →
    ∃ (t : State) (blocks : List Bytes8) (digits : List Nat), exec (.pxNum x page v) s = .next t ∧
      blocks.length = 4 ∧
      (∀ k (h : k < blocks.length), ∀ i b, blocks[k].toList[i]? = some b →
        t.column page.toNat (x.toNat + 8 * k + i) = .is b) ∧
      blocks.map (digitOf s.cfg.digitFont) = digits.map some ∧ decimalValue digits = v.toNat

/-! ## Timing (70_reset_and_hazards.md) -/

/-- R263, R121, R170: the sums of the wait lower bounds, with the default delays of LCD.INIT and for every `T_I2C`. -/
def Obligations.LeastDurations : Prop :=
  ∀ c : Config,
    (∀ r n, waitSum (lcdNibble r n) = 1005) ∧ (∀ r b, waitSum (lcdByte r b) = 2010) ∧
    (c.tInit1 = 4100 → c.tInit2 = 100 → c.tInit3 = 0 → c.fourbitNib = some 0x2#4 →
      waitSum (wireEvents c .lcdInit) = 36260) ∧
    waitSum (wireEvents c .chClear) = 2010 ∧
    (∀ row col, waitSum (wireEvents c (.chSetcur row col)) = 2010) ∧
    (∀ b, waitSum (wireEvents c (.chPutc b)) = 2010) ∧
    (∀ p, waitSum (wireEvents c (.chText p)) = 2010 * p.length) ∧
    (∀ slot rows, waitSum (wireEvents c (.chGlyph slot rows)) = 18090) ∧
    (∀ row col v, waitSum (wireEvents c (.chNum row col v)) = 2010 * (1 + (charDigits v).length)) ∧
    (∀ b, waitSum (wireEvents c (.i2cWrb b)) = 27 * c.tI2c) ∧
    waitSum (wireEvents c .i2cStart) = 3 * c.tI2c ∧ waitSum (wireEvents c .i2cStop) = 3 * c.tI2c ∧
    (∀ b, waitSum (wireEvents c (.oledCmd b)) = 87 * c.tI2c) ∧
    (∀ b, waitSum (wireEvents c (.oledDat b)) = 87 * c.tI2c) ∧
    (∀ ctl b, waitSum (wireEvents c (.i2cXfer ctl [b])) = 87 * c.tI2c) ∧
    (c.tI2c = 0 → ∀ i, onParallelBus i = false → waitSum (wireEvents c i) = 0)

/-- R121, R155, R188: how many events and transactions the operations have, in the builds with the default position
commands and initialisation sequence. -/
def Obligations.EventAndTransactionCounts : Prop :=
  ∀ c : Config,
    (∀ r n, (lcdNibble r n).length = 6 ∧ (lcdNibble r n).countP Event.isWait = 2) ∧
    (∀ r b, (lcdByte r b).length = 12) ∧
    (c.fourbitNib = some 0x2#4 → (wireEvents c .lcdInit).length = 76) ∧
    (wireEvents c .i2cStart).length = 7 ∧ (wireEvents c .i2cStart).countP Event.isWait = 3 ∧
    (wireEvents c .i2cStop).length = 6 ∧ (wireEvents c .i2cStop).countP Event.isWait = 3 ∧
    (∀ b, (wireEvents c (.i2cWrb b)).length = 54 ∧ (wireEvents c (.i2cWrb b)).countP Event.isWait = 27) ∧
    (∀ ctl p, (wireEvents c (.i2cXfer ctl p)).length = 13 + 54 * (2 + p.length)) ∧
    (∀ b, (wireEvents c (.oledCmd b)).length = 175 ∧ (wireEvents c (.oledDat b)).length = 175) ∧
    (c.oledInitSeq = oledInitDefault → (wireEvents c .oledInit).length = 3500) ∧
    (c.pxSetpos = .standard →
      (∀ x page, (transfers c (.pxSetpos x page)).length = 3 ∧
        (wireEvents c (.pxSetpos x page)).length = 525) ∧
      (∀ x page p, (transfers c (.pxBlit x page p)).length = 11 ∧
        (wireEvents c (.pxBlit x page p)).length = 1925) ∧
      (∀ page, (transfers c (.pxClrpg page)).length = 131 ∧
        (wireEvents c (.pxClrpg page)).length = 22925) ∧
      (transfers c .pxClear).length = 1048 ∧ (wireEvents c .pxClear).length = 183400 ∧
      (∀ x page v, (transfers c (.pxNum x page v)).length = 44 ∧
        (wireEvents c (.pxNum x page v)).length = 7700))

/-! ## Glyphs in cells (20_memory.md R54, 42_char_surface.md R164) -/

/-- R54, R164, R98, R168: a cell whose code is a slot's number shows that slot's glyph, pixel for pixel: after loading the
glyph and drawing it with CH.DRAWGLYPH at a cursor; and loading a slot changes at once what a cell with its code shows.
CH.BLANK puts a space in its cell, whose pixels no glyph gives, and no other cell changes. -/
def Obligations.GlyphCellShowsItsGlyph : Prop :=
  (∀ (s : State) (slot : BitVec 3) (row col : Byte) (rows : Bytes8), s.charReady → s.cfg.rowsLegal →
    row.toNat ≤ 3 → col.toNat ≤ s.cfg.cols.count - 1 →
    ∃ t, execAll (.chGlyph (slot.zeroExtend 8) rows :: .chSetcur row col :: (Pseudo.drawGlyph slot).expand) s =
        .next t ∧ ParallelFrame s t ∧ t.cell row col = .is (slot.zeroExtend 8) ∧
      ∀ r (h : r < rows.toList.length) k, k < 5 →
        t.shownPixel row col r k = .is (rows.toList[r].getLsbD (4 - k))) ∧
  (∀ (s : State) (slot row col : Byte) (rows : Bytes8), s.charReady → slot.toNat ≤ 7 → s.cell row col = .is slot →
    ∃ t, exec (.chGlyph slot rows) s = .next t ∧ t.cell row col = .is slot ∧
      ∀ r (h : r < rows.toList.length) k, k < 5 →
        t.shownPixel row col r k = .is (rows.toList[r].getLsbD (4 - k))) ∧
  (∀ (s : State) (row col : Byte), s.charReady → s.cfg.rowsLegal → row.toNat ≤ 3 →
    col.toNat ≤ s.cfg.cols.count - 1 →
    ∃ t, execAll (Pseudo.blank row col).expand s = .next t ∧ ParallelFrame s t ∧ t.cell row col = .is 0x20#8 ∧
      (∀ r k, t.shownPixel row col r k = .unspecified) ∧
      ∀ j, j ≠ (cellAddr s.cfg row col &&& 0x7F#8).toNat → Memory.read t.lcd.ddram j = Memory.read s.lcd.ddram j)
end

