-- ==== Sys2Proof/Laws/State.lean ====
section
/-!
SUPPORT. One lemma for each field under each update of the state, true by `rfl`, so that no later proof unfolds an update.
-/

namespace Sys2Proof.Machine

/-! ## `advance` -/

@[simp] theorem State.advance_cfg (n : Nat) (s : State) : (s.advance n).cfg = s.cfg := rfl
@[simp] theorem State.advance_req (n : Nat) (s : State) : (s.advance n).req = s.req := rfl
@[simp] theorem State.advance_lines (n : Nat) (s : State) : (s.advance n).lines = s.lines := rfl
@[simp] theorem State.advance_pc (n : Nat) (s : State) : (s.advance n).pc = s.pc + n := rfl
@[simp] theorem State.advance_trace (n : Nat) (s : State) : (s.advance n).trace = s.trace := rfl
@[simp] theorem State.advance_refused (n : Nat) (s : State) : (s.advance n).refused = s.refused := rfl
@[simp] theorem State.advance_lcd (n : Nat) (s : State) : (s.advance n).lcd = s.lcd := rfl
@[simp] theorem State.advance_px (n : Nat) (s : State) : (s.advance n).px = s.px := rfl

/-! ## `refuse` -/

@[simp] theorem State.refuse_cfg (k : RefuseCode) (s : State) : (s.refuse k).cfg = s.cfg := rfl
@[simp] theorem State.refuse_req (k : RefuseCode) (s : State) : (s.refuse k).req = s.req := rfl
@[simp] theorem State.refuse_lines (k : RefuseCode) (s : State) : (s.refuse k).lines = s.lines := rfl
@[simp] theorem State.refuse_pc (k : RefuseCode) (s : State) : (s.refuse k).pc = s.pc := rfl
@[simp] theorem State.refuse_trace (k : RefuseCode) (s : State) : (s.refuse k).trace = s.trace := rfl
@[simp] theorem State.refuse_refused (k : RefuseCode) (s : State) :
    (s.refuse k).refused = some ⟨k, s.pc⟩ := rfl
@[simp] theorem State.refuse_lcd (k : RefuseCode) (s : State) : (s.refuse k).lcd = s.lcd := rfl
@[simp] theorem State.refuse_px (k : RefuseCode) (s : State) : (s.refuse k).px = s.px := rfl

/-! ## `pixelInitialised` -/

@[simp] theorem State.pixelInitialised_cfg (s : State) : s.pixelInitialised.cfg = s.cfg := rfl
@[simp] theorem State.pixelInitialised_req (s : State) : s.pixelInitialised.req = s.req := rfl
@[simp] theorem State.pixelInitialised_lines (s : State) : s.pixelInitialised.lines = s.lines := rfl
@[simp] theorem State.pixelInitialised_pc (s : State) : s.pixelInitialised.pc = s.pc := rfl
@[simp] theorem State.pixelInitialised_trace (s : State) : s.pixelInitialised.trace = s.trace := rfl
@[simp] theorem State.pixelInitialised_refused (s : State) : s.pixelInitialised.refused = s.refused := rfl
@[simp] theorem State.pixelInitialised_lcd (s : State) : s.pixelInitialised.lcd = s.lcd := rfl
@[simp] theorem State.pixelInitialised_px (s : State) : s.pixelInitialised.px = s.px.initialised := rfl

/-! ## `emitVia` -/

section
variable (feed : Byte → PixelRx → PixelRx) (e : Event) (s : State)

@[simp] theorem emitVia_cfg : (emitVia feed e s).cfg = s.cfg := rfl
@[simp] theorem emitVia_req : (emitVia feed e s).req = s.req := rfl
@[simp] theorem emitVia_lines : (emitVia feed e s).lines = s.lines.apply e := rfl
@[simp] theorem emitVia_pc : (emitVia feed e s).pc = s.pc := rfl
@[simp] theorem emitVia_trace : (emitVia feed e s).trace = s.trace ++ [e] := rfl
@[simp] theorem emitVia_refused : (emitVia feed e s).refused = s.refused := rfl
@[simp] theorem emitVia_lcd : (emitVia feed e s).lcd = s.lcd.observe s.cfg s.lines e := rfl
@[simp] theorem emitVia_px : (emitVia feed e s).px = s.px.observe feed s.lines e := rfl

end

/-! ## `withFetchWord` -/

@[simp] theorem State.withFetchWord_cfg (s : State) (n w : Nat) : (s.withFetchWord n w).cfg = s.cfg := rfl
@[simp] theorem State.withFetchWord_lines (s : State) (n w : Nat) : (s.withFetchWord n w).lines = s.lines := rfl
@[simp] theorem State.withFetchWord_pc (s : State) (n w : Nat) : (s.withFetchWord n w).pc = s.pc := rfl
@[simp] theorem State.withFetchWord_trace (s : State) (n w : Nat) : (s.withFetchWord n w).trace = s.trace := rfl
@[simp] theorem State.withFetchWord_lcd (s : State) (n w : Nat) : (s.withFetchWord n w).lcd = s.lcd := rfl
@[simp] theorem State.withFetchWord_px (s : State) (n w : Nat) : (s.withFetchWord n w).px = s.px := rfl

/-! ## Equal fields -/

/-- Two states with equal fields are equal. -/
theorem State.eq_of_fields {s t : State} (h1 : s.cfg = t.cfg) (h2 : s.req = t.req) (h3 : s.lines = t.lines)
    (h4 : s.pc = t.pc) (h5 : s.trace = t.trace) (h6 : s.refused = t.refused) (h7 : s.lcd = t.lcd)
    (h8 : s.px = t.px) : s = t := by
  cases s; cases t; simp_all

/-! ## The lines under an event -/

@[simp] theorem Lines.apply_nib (v : Nibble) (l : Lines) : l.apply (.nib v) = { l with nib := v } := rfl
@[simp] theorem Lines.apply_rs (v : Bool) (l : Lines) : l.apply (.rs v) = { l with rs := v } := rfl
@[simp] theorem Lines.apply_en (v : Bool) (l : Lines) : l.apply (.en v) = { l with en := v } := rfl
@[simp] theorem Lines.apply_scl (v : Bool) (l : Lines) : l.apply (.scl v) = { l with scl := v } := rfl
@[simp] theorem Lines.apply_sda (v : Bool) (l : Lines) : l.apply (.sda v) = { l with sda := v } := rfl
@[simp] theorem Lines.apply_wait (d : Nat) (l : Lines) : l.apply (.wait d) = l := rfl

end Sys2Proof.Machine
end

