-- ==== Sys2Proof/Laws/Emit.lean ====
section
/-!
SUPPORT. What a list of events does: it composes, it appends itself to the trace, it leaves the parameters, `pc` and the
mark, and it leaves the receiver of a bus whose lines it does not write.
-/

namespace Sys2Proof.Machine

section
variable (feed : Byte → PixelRx → PixelRx)

@[simp] theorem emitAllVia_nil (s : State) : emitAllVia feed [] s = s := rfl

theorem emitAllVia_cons (e : Event) (es : List Event) (s : State) :
    emitAllVia feed (e :: es) s = emitAllVia feed es (emitVia feed e s) := rfl

theorem emitAllVia_append (es fs : List Event) (s : State) :
    emitAllVia feed (es ++ fs) s = emitAllVia feed fs (emitAllVia feed es s) := by
  induction es generalizing s with
  | nil => rfl
  | cons e es ih => exact ih _

@[simp] theorem emitAllVia_cfg (es : List Event) (s : State) : (emitAllVia feed es s).cfg = s.cfg := by
  induction es generalizing s with
  | nil => rfl
  | cons e es ih => exact ih _

@[simp] theorem emitAllVia_req (es : List Event) (s : State) : (emitAllVia feed es s).req = s.req := by
  induction es generalizing s with
  | nil => rfl
  | cons e es ih => exact ih _

@[simp] theorem emitAllVia_pc (es : List Event) (s : State) : (emitAllVia feed es s).pc = s.pc := by
  induction es generalizing s with
  | nil => rfl
  | cons e es ih => exact ih _

@[simp] theorem emitAllVia_refused (es : List Event) (s : State) :
    (emitAllVia feed es s).refused = s.refused := by
  induction es generalizing s with
  | nil => rfl
  | cons e es ih => exact ih _

@[simp] theorem emitAllVia_trace (es : List Event) (s : State) :
    (emitAllVia feed es s).trace = s.trace ++ es := by
  induction es generalizing s with
  | nil => simp
  | cons e es ih => rw [emitAllVia_cons, ih]; simp

@[simp] theorem emitAllVia_lines (es : List Event) (s : State) :
    (emitAllVia feed es s).lines = linesAfter s.lines es := by
  induction es generalizing s with
  | nil => rfl
  | cons e es ih => exact ih _

end

/-! ## `emitAll` and `emitAllMuted` -/

theorem emitAll_append (es fs : List Event) (s : State) :
    emitAll (es ++ fs) s = emitAll fs (emitAll es s) := by
  simp [emitAll, emitAllVia_append]

@[simp] theorem emitAll_nil (s : State) : emitAll [] s = s := rfl

@[simp] theorem emitAll_cfg (es : List Event) (s : State) : (emitAll es s).cfg = s.cfg := emitAllVia_cfg ..
@[simp] theorem emitAll_req (es : List Event) (s : State) : (emitAll es s).req = s.req := emitAllVia_req ..
@[simp] theorem emitAll_pc (es : List Event) (s : State) : (emitAll es s).pc = s.pc := emitAllVia_pc ..
@[simp] theorem emitAll_refused (es : List Event) (s : State) : (emitAll es s).refused = s.refused :=
  emitAllVia_refused ..
@[simp] theorem emitAll_trace (es : List Event) (s : State) : (emitAll es s).trace = s.trace ++ es :=
  emitAllVia_trace ..
@[simp] theorem emitAll_lines (es : List Event) (s : State) :
    (emitAll es s).lines = linesAfter s.lines es := emitAllVia_lines ..

theorem emitAllMuted_append (es fs : List Event) (s : State) :
    emitAllMuted (es ++ fs) s = emitAllMuted fs (emitAllMuted es s) := emitAllVia_append ..

@[simp] theorem emitAllMuted_nil (s : State) : emitAllMuted [] s = s := rfl

@[simp] theorem emitAllMuted_cfg (es : List Event) (s : State) : (emitAllMuted es s).cfg = s.cfg :=
  emitAllVia_cfg ..
@[simp] theorem emitAllMuted_req (es : List Event) (s : State) : (emitAllMuted es s).req = s.req :=
  emitAllVia_req ..
@[simp] theorem emitAllMuted_pc (es : List Event) (s : State) : (emitAllMuted es s).pc = s.pc :=
  emitAllVia_pc ..
@[simp] theorem emitAllMuted_refused (es : List Event) (s : State) :
    (emitAllMuted es s).refused = s.refused := emitAllVia_refused ..
@[simp] theorem emitAllMuted_trace (es : List Event) (s : State) :
    (emitAllMuted es s).trace = s.trace ++ es := emitAllVia_trace ..
@[simp] theorem emitAllMuted_lines (es : List Event) (s : State) :
    (emitAllMuted es s).lines = linesAfter s.lines es := emitAllVia_lines ..

/-! ## Lines -/

@[simp] theorem linesAfter_nil (l : Lines) : linesAfter l [] = l := rfl

theorem linesAfter_cons (l : Lines) (e : Event) (es : List Event) :
    linesAfter l (e :: es) = linesAfter (l.apply e) es := rfl

theorem linesAfter_append (l : Lines) (es fs : List Event) :
    linesAfter l (es ++ fs) = linesAfter (linesAfter l es) fs := by
  induction es generalizing l with
  | nil => rfl
  | cons e es ih => exact ih _

/-! ## The two buses -/

/-- An event of the parallel bus or a wait. -/
def Event.parallel : Event → Bool
  | .scl _ | .sda _ => false
  | _ => true

/-- An event of the serial bus or a wait. -/
def Event.serial : Event → Bool
  | .nib _ | .rs _ | .en _ => false
  | _ => true

section
variable (feed : Byte → PixelRx → PixelRx)

/-- Events of the parallel bus leave the pixel receiver. -/
theorem emitAllVia_px_of_parallel {es : List Event} (h : ∀ e ∈ es, e.parallel = true) (s : State) :
    (emitAllVia feed es s).px = s.px := by
  induction es generalizing s with
  | nil => rfl
  | cons e es ih =>
    rw [emitAllVia_cons, ih fun x hx => h x (List.mem_cons_of_mem _ hx)]
    have := h e (List.mem_cons_self ..)
    cases e <;> simp_all [Event.parallel, PixelRx.observe]

/-- Events of the serial bus leave the character receiver. -/
theorem emitAllVia_lcd_of_serial {es : List Event} (h : ∀ e ∈ es, e.serial = true) (s : State) :
    (emitAllVia feed es s).lcd = s.lcd := by
  induction es generalizing s with
  | nil => rfl
  | cons e es ih =>
    rw [emitAllVia_cons, ih fun x hx => h x (List.mem_cons_of_mem _ hx)]
    have := h e (List.mem_cons_self ..)
    cases e <;> simp_all [Event.serial, CharRx.observe]

end

/-- A list of serial-bus events changes the lines, the trace and the pixel receiver only. -/
theorem emitAllVia_of_serial (feed : Byte → PixelRx → PixelRx) {es : List Event}
    (h : ∀ e ∈ es, e.serial = true) (s : State) :
    emitAllVia feed es s =
      { s with lines := linesAfter s.lines es, trace := s.trace ++ es, px := (emitAllVia feed es s).px } := by
  apply State.eq_of_fields <;> simp [emitAllVia_lcd_of_serial feed h s]

/-- A list of parallel-bus events changes the lines, the trace and the character receiver only. -/
theorem emitAllVia_of_parallel (feed : Byte → PixelRx → PixelRx) {es : List Event}
    (h : ∀ e ∈ es, e.parallel = true) (s : State) :
    emitAllVia feed es s =
      { s with lines := linesAfter s.lines es, trace := s.trace ++ es, lcd := (emitAllVia feed es s).lcd } := by
  apply State.eq_of_fields <;> simp [emitAllVia_px_of_parallel feed h s]

/-- Events of the parallel bus leave the serial lines. -/
theorem linesAfter_of_parallel {es : List Event} (h : ∀ e ∈ es, e.parallel = true) (l : Lines) :
    (linesAfter l es).scl = l.scl ∧ (linesAfter l es).sda = l.sda := by
  induction es generalizing l with
  | nil => exact ⟨rfl, rfl⟩
  | cons e es ih =>
    have h1 := ih (fun x hx => h x (List.mem_cons_of_mem _ hx)) (l.apply e)
    have h2 := h e (List.mem_cons_self ..)
    rw [linesAfter_cons, h1.1, h1.2]
    cases e <;> simp_all [Event.parallel]

/-- Events of the serial bus leave the parallel lines. -/
theorem linesAfter_of_serial {es : List Event} (h : ∀ e ∈ es, e.serial = true) (l : Lines) :
    (linesAfter l es).nib = l.nib ∧ (linesAfter l es).rs = l.rs ∧ (linesAfter l es).en = l.en := by
  induction es generalizing l with
  | nil => exact ⟨rfl, rfl, rfl⟩
  | cons e es ih =>
    have h1 := ih (fun x hx => h x (List.mem_cons_of_mem _ hx)) (l.apply e)
    have h2 := h e (List.mem_cons_self ..)
    rw [linesAfter_cons, h1.1, h1.2.1, h1.2.2]
    cases e <;> simp_all [Event.serial]

end Sys2Proof.Machine
end

