-- ==== Sys2Proof/Laws/Memory.lean ====
section
/-!
SUPPORT. The laws of a shadow memory: read after write, the canonical form is kept, and equal contents are equal data.
-/

namespace Sys2Proof.Machine

@[simp] theorem Memory.read_lost (i : Nat) : Memory.read Memory.lost i = .unspecified := rfl

/-- A read after a write to the same address gives the byte written. -/
@[simp] theorem Memory.read_write_same (m : Memory) (i : Nat) (v : Byte) :
    Memory.read (Memory.write m i v) i = .is v := by
  induction m with
  | nil => simp [Memory.write, Memory.read]
  | cons c m ih =>
    obtain ⟨a, b⟩ := c
    simp only [Memory.write]
    split
    · simp [Memory.read]
    · split
      · simp [Memory.read]
      · next h1 h2 => simp [Memory.read, ih, Ne.symm h2]

/-- A write leaves every other address alone. -/
theorem Memory.read_write_other (m : Memory) {i j : Nat} (v : Byte) (h : j ≠ i) :
    Memory.read (Memory.write m i v) j = Memory.read m j := by
  induction m with
  | nil => simp [Memory.write, Memory.read, Ne.symm h]
  | cons c m ih =>
    obtain ⟨a, b⟩ := c
    simp only [Memory.write]
    split
    · simp [Memory.read, Ne.symm h]
    · split
      · next h1 h2 => subst h2; simp [Memory.read, Ne.symm h]
      · simp only [Memory.read, ih]

theorem Memory.read_write (m : Memory) (i j : Nat) (v : Byte) :
    Memory.read (Memory.write m i v) j = if j = i then .is v else Memory.read m j := by
  split
  · next h => subst h; simp
  · next h => exact Memory.read_write_other m v h

/-- The entries after a write are the new one and old ones. -/
theorem Memory.mem_write {m : Memory} {i : Nat} {v : Byte} {c : Host.Cell} (h : c ∈ Memory.write m i v) :
    c = (i, v) ∨ c ∈ m := by
  induction m with
  | nil => exact .inl (by simpa [Memory.write] using h)
  | cons d m ih =>
    obtain ⟨a, b⟩ := d
    simp only [Memory.write] at h
    split at h
    · simpa using h
    · split at h
      · rcases List.mem_cons.1 h with h | h
        · exact .inl h
        · exact .inr (List.mem_cons_of_mem _ h)
      · rcases List.mem_cons.1 h with h | h
        · exact .inr (h ▸ List.mem_cons_self ..)
        · exact (ih h).imp_right (List.mem_cons_of_mem _)

/-- A write inside the space keeps the canonical form. -/
theorem Memory.wf_write {size : Nat} {m : Memory} (h : Memory.wf size m) {i : Nat} (hi : i < size) (v : Byte) :
    Memory.wf size (Memory.write m i v) := by
  refine ⟨?_, fun c hc => ?_⟩
  · have hp := h.1
    clear h
    induction m with
    | nil => simp [Memory.write]
    | cons c m ih =>
      obtain ⟨a, b⟩ := c
      obtain ⟨h1, h2⟩ := List.pairwise_cons.1 hp
      simp only [Memory.write]
      split
      · next hlt =>
        refine List.pairwise_cons.2 ⟨fun x hx => ?_, hp⟩
        rcases List.mem_cons.1 hx with rfl | hx
        · exact hlt
        · exact Nat.lt_trans hlt (h1 x hx)
      · split
        · next h3 => subst h3; exact List.pairwise_cons.2 ⟨h1, h2⟩
        · refine List.pairwise_cons.2 ⟨fun x hx => ?_, ih h2⟩
          rcases Memory.mem_write hx with rfl | hx
          · simp only; omega
          · exact h1 x hx
  · rcases Memory.mem_write hc with rfl | hc
    · exact hi
    · exact h.2 c hc

theorem Memory.wf_lost (size : Nat) : Memory.wf size Memory.lost :=
  ⟨List.Pairwise.nil, fun _ h => by cases h⟩

/-- The fill of a whole space is in the canonical form. -/
theorem Memory.wf_fill (n : Nat) (v : Byte) : Memory.wf n (Memory.fill n v) := by
  refine ⟨?_, fun c hc => ?_⟩
  · exact List.pairwise_map.2 List.pairwise_lt_range
  · obtain ⟨a, ha, rfl⟩ := List.mem_map.1 hc
    exact List.mem_range.1 ha

theorem Memory.read_map_pair (l : List Nat) (v : Byte) (i : Nat) :
    Memory.read (l.map fun a => (a, v)) i = if i ∈ l then .is v else .unspecified := by
  induction l with
  | nil => rfl
  | cons a l ih =>
    simp only [List.map_cons, Memory.read, List.mem_cons]
    by_cases h : a = i
    · simp [h]
    · simp [h, ih, Ne.symm h]

/-- After a fill of `n` bytes every one of them reads as the fill byte. -/
theorem Memory.read_fill (n : Nat) (v : Byte) (i : Nat) :
    Memory.read (Memory.fill n v) i = if i < n then .is v else .unspecified := by
  simp [Memory.fill, Memory.read_map_pair]

/-- An address below every entry is not listed. -/
theorem Memory.read_below {m : Memory} {i : Nat} (h : ∀ c ∈ m, i < c.1) : Memory.read m i = .unspecified := by
  induction m with
  | nil => rfl
  | cons c m ih =>
    obtain ⟨a, b⟩ := c
    have h1 : i < a := h (a, b) (List.mem_cons_self ..)
    simp only [Memory.read, if_neg (by omega : ¬ a = i)]
    exact ih fun d hd => h d (List.mem_cons_of_mem _ hd)

/-- Equal contents are equal data. -/
theorem Memory.ext_read {size : Nat} {m n : Memory} (hm : Memory.wf size m) (hn : Memory.wf size n)
    (h : ∀ i, Memory.read m i = Memory.read n i) : m = n := by
  have pm := hm.1
  have pn := hn.1
  clear hm hn
  induction m generalizing n with
  | nil =>
    cases n with
    | nil => rfl
    | cons c n => have := h c.1; simp [Memory.read] at this
  | cons c m ih =>
    cases n with
    | nil => have := h c.1; simp [Memory.read] at this
    | cons d n =>
      obtain ⟨a, b⟩ := c
      obtain ⟨a', b'⟩ := d
      obtain ⟨h1, h2⟩ := List.pairwise_cons.1 pm
      obtain ⟨h3, h4⟩ := List.pairwise_cons.1 pn
      have ha : a = a' := by
        by_contra hne
        rcases Nat.lt_or_gt_of_ne hne with hlt | hlt
        · have := h a
          rw [Memory.read_below (m := (a', b') :: n)] at this
          · simp [Memory.read] at this
          · intro x hx
            rcases List.mem_cons.1 hx with rfl | hx
            · exact hlt
            · exact Nat.lt_trans hlt (h3 x hx)
        · have := h a'
          rw [Memory.read_below (m := (a, b) :: m)] at this
          · simp [Memory.read] at this
          · intro x hx
            rcases List.mem_cons.1 hx with rfl | hx
            · exact hlt
            · exact Nat.lt_trans hlt (h1 x hx)
      subst ha
      have hb : b = b' := by have := h a; simpa [Memory.read] using this
      subst hb
      refine congrArg _ (ih (fun i => ?_) h2 h4)
      have := h i
      simp only [Memory.read] at this
      split at this
      · next hi =>
        subst hi
        rw [Memory.read_below h1, Memory.read_below h3]
      · exact this

end Sys2Proof.Machine
end

