-- ==== Sys2Proof/Laws/Lcd.lean ====
section
/-!
SUPPORT. What LcdNibble and LcdByte do, to the lines, the trace and the character receiver, from any state (40_parallel_lcd_driver.md
R110, R112, R116), and what a byte does to a receiver that pairs nibbles (20_memory.md R56 to R58).
-/

namespace Sys2Proof.Machine

/-! ## Events -/

theorem lcdNibble_parallel (rs : Bool) (n : Nibble) : ∀ e ∈ lcdNibble rs n, e.parallel = true := by
  simp [lcdNibble, Event.parallel]

theorem lcdByte_parallel (rs : Bool) (b : Byte) : ∀ e ∈ lcdByte rs b, e.parallel = true := by
  simp [lcdByte, lcdNibble, Event.parallel]

theorem lcdData_parallel (bs : List Byte) : ∀ e ∈ lcdData bs, e.parallel = true := by
  intro e he
  obtain ⟨b, -, hb⟩ := List.mem_flatMap.1 he
  exact lcdByte_parallel true b e hb

theorem lcdInitEvents_parallel (c : Config) : ∀ e ∈ lcdInitEvents c, e.parallel = true := by
  intro e he
  simp only [lcdInitEvents, List.mem_append, List.mem_singleton] at he
  rcases he with ((((((((((rfl | h) | rfl) | h) | rfl) | h) | rfl) | h) | h) | h) | h) | h
  all_goals first | rfl | exact lcdNibble_parallel _ _ _ h | exact lcdByte_parallel _ _ _ h | skip
  cases hf : c.fourbitNib <;> rw [hf] at h <;> simp only [fourbitSwitch] at h
  · simp at h
  · exact lcdNibble_parallel _ _ _ h

/-! ## LcdNibble and LcdByte from any state -/

/-- Everything LcdNibble does (R110): the levels, the six events, and one latched pair whatever the levels were (R116). -/
theorem emitAllVia_lcdNibble (feed : Byte → PixelRx → PixelRx) (rs : Bool) (n : Nibble) (s : State) :
    emitAllVia feed (lcdNibble rs n) s =
      { s with
        lines := { s.lines with nib := n, rs := rs, en := false }
        trace := s.trace ++ lcdNibble rs n
        lcd := s.lcd.onStrobe s.cfg rs n } := by
  simp [emitAllVia, emitVia, lcdNibble, Lines.apply, CharRx.observe, PixelRx.observe]

/-- The effect of the two strobes of a byte on the character receiver (R112, R56). -/
def CharRx.onByte (cfg : Config) (rs : Bool) (b : Byte) (c : CharRx) : CharRx :=
  (c.onStrobe cfg rs (b.extractLsb' 4 4)).onStrobe cfg rs (b.extractLsb' 0 4)

/-- Everything LcdByte does (R112). -/
theorem emitAllVia_lcdByte (feed : Byte → PixelRx → PixelRx) (rs : Bool) (b : Byte) (s : State) :
    emitAllVia feed (lcdByte rs b) s =
      { s with
        lines := { s.lines with nib := b.extractLsb' 0 4, rs := rs, en := false }
        trace := s.trace ++ lcdByte rs b
        lcd := s.lcd.onByte s.cfg rs b } := by
  rw [lcdByte, emitAllVia_append, emitAllVia_lcdNibble, emitAllVia_lcdNibble]
  simp [CharRx.onByte]

theorem emitAll_lcdNibble (rs : Bool) (n : Nibble) (s : State) :
    emitAll (lcdNibble rs n) s =
      { s with
        lines := { s.lines with nib := n, rs := rs, en := false }
        trace := s.trace ++ lcdNibble rs n
        lcd := s.lcd.onStrobe s.cfg rs n } := emitAllVia_lcdNibble ..

theorem emitAll_lcdByte (rs : Bool) (b : Byte) (s : State) :
    emitAll (lcdByte rs b) s =
      { s with
        lines := { s.lines with nib := b.extractLsb' 0 4, rs := rs, en := false }
        trace := s.trace ++ lcdByte rs b
        lcd := s.lcd.onByte s.cfg rs b } := emitAllVia_lcdByte ..

theorem emitAll_wait (d : Nat) (s : State) :
    emitAll [.wait d] s = { s with trace := s.trace ++ [.wait d] } := by
  simp [emitAll, emitAllVia, emitVia, CharRx.observe, PixelRx.observe]

/-- The character receiver after a list of data bytes (R165). -/
theorem emitAll_lcdData_lcd (bs : List Byte) (s : State) :
    (emitAll (lcdData bs) s).lcd = bs.foldl (fun c b => c.onByte s.cfg true b) s.lcd := by
  induction bs generalizing s with
  | nil => rfl
  | cons b bs ih =>
    rw [lcdData, List.flatMap_cons, emitAll_append, ← lcdData, ih, emitAll_lcdByte]
    rfl

/-- Events of the parallel bus leave the pixel receiver. -/
theorem emitAll_px_of_parallel {es : List Event} (h : ∀ e ∈ es, e.parallel = true) (s : State) :
    (emitAll es s).px = s.px := emitAllVia_px_of_parallel _ h s

/-! ## The latched sequence -/

/-- R116: one pair for each LcdNibble, whatever the levels before it. -/
theorem latched_lcdNibble_append (l : Lines) (rs : Bool) (n : Nibble) (es : List Event) :
    latched l (lcdNibble rs n ++ es) =
      (rs, n) :: latched { l with nib := n, rs := rs, en := false } es := by
  simp [latched, latchedAt, lcdNibble, Lines.apply]

theorem latched_wait (l : Lines) (d : Nat) (es : List Event) :
    latched l (.wait d :: es) = latched l es := rfl

theorem latched_lcdByte_append (l : Lines) (rs : Bool) (b : Byte) (es : List Event) :
    latched l (lcdByte rs b ++ es) =
      bytePairs rs b ++ latched { l with nib := b.extractLsb' 0 4, rs := rs, en := false } es := by
  rw [lcdByte, List.append_assoc, latched_lcdNibble_append, latched_lcdNibble_append]
  rfl

/-- The latched sequence of a list of data bytes followed by nothing more. -/
theorem latched_lcdData (l : Lines) (bs : List Byte) :
    latched l (lcdData bs) = bs.flatMap (bytePairs true) := by
  induction bs generalizing l with
  | nil => rfl
  | cons b bs ih =>
    rw [lcdData, List.flatMap_cons, latched_lcdByte_append, List.flatMap_cons, ← lcdData, ih]

/-! ## A byte at a receiver that pairs nibbles -/

/-- The two nibbles of a byte make the byte (R61). -/
@[simp] theorem nibbles_append (b : Byte) :
    (b.extractLsb' 4 4 ++ b.extractLsb' 0 4 : BitVec (4 + 4)) = b := by
  apply BitVec.eq_of_getLsbD_eq
  intro i hi
  simp only [BitVec.getLsbD_append, BitVec.getLsbD_extractLsb']
  by_cases h : i < 4
  · simp [h]
  · simp [h, show i - 4 < 4 by omega, show 4 + (i - 4) = i by omega]

@[simp] theorem settleLegacy_of_zero {c : CharRx} (h : c.legacyCnt = 0) : c.settleLegacy = c := by
  simp [CharRx.settleLegacy, h]

@[simp] theorem settleLegacy_of_known {c : CharRx} (h : c.ifMode ≠ .unknown) : c.settleLegacy = c := by
  simp [CharRx.settleLegacy, h]

@[simp] theorem CharRx.havoc_legacyCnt (c : CharRx) : c.havoc.legacyCnt = c.legacyCnt := rfl

@[simp] theorem CharRx.memoriesLost_legacyCnt (c : CharRx) : c.memoriesLost.legacyCnt = c.legacyCnt := rfl
@[simp] theorem CharRx.memoriesLost_ifMode (c : CharRx) : c.memoriesLost.ifMode = c.ifMode := rfl
@[simp] theorem CharRx.memoriesLost_chCfg (c : CharRx) : c.memoriesLost.chCfg = c.chCfg := rfl

/-- What the store of a data byte leaves (R58). -/
theorem CharRx.stored_frame (b : Byte) (c : CharRx) :
    (c.stored b).legacyCnt = c.legacyCnt ∧ (c.stored b).ifMode = c.ifMode ∧ (c.stored b).chCfg = c.chCfg := by
  unfold CharRx.stored
  split <;> exact ⟨rfl, rfl, rfl⟩

theorem CharRx.data_legacyCnt (b : Byte) (c : CharRx) : (c.data b).legacyCnt = c.legacyCnt := by
  unfold CharRx.data
  split
  · split
    · exact (CharRx.stored_frame b c).1
    · exact (CharRx.stored_frame b c).1
  · rfl

/-- A data byte at a receiver that waits for a high nibble is delivered whole (R56, R58). -/
theorem onByte_data {c : CharRx} (h : c.ifMode = .if4Hi) (cfg : Config) (b : Byte) :
    c.onByte cfg true b =
      CharRx.data b { c with legacyCnt := 0, hiNib := .is (b.extractLsb' 4 4), hiRs := .is true } := by
  have h1 : c.onStrobe cfg true (b.extractLsb' 4 4) =
      { c with legacyCnt := 0, hiNib := .is (b.extractLsb' 4 4), hiRs := .is true, ifMode := .if4Lo } := by
    simp [CharRx.onStrobe, CharRx.countLegacy, CharRx.intake, h]
  rw [CharRx.onByte, h1]
  simp only [CharRx.onStrobe, CharRx.countLegacy, CharRx.intake, if_true, CharRx.deliver, nibbles_append]
  rw [settleLegacy_of_zero]
  · simp [h]
  · simp [CharRx.data_legacyCnt]

/-- The legacy count after a command byte's two nibbles at a receiver that pairs nibbles (R56). -/
def legacyAfter (k : Nat) (b : Byte) : Nat :=
  if b.extractLsb' 0 4 = 0x3#4 then min ((if b.extractLsb' 4 4 = 0x3#4 then min (k + 1) 3 else 0) + 1) 3 else 0

/-- A command byte at a receiver that waits for a high nibble is delivered whole (R56, R57). -/
theorem onByte_command {c : CharRx} (h : c.ifMode = .if4Hi) (cfg : Config) (b : Byte) :
    c.onByte cfg false b =
      (CharRx.perform (commandOf cfg b)
        { c with
          legacyCnt := legacyAfter c.legacyCnt b, hiNib := .is (b.extractLsb' 4 4),
              hiRs := .is false }).settleLegacy := by
  have h1 : c.onStrobe cfg false (b.extractLsb' 4 4) =
      { c with
        legacyCnt := if b.extractLsb' 4 4 = 0x3#4 then min (c.legacyCnt + 1) 3 else 0
        hiNib := .is (b.extractLsb' 4 4), hiRs := .is false, ifMode := .if4Lo } := by
    simp [CharRx.onStrobe, CharRx.countLegacy, CharRx.intake, h]
  rw [CharRx.onByte, h1]
  simp only [CharRx.onStrobe, CharRx.countLegacy, CharRx.intake, if_true, CharRx.deliver, nibbles_append,
    Bool.false_eq_true, if_false, true_and]
  simp [h, legacyAfter]

/-- A listed command leaves no receiver in mode `unknown` that was not. -/
theorem perform_mode {k : CharCommand} (hk : k ≠ .unlisted) {c : CharRx} (h : c.ifMode = .if4Hi) :
    (CharRx.perform k c).ifMode ≠ .unknown := by
  cases k <;> simp only [CharRx.perform, h, ne_eq, reduceCtorEq, not_false_eq_true] at hk ⊢
  · split <;> simp
  · exact (hk trivial).elim

/-- The same for a listed command: the last line of R56 has nothing to do. -/
theorem onByte_listed {c : CharRx} (h : c.ifMode = .if4Hi) {cfg : Config} {b : Byte} {k : CharCommand}
    (he : commandOf cfg b = k) (hk : k ≠ .unlisted) :
    c.onByte cfg false b = CharRx.perform k
        { c with
          legacyCnt := legacyAfter c.legacyCnt b, hiNib := .is (b.extractLsb' 4 4), hiRs := .is false } := by
  rw [onByte_command h, he]
  exact settleLegacy_of_known (perform_mode hk h)

/-- A list of data bytes at a receiver in left-to-right entry keeps it so, and pairing nibbles. -/
theorem onByte_data_mode {c : CharRx} (h : c.ifMode = .if4Hi) (hl : c.chCfg.leftToRight = true) (cfg : Config)
    (b : Byte) :
    (c.onByte cfg true b).ifMode = .if4Hi ∧ (c.onByte cfg true b).chCfg = c.chCfg := by
  rw [onByte_data h]
  unfold CharRx.data
  rw [if_pos hl]
  split <;> simp [CharRx.stored_frame, h]

/-- The data byte's store into `DDRAM` (R58). -/
theorem onByte_data_ddram {c : CharRx} (h : c.ifMode = .if4Hi) (hl : c.chCfg.leftToRight = true)
    (hk : c.chCfg.known = true) (hs : c.acSel = .is .ddram) {a : BitVec 7} (ha : c.ac = .is a) (cfg : Config) (b : Byte) :
    c.onByte cfg true b =
      { c with
        legacyCnt := 0, hiNib := .is (b.extractLsb' 4 4), hiRs := .is true
        ddram := Memory.write c.ddram a.toNat b, ac := .is (ddramNext a) } := by
  rw [onByte_data h]
  simp only [CharRx.data, CharRx.stored, if_pos hl, if_pos hk, hs, ha]

/-- The data byte's store into `CGRAM` (R58). -/
theorem onByte_data_cgram {c : CharRx} (h : c.ifMode = .if4Hi) (hl : c.chCfg.leftToRight = true)
    (hk : c.chCfg.known = true) (hs : c.acSel = .is .cgram) {a : BitVec 7} (ha : c.ac = .is a) (cfg : Config) (b : Byte) :
    c.onByte cfg true b =
      { c with
        legacyCnt := 0, hiNib := .is (b.extractLsb' 4 4), hiRs := .is true
        cgram := Memory.write c.cgram (a.toNat % 64) (b &&& 0x1F#8), ac := .is (cgramNext a) } := by
  rw [onByte_data h]
  simp only [CharRx.data, CharRx.stored, if_pos hl, if_pos hk, hs, ha]

theorem emitAll_lcd_lcdNibble (rs : Bool) (n : Nibble) (s : State) : (emitAll (lcdNibble rs n) s).lcd =
    s.lcd.onStrobe s.cfg rs n := by
  rw [emitAll_lcdNibble]

theorem emitAll_lcd_lcdByte (rs : Bool) (n : Byte) (s : State) : (emitAll (lcdByte rs n) s).lcd =
    s.lcd.onByte s.cfg rs n := by
  rw [emitAll_lcdByte]

theorem emitAll_lcd_wait (d : Nat) (s : State) : (emitAll [.wait d] s).lcd = s.lcd := by rw [emitAll_wait]

theorem emitAll_lcd_lcdData (p : List Byte) (s : State) :
    (emitAll (lcdData p) s).lcd = p.foldl (fun c b => c.onByte s.cfg true b) s.lcd := by
  induction p generalizing s with
  | nil => rfl
  | cons b p ih =>
    have e : lcdData (b :: p) = lcdByte true b ++ lcdData p := rfl
    rw [e, emitAll_append, ih, emitAll_lcd_lcdByte, emitAll_cfg]; rfl

/-- The optional switch nibble as a list. -/
theorem fourbitSwitch_eq (o : Option Nibble) : fourbitSwitch o = o.toList.flatMap (lcdNibble false) := by
  cases o <;> simp [fourbitSwitch]

end Sys2Proof.Machine
end

