-- ==== Sys2Proof/Laws/Serial.lean ====
section
/-!
SUPPORT. What the sub-sequences of the I2C master do, to the lines and the pixel receiver (41_i2c_master.md R131 to R139;
20_memory.md R59, R60).
-/

namespace Sys2Proof.Machine

/-! ## Events -/

theorem i2cStart_serial (t : Nat) : ∀ e ∈ i2cStart t, e.serial = true := by
  simp [i2cStart, Event.serial]

theorem i2cStop_serial (t : Nat) : ∀ e ∈ i2cStop t, e.serial = true := by
  simp [i2cStop, Event.serial]

theorem i2cBit_serial (t : Nat) (v : Bool) : ∀ e ∈ i2cBit t v, e.serial = true := by
  simp [i2cBit, Event.serial]

theorem i2cWriteByte_serial (t : Nat) (b : Byte) : ∀ e ∈ i2cWriteByte t b, e.serial = true := by
  intro e he
  rcases List.mem_append.1 he with h | h
  · obtain ⟨v, -, hv⟩ := List.mem_flatMap.1 h
    exact i2cBit_serial t v e hv
  · exact i2cBit_serial t true e h

theorem oledXfer_serial (c : Config) (ctl : Byte) (p : List Byte) : ∀ e ∈ oledXfer c ctl p, e.serial = true := by
  intro e he
  simp only [oledXfer, List.mem_append] at he
  rcases he with (((h | h) | h) | h) | h
  · exact i2cStart_serial _ e h
  · exact i2cWriteByte_serial _ _ e h
  · exact i2cWriteByte_serial _ _ e h
  · obtain ⟨b, -, hb⟩ := List.mem_flatMap.1 h
    exact i2cWriteByte_serial _ _ e hb
  · exact i2cStop_serial _ e h

theorem xfers_serial (c : Config) (ctl : Byte) (bs : List Byte) :
    ∀ e ∈ bs.flatMap (fun b => oledXfer c ctl [b]), e.serial = true := by
  intro e he
  obtain ⟨b, -, hb⟩ := List.mem_flatMap.1 he
  exact oledXfer_serial c ctl [b] e hb

theorem setposEvents_serial (c : Config) (x page : Byte) : ∀ e ∈ setposEvents c x page, e.serial = true :=
  xfers_serial c c.ctlCmd _

theorem columnEvents_serial (c : Config) (bs : List Byte) : ∀ e ∈ columnEvents c bs, e.serial = true :=
  xfers_serial c c.ctlDat bs

theorem oledInitEvents_serial (c : Config) : ∀ e ∈ oledInitEvents c, e.serial = true :=
  xfers_serial c c.ctlCmd _

theorem blitEvents_serial (c : Config) (x page : Byte) (p : Bytes8) :
    ∀ e ∈ blitEvents c x page p, e.serial = true := by
  intro e he
  rcases List.mem_append.1 he with h | h
  · exact setposEvents_serial c x page e h
  · exact columnEvents_serial c _ e h

theorem clearPageEvents_serial (c : Config) (page : Byte) : ∀ e ∈ clearPageEvents c page, e.serial = true := by
  intro e he
  rcases List.mem_append.1 he with h | h
  · exact setposEvents_serial c _ page e h
  · exact columnEvents_serial c _ e h

theorem clearPanelEvents_serial (c : Config) : ∀ e ∈ clearPanelEvents c, e.serial = true := by
  intro e he
  obtain ⟨p, -, hp⟩ := List.mem_flatMap.1 he
  exact clearPageEvents_serial c _ e hp

theorem digitBlits_serial (c : Config) (x page : Byte) (ds : List Nat) :
    ∀ e ∈ digitBlits c x page ds, e.serial = true := by
  induction ds generalizing x with
  | nil => simp [digitBlits]
  | cons d ds ih =>
    intro e he
    rcases List.mem_append.1 he with h | h
    · exact blitEvents_serial c x page _ e h
    · exact ih _ e h

/-! ## The sub-sequences from any state -/

section
variable (feed : Byte → PixelRx → PixelRx)

/-- What a rising edge of `SCL` with `SDA` at 1 does before a start condition (R131): only an open receiver takes the
stray bit. -/
def PixelRx.beforeStart (l : Lines) (p : PixelRx) : PixelRx :=
  if l.scl then p else p.takeBit feed true

/-- Everything `I2cStart` does (R131). -/
theorem emitAllVia_i2cStart (t : Nat) (s : State) :
    emitAllVia feed (i2cStart t) s =
      { s with
        lines := { s.lines with scl := false, sda := false }
        trace := s.trace ++ i2cStart t
        px := (s.px.beforeStart feed s.lines).startCond } := by
  cases h1 : s.lines.scl <;> cases h2 : s.lines.sda <;>
    simp [emitAllVia, emitVia, i2cStart, Lines.apply, CharRx.observe, PixelRx.observe, PixelRx.beforeStart,
      PixelRx.startCond, PixelRx.stopCond, h1, h2]

/-- Everything `I2cBit` does when `SCL` is 0 (R133): the receiver takes the bit. -/
theorem emitAllVia_i2cBit (t : Nat) (v : Bool) {s : State} (h : s.lines.scl = false) :
    emitAllVia feed (i2cBit t v) s =
      { s with
        lines := { s.lines with scl := false, sda := v }
        trace := s.trace ++ i2cBit t v
        px := s.px.takeBit feed v } := by
  simp [emitAllVia, emitVia, i2cBit, Lines.apply, CharRx.observe, PixelRx.observe, h]

/-- Everything `I2cStop` does when `SCL` is 0 (R132). -/
theorem emitAllVia_i2cStop (t : Nat) {s : State} (h : s.lines.scl = false) :
    emitAllVia feed (i2cStop t) s =
      { s with
        lines := { s.lines with scl := true, sda := true }
        trace := s.trace ++ i2cStop t
        px := (s.px.takeBit feed false).stopCond } := by
  simp [emitAllVia, emitVia, i2cStop, Lines.apply, CharRx.observe, PixelRx.observe, h]

/-- A bit that does not complete a byte is appended. -/
theorem takeBit_short {p : PixelRx} (ho : p.busCond = .opened) (hl : p.bits.length < 8) (v : Bool) :
    p.takeBit feed v = { p with bits := p.bits ++ [v] } := by
  simp only [PixelRx.takeBit, ho, if_true, List.length_append, List.length_singleton]
  rw [if_neg (by omega)]

/-- A bit at a receiver that is not open is ignored. -/
theorem takeBit_closed {p : PixelRx} (ho : p.busCond ≠ .opened) (v : Bool) : p.takeBit feed v = p := by
  simp [PixelRx.takeBit, ho]

/-- The eight bits of a byte, most significant first, are read back as the byte (R59, R62). -/
theorem byteOfBits_bitsOfByte (b : Byte) : byteOfBits (bitsOfByte b ++ [true]) = b := by
  revert b; decide

/-- A list of bits that does not complete a byte is appended (R59, R133). -/
theorem emitAllVia_bits (t : Nat) (vs : List Bool) {s : State} (h : s.lines.scl = false)
    (ho : s.px.busCond = .opened) (hl : s.px.bits.length + vs.length ≤ 8) :
    (emitAllVia feed (vs.flatMap (i2cBit t)) s).px = { s.px with bits := s.px.bits ++ vs } ∧
      (emitAllVia feed (vs.flatMap (i2cBit t)) s).lines.scl = false := by
  induction vs generalizing s with
  | nil => simp [h]
  | cons v vs ih =>
    rw [List.length_cons] at hl
    rw [List.flatMap_cons, emitAllVia_append, emitAllVia_i2cBit feed t v h, takeBit_short feed ho (by omega)]
    have := ih (s := { s with
        lines := { s.lines with scl := false, sda := v }
        trace := s.trace ++ i2cBit t v
        px := { s.px with bits := s.px.bits ++ [v] } }) rfl ho
      (by simp only [List.length_append, List.length_singleton]; omega)
    rw [this.1]
    exact ⟨by simp, this.2⟩

/-- Nine bits are clocked for a byte whatever the receiver does; the levels after it (R134). -/
theorem linesAfter_i2cWriteByte (t : Nat) (b : Byte) (l : Lines) :
    linesAfter l (i2cWriteByte t b) = { l with scl := false, sda := true } := by
  rw [i2cWriteByte, linesAfter_append]
  have h := linesAfter_of_serial (es := (bitsOfByte b).flatMap (i2cBit t)) (fun e he =>
    i2cWriteByte_serial t b e (List.mem_append_left _ he)) l
  simp [i2cBit, linesAfter_cons, h]

/-- Everything `I2cWriteByte` does when `SCL` is 0 and the receiver is open with no bit held (R134): the receiver takes
the byte. -/
theorem emitAllVia_i2cWriteByte (t : Nat) (b : Byte) {s : State} (h : s.lines.scl = false)
    (ho : s.px.busCond = .opened) (hb : s.px.bits = []) :
    emitAllVia feed (i2cWriteByte t b) s =
      { s with
        lines := { s.lines with scl := false, sda := true }
        trace := s.trace ++ i2cWriteByte t b
        px := feed b s.px } := by
  have h8 := emitAllVia_bits feed t (bitsOfByte b) h ho (by simp [hb, bitsOfByte])
  have hpx : (emitAllVia feed (i2cWriteByte t b) s).px = feed b s.px := by
    rw [i2cWriteByte, emitAllVia_append, emitAllVia_i2cBit feed t true h8.2, h8.1]
    simp only [hb, List.nil_append, PixelRx.takeBit, ho, if_true]
    rw [if_pos (by simp [bitsOfByte]), byteOfBits_bitsOfByte]
    congr 1
    rw [← ho, ← hb]
  rw [emitAllVia_of_serial feed (i2cWriteByte_serial t b), hpx, linesAfter_i2cWriteByte]

end

/-! ## Transactions -/

/-- A byte intake that leaves the bus condition and the held bits. -/
structure Quiet (feed : Byte → PixelRx → PixelRx) : Prop where
  busCond : ∀ b p, (feed b p).busCond = p.busCond
  bits : ∀ b p, (feed b p).bits = p.bits

theorem PixelRx.data_frame (b : Byte) (p : PixelRx) :
    (p.data b).busCond = p.busCond ∧ (p.data b).bits = p.bits ∧ (p.data b).phase = p.phase ∧
      (p.data b).stream = p.stream ∧ (p.data b).addressed = p.addressed ∧ (p.data b).pxSync = p.pxSync ∧
      (p.data b).pxOn = p.pxOn ∧ (p.data b).pagePtr = p.pagePtr := by
  unfold PixelRx.data
  split <;> simp [PixelRx.setCol, *]

theorem PixelRx.command_frame (cfg : Config) (b : Byte) (p : PixelRx) :
    (p.command cfg b).busCond = p.busCond ∧ (p.command cfg b).bits = p.bits ∧
      (p.command cfg b).phase = p.phase ∧ (p.command cfg b).stream = p.stream ∧
      (p.command cfg b).addressed = p.addressed ∧ (p.command cfg b).gddram = p.gddram := by
  simp only [PixelRx.command]
  repeat' split
  all_goals simp [PixelRx.havoc, PixelRx.place]

theorem PixelRx.recvByte_quiet (cfg : Config) : Quiet (PixelRx.recvByte cfg) := by
  constructor
  · intro b p
    unfold PixelRx.recvByte
    repeat' split
    all_goals simp [PixelRx.havoc, (PixelRx.data_frame b p).1, (PixelRx.command_frame cfg b p).1]
  · intro b p
    unfold PixelRx.recvByte
    repeat' split
    all_goals simp [PixelRx.havoc, (PixelRx.data_frame b p).2.1, (PixelRx.command_frame cfg b p).2.1]

theorem muted_quiet : Quiet (fun _ p => p) := ⟨fun _ _ => rfl, fun _ _ => rfl⟩

section
variable {feed : Byte → PixelRx → PixelRx} (hq : Quiet feed)

include hq in
/-- The payload bytes of a transaction, one by one (R139). -/
theorem emitAllVia_payload (t : Nat) (p : List Byte) {s : State} (hc : s.lines.scl = false)
    (ho : s.px.busCond = .opened) (hb : s.px.bits = []) :
    (emitAllVia feed (p.flatMap (i2cWriteByte t)) s).px = p.foldl (fun q b => feed b q) s.px ∧
      (emitAllVia feed (p.flatMap (i2cWriteByte t)) s).lines.scl = false := by
  induction p generalizing s with
  | nil => exact ⟨rfl, hc⟩
  | cons b p ih =>
    rw [List.flatMap_cons, emitAllVia_append, emitAllVia_i2cWriteByte feed t b hc ho hb]
    exact ih rfl (by simp [hq.busCond, ho]) (by simp [hq.bits, hb])

include hq in
theorem foldl_feed_frame (p : List Byte) (q : PixelRx) :
    (p.foldl (fun q b => feed b q) q).busCond = q.busCond ∧ (p.foldl (fun q b => feed b q) q).bits = q.bits := by
  induction p generalizing q with
  | nil => exact ⟨rfl, rfl⟩
  | cons b p ih => rw [List.foldl_cons, (ih _).1, (ih _).2, hq.busCond, hq.bits]; exact ⟨rfl, rfl⟩

/-- A stop condition forgets the stray bit of its own rising edge. -/
theorem stopCond_takeBit {q : PixelRx} (hb : q.bits.length < 8) (v : Bool) :
    (q.takeBit feed v).stopCond = q.stopCond := by
  unfold PixelRx.takeBit
  split
  · simp only [List.length_append, List.length_singleton]
    rw [if_neg (by omega)]
    rfl
  · rfl

/-- A start condition forgets the stray bit before it. -/
theorem startCond_beforeStart {q : PixelRx} (hb : q.bits.length < 8) (l : Lines) :
    (q.beforeStart feed l).startCond = q.startCond := by
  unfold PixelRx.beforeStart PixelRx.takeBit
  split
  · rfl
  · split
    · simp only [List.length_append, List.length_singleton]
      rw [if_neg (by omega)]
      rfl
    · rfl

include hq in
/-- Everything a transaction does, from any line levels, at a receiver with no whole byte's worth of bits held (R139):
the bytes `I2C_ADDR`, the control byte and the payload are taken in order, and the bus is idle after it. -/
theorem emitAllVia_oledXfer (c : Config) (ctl : Byte) (p : List Byte) {s : State} (hb : s.px.bits.length < 8) :
    emitAllVia feed (oledXfer c ctl p) s =
      { s with
        lines := { s.lines with scl := true, sda := true }
        trace := s.trace ++ oledXfer c ctl p
        px := ((c.i2cAddr :: ctl :: p).foldl (fun q b => feed b q) s.px.startCond).stopCond } := by
  obtain ⟨body, hbody⟩ : ∃ es, es = i2cStart c.tI2c ++ (c.i2cAddr :: ctl :: p).flatMap (i2cWriteByte c.tI2c) :=
    ⟨_, rfl⟩
  have hpay : (emitAllVia feed body s).px = (c.i2cAddr :: ctl :: p).foldl (fun q b => feed b q) s.px.startCond ∧
      (emitAllVia feed body s).lines.scl = false := by
    rw [hbody, emitAllVia_append, emitAllVia_i2cStart, startCond_beforeStart hb]
    exact emitAllVia_payload hq c.tI2c _ rfl rfl rfl
  have he : oledXfer c ctl p = body ++ i2cStop c.tI2c := by
    simp [hbody, oledXfer, List.append_assoc]
  have hser : ∀ e ∈ body, e.serial = true :=
    fun e h => oledXfer_serial c ctl p e (he ▸ List.mem_append_left _ h)
  have hl := linesAfter_of_serial hser s.lines
  have hf := (foldl_feed_frame hq (c.i2cAddr :: ctl :: p) s.px.startCond).2
  rw [he, emitAllVia_append, emitAllVia_i2cStop feed _ hpay.2, hpay.1,
    stopCond_takeBit (by rw [hf]; exact Nat.zero_lt_succ 7)]
  apply State.eq_of_fields <;> simp [emitAllVia_lcd_of_serial feed hser s, hl]

end

/-- The pixel receiver after a whole transaction: idle, no bit held. -/
def PixelRx.closed (st : Stream) (p : PixelRx) : PixelRx :=
  { p with busCond := .idle, bits := [], phase := .payload, addressed := .is true, stream := .is st }

/-- Where a receiver is inside an addressed transaction on stream `st`. -/
def PixelRx.inStream (st : Stream) (p : PixelRx) : PixelRx :=
  { p with busCond := .opened, bits := [], phase := .payload, addressed := .is true, stream := .is st }

theorem recv_header_data {cfg : Config} (hc : cfg.ctlCmd ≠ cfg.ctlDat) (p : PixelRx) :
    PixelRx.recvByte cfg cfg.ctlDat (PixelRx.recvByte cfg cfg.i2cAddr p.startCond) = p.inStream .data := by
  simp [PixelRx.recvByte, PixelRx.startCond, PixelRx.inStream, Ne.symm hc]

theorem recv_header_command (cfg : Config) (p : PixelRx) :
    PixelRx.recvByte cfg cfg.ctlCmd (PixelRx.recvByte cfg cfg.i2cAddr p.startCond) = p.inStream .command := by
  simp [PixelRx.recvByte, PixelRx.startCond, PixelRx.inStream]

theorem recvByte_inStream_data (cfg : Config) (b : Byte) (p : PixelRx) :
    PixelRx.recvByte cfg b (p.inStream .data) = (p.data b).inStream .data := by
  simp only [PixelRx.recvByte, PixelRx.inStream, PixelRx.data, PixelRx.colPtr]
  split <;> simp_all [PixelRx.setCol]

theorem recvByte_inStream_command (cfg : Config) (b : Byte) (p : PixelRx) :
    PixelRx.recvByte cfg b (p.inStream .command) = (p.command cfg b).inStream .command := by
  simp only [PixelRx.recvByte, PixelRx.inStream, PixelRx.command, PixelRx.havoc, PixelRx.place]
  repeat' split
  all_goals rfl

theorem stopCond_inStream (st : Stream) (p : PixelRx) : (p.inStream st).stopCond = p.closed st := rfl

theorem foldl_inStream_data (cfg : Config) (bs : List Byte) (p : PixelRx) :
    bs.foldl (fun q b => PixelRx.recvByte cfg b q) (p.inStream .data) =
      (bs.foldl (fun q b => q.data b) p).inStream .data := by
  induction bs generalizing p with
  | nil => rfl
  | cons b bs ih => rw [List.foldl_cons, recvByte_inStream_data, ih]; rfl

theorem foldl_inStream_command (cfg : Config) (bs : List Byte) (p : PixelRx) :
    bs.foldl (fun q b => PixelRx.recvByte cfg b q) (p.inStream .command) =
      (bs.foldl (fun q b => q.command cfg b) p).inStream .command := by
  induction bs generalizing p with
  | nil => rfl
  | cons b bs ih => rw [List.foldl_cons, recvByte_inStream_command, ih]; rfl

/-- A data-stream transaction (R60, R139, R142). -/
theorem emitAll_data_xfer {s : State} (hc : s.cfg.ctlCmd ≠ s.cfg.ctlDat) (p : List Byte)
    (hb : s.px.bits.length < 8) :
    emitAll (oledXfer s.cfg s.cfg.ctlDat p) s =
      { s with
        lines := { s.lines with scl := true, sda := true }
        trace := s.trace ++ oledXfer s.cfg s.cfg.ctlDat p
        px := (p.foldl (fun q b => q.data b) s.px).closed .data } := by
  rw [emitAll, emitAllVia_oledXfer (PixelRx.recvByte_quiet s.cfg) _ _ _ hb]
  simp only [List.foldl_cons, recv_header_data hc, foldl_inStream_data, stopCond_inStream]

/-- A command-stream transaction (R60, R139, R141). -/
theorem emitAll_command_xfer {s : State} (p : List Byte) (hb : s.px.bits.length < 8) :
    emitAll (oledXfer s.cfg s.cfg.ctlCmd p) s =
      { s with
        lines := { s.lines with scl := true, sda := true }
        trace := s.trace ++ oledXfer s.cfg s.cfg.ctlCmd p
        px := (p.foldl (fun q b => q.command s.cfg b) s.px).closed .command } := by
  rw [emitAll, emitAllVia_oledXfer (PixelRx.recvByte_quiet s.cfg) _ _ _ hb]
  simp only [List.foldl_cons, recv_header_command, foldl_inStream_command, stopCond_inStream]

end Sys2Proof.Machine
end

