-- ==== Sys2Proof/Laws/Step.lean ====
section
/-!
SUPPORT. What one operation and one step can do, said once: an operation is refused or emits its events and moves `pc`; a
step runs a decoded request, refuses one, or does not happen.
-/

namespace Sys2Proof.Machine

/-! ## The operand checks are the ranges of R88 -/

theorem nibOperandOk_iff (a : Byte) : nibOperandOk a = decide (a.toNat < 32) := by
  revert a; decide

theorem cellOk_iff (cfg : Config) (row col : Byte) :
    cellOk cfg row col = (decide (row.toNat ≤ 3) && decide (col.toNat ≤ cfg.cols.count - 1)) := by
  have h : col.toNat < cfg.cols.count ↔ col.toNat ≤ cfg.cols.count - 1 := by
    cases cfg.cols <;> simp only [Columns.count] <;> omega
  rw [cellOk, decide_eq_decide.2 h]

/-- The acceptance condition of an operation's first line. -/
def accepts (cfg : Config) : Instr → Bool
  | .lcdNib a => nibOperandOk a
  | .chSetcur row col => cellOk cfg row col
  | .chNum row col _ => cellOk cfg row col
  | .chGlyph slot _ => slotOk slot
  | .pxClrpg page => pageOk page
  | .pxSetpos x page => posOk x page
  | .pxBlit x page _ => blitOk x page
  | .pxNum x page v => pxNumOk x page v
  | _ => true

theorem accepts_iff (cfg : Config) (i : Instr) : accepts cfg i = i.inRange cfg.cols := by
  cases i <;> simp [accepts, Instr.inRange, nibOperandOk_iff, cellOk_iff, slotOk, pageOk, posOk, blitOk, pxNumOk]

/-! ## One operation -/

/-- The state an accepted operation leaves. -/
def performed (i : Instr) (s : State) : State :=
  match i with
  | .oledInit => (emitAllMuted (oledInitEvents s.cfg) s).pixelInitialised.advance 1
  | i => (emitAll (wireEvents s.cfg i) s).advance i.length

/-- Everything an operation with operand ranges does. -/
theorem guardOperands_complete (ok : Bool) (es : List Event) (n : Nat) (s : State) :
    guardOperands ok (complete es n) s =
      .next (if ok then (emitAll es s).advance n else s.refuse .badOperand) := by
  cases ok <;> rfl

/-- Every operation: accepted and performed, or refused with `BadOperand` (R88, R221). -/
theorem exec_eq (i : Instr) (s : State) :
    exec i s = .next (if i.inRange s.cfg.cols then performed i s else s.refuse .badOperand) := by
  rw [← accepts_iff]
  cases i
  case lcdNib | chSetcur | chNum | chGlyph | pxClrpg | pxSetpos | pxBlit | pxNum =>
    exact guardOperands_complete _ _ _ s
  all_goals rfl

/-- An accepted operation is performed. -/
theorem exec_of_inRange {i : Instr} {s : State} (h : i.inRange s.cfg.cols = true) :
    exec i s = .next (performed i s) := by
  rw [exec_eq, if_pos h]

/-- Every operation but OLED.INIT is its events and its length. -/
theorem performed_of_ne {i : Instr} (h : i ≠ .oledInit) (s : State) :
    performed i s = (emitAll (wireEvents s.cfg i) s).advance i.length := by
  cases i
  case oledInit => exact absurd rfl h
  all_goals rfl

/-- To prove something of every operation, prove it of its events and of OLED.INIT. -/
theorem performed_cases {P : State → Prop} (i : Instr) (s : State)
    (h : P ((emitAll (wireEvents s.cfg i) s).advance i.length))
    (h' : i = .oledInit → P ((emitAllMuted (oledInitEvents s.cfg) s).pixelInitialised.advance 1)) :
    P (performed i s) := by
  by_cases hi : i = .oledInit
  · subst hi; exact h' rfl
  · rw [performed_of_ne hi]; exact h

section
variable (i : Instr) (s : State)

@[simp] theorem performed_cfg : (performed i s).cfg = s.cfg :=
  performed_cases (P := fun t => t.cfg = s.cfg) i s (by simp) fun _ => by simp

@[simp] theorem performed_req : (performed i s).req = s.req :=
  performed_cases (P := fun t => t.req = s.req) i s (by simp) fun _ => by simp

@[simp] theorem performed_refused : (performed i s).refused = s.refused :=
  performed_cases (P := fun t => t.refused = s.refused) i s (by simp) fun _ => by simp

@[simp] theorem performed_pc : (performed i s).pc = s.pc + i.length :=
  performed_cases (P := fun t => t.pc = s.pc + i.length) i s (by simp) fun h => by subst h; simp [Instr.length]

@[simp] theorem performed_trace : (performed i s).trace = s.trace ++ wireEvents s.cfg i :=
  performed_cases (P := fun t => t.trace = s.trace ++ wireEvents s.cfg i) i s (by simp)
    fun h => by subst h; simp [wireEvents]

@[simp] theorem performed_lines : (performed i s).lines = linesAfter s.lines (wireEvents s.cfg i) :=
  performed_cases (P := fun t => t.lines = linesAfter s.lines (wireEvents s.cfg i)) i s (by simp)
    fun h => by subst h; simp [wireEvents]

end

/-- The events of an operation are on its own bus. -/
theorem wireEvents_parallel {i : Instr} (h : onParallelBus i = true) (c : Config) :
    ∀ e ∈ wireEvents c i, e.parallel = true := by
  cases i <;> simp only [onParallelBus, Bool.false_eq_true] at h <;> intro e he <;>
    simp only [wireEvents, List.mem_append] at he
  case lcdInit => exact lcdInitEvents_parallel c e he
  case lcdNib => exact lcdNibble_parallel _ _ e he
  case chText => exact lcdData_parallel _ e he
  case chGlyph => exact he.elim (lcdByte_parallel _ _ e) (lcdData_parallel _ e)
  case chNum => exact he.elim (lcdByte_parallel _ _ e) (lcdData_parallel _ e)
  all_goals exact lcdByte_parallel _ _ e he

/-- The events of an operation are on its own bus. -/
theorem wireEvents_serial {i : Instr} (h : onParallelBus i = false) (c : Config) :
    ∀ e ∈ wireEvents c i, e.serial = true := by
  cases i <;> simp only [onParallelBus, Bool.true_eq_false] at h <;> intro e he <;> simp only [wireEvents] at he
  case i2cStart => exact i2cStart_serial _ e he
  case i2cStop => exact i2cStop_serial _ e he
  case i2cWrb => exact i2cWriteByte_serial _ _ e he
  case oledInit => exact oledInitEvents_serial c e he
  case pxClear => exact clearPanelEvents_serial c e he
  case pxClrpg => exact clearPageEvents_serial c _ e he
  case pxSetpos => exact setposEvents_serial c _ _ e he
  case pxBlit => exact blitEvents_serial c _ _ _ e he
  case pxNum => exact digitBlits_serial c _ _ _ e he
  all_goals exact oledXfer_serial c _ _ e he

/-- A parallel-bus operation leaves the pixel receiver. -/
theorem performed_px_of_parallel {i : Instr} (h : onParallelBus i = true) (s : State) :
    (performed i s).px = s.px := by
  have hp : (emitAll (wireEvents s.cfg i) s).px = s.px := emitAll_px_of_parallel (wireEvents_parallel h s.cfg) s
  cases i <;> simp_all [performed, onParallelBus]

/-- A serial-bus operation leaves the character receiver. -/
theorem performed_lcd_of_serial {i : Instr} (h : onParallelBus i = false) (s : State) :
    (performed i s).lcd = s.lcd := by
  have hp : (emitAll (wireEvents s.cfg i) s).lcd = s.lcd :=
    emitAllVia_lcd_of_serial _ (wireEvents_serial h s.cfg) s
  cases i
  case oledInit => exact emitAllVia_lcd_of_serial _ (oledInitEvents_serial s.cfg) s
  all_goals simp_all [performed, onParallelBus]

/-! ## One step -/

/-- Everything a step that answers a next state can be. -/
theorem step_cases {s t : State} (h : step s = .next t) :
    s.refused = none ∧ s.pc ≠ s.req.length ∧
      ((∃ i rest, decode s.pending = .ok (i, rest) ∧ exec i s = .next t) ∨
        (∃ e, decode s.pending = .error e ∧ t = s.refuse (refuseCodeOf e))) := by
  unfold step at h
  split at h
  · cases h
  · next hr =>
    split at h
    · cases h
    · next hp =>
      refine ⟨hr, hp, ?_⟩
      unfold runRequest at h
      split at h
      · next i rest hd => exact .inl ⟨i, rest, hd, h⟩
      · next e hd => exact .inr ⟨e, hd, by simpa using h.symm⟩

/-- A step of a run that is not over runs the request at `pc`. -/
theorem step_running {s : State} (h : s.refused = none) (hp : s.pc ≠ s.req.length) : step s = runRequest s := by
  unfold step; rw [h]; simp [hp]

/-- Where bytes are left, the run is not over. -/
theorem pc_ne_of_pending {s : State} {op : Byte} {bs} (h : s.req.drop s.pc = op :: bs) : s.pc ≠ s.req.length := by
  intro he; rw [he] at h; simp at h

/-- An operation is performed or refused. -/
theorem exec_next_cases (i : Instr) (s : State) : exec i s = .next (performed i s) ∨ exec i s =
    .next (s.refuse .badOperand) := by
  rw [exec_eq]; split <;> simp

/-- No request is empty. -/
theorem instr_length_pos (i : Instr) : 0 < i.length := by cases i <;> simp [Instr.length]

/-- The acceptance condition of LCD.NIB (R85). -/
theorem lcdNib_inRange (a : Byte) (h : a.extractLsb' 5 3 = 0#3) : (Instr.lcdNib a).inRange c = true := by
  have : ∀ a : Byte, a.extractLsb' 5 3 = 0#3 → a.toNat < 32 := by decide
  simp [Instr.inRange, this a h]

theorem parallel_frame {i : Instr} (h : onParallelBus i = true) (s : State) :
    (performed i s).lines.scl = s.lines.scl ∧ (performed i s).lines.sda = s.lines.sda ∧ (performed i s).px = s.px := by
  have := linesAfter_of_parallel (wireEvents_parallel h s.cfg) s.lines
  exact ⟨by simp [this], by simp [this], performed_px_of_parallel h s⟩

theorem serial_frame {i : Instr} (h : onParallelBus i = false) (s : State) :
    (performed i s).lines.nib = s.lines.nib ∧ (performed i s).lines.rs = s.lines.rs ∧
    (performed i s).lines.en = s.lines.en ∧ (performed i s).lcd = s.lcd := by
  have := linesAfter_of_serial (wireEvents_serial h s.cfg) s.lines
  exact ⟨by simp [this], by simp [this], by simp [this], performed_lcd_of_serial h s⟩

/-- The frame of an operation of the parallel bus. -/
theorem performed_parallelFrame {i : Instr} (h : onParallelBus i = true) (s : State) :
    ParallelFrame s (performed i s) := by
  have := parallel_frame h s
  exact ⟨by simp, by simp, by simp, this.1, this.2.1, this.2.2⟩

/-- The frame of an operation of the serial bus. -/
theorem performed_serialFrame {i : Instr} (h : onParallelBus i = false) (s : State) : SerialFrame s (performed i s) :=
    by
  have := serial_frame h s
  exact ⟨by simp, by simp, by simp, this⟩

theorem ParallelFrame.trans {a b c : State} (h : ParallelFrame a b) (h' : ParallelFrame b c) : ParallelFrame a c := by
  obtain ⟨h1, h2, h3, h4, h5, h6⟩ := h
  obtain ⟨g1, g2, g3, g4, g5, g6⟩ := h'
  exact ⟨g1.trans h1, g2.trans h2, g3.trans h3, g4.trans h4, g5.trans h5, g6.trans h6⟩

theorem SerialFrame.trans {a b c : State} (h : SerialFrame a b) (h' : SerialFrame b c) : SerialFrame a c := by
  obtain ⟨h1, h2, h3, h4, h5, h6, h7⟩ := h
  obtain ⟨g1, g2, g3, g4, g5, g6, g7⟩ := h'
  exact ⟨g1.trans h1, g2.trans h2, g3.trans h3, g4.trans h4, g5.trans h5, g6.trans h6, g7.trans h7⟩

/-- The first operation of an accepted list. -/
theorem execAll_cons {i : Instr} {is : List Instr} {s : State} (h : i.inRange s.cfg.cols = true) :
    execAll (i :: is) s = execAll is (performed i s) := by
  rw [execAll, exec_of_inRange h]

/-- Events do not look at `pc`. -/
theorem emitAll_advance (es : List Event) (n : Nat) (s : State) : emitAll es (s.advance n) =
    (emitAll es s).advance n := by
      unfold emitAll
      rw [State.advance_cfg]
      generalize PixelRx.recvByte s.cfg = f
      induction es generalizing s with
      | nil => rfl
      | cons e es ih => rw [emitAllVia_cons, emitAllVia_cons]; exact ih (emitVia f e s)

theorem advance_advance (m n : Nat) (s : State) : (s.advance m).advance n = s.advance (m + n) := by
  simp [State.advance, Nat.add_assoc]

end Sys2Proof.Machine
end

