-- ==== Sys2Proof/Laws/CharModes.lean ====
section
/-!
SUPPORT. What one latched pair and one byte do to the character receiver (20_memory.md R56, R57), field by field.
-/

namespace Sys2Proof.Machine

/-! ## `LEGACYCNT` -/

theorem perform_legacyCnt (k : CharCommand) (c : CharRx) : (CharRx.perform k c).legacyCnt = c.legacyCnt := by
  cases k <;> rfl

theorem deliver_legacyCnt (cfg : Config) (rs : Bool) (b : Byte) (c : CharRx) : (c.deliver cfg rs b).legacyCnt =
    c.legacyCnt := by
  unfold CharRx.deliver
  split
  · exact CharRx.data_legacyCnt b c
  · exact perform_legacyCnt _ c

theorem intake_legacyCnt (cfg : Config) (rs : Bool) (n : Nibble) (c : CharRx) : (c.intake cfg rs n).legacyCnt =
    c.legacyCnt := by
  unfold CharRx.intake
  repeat' split
  all_goals first | rfl | exact deliver_legacyCnt ..

theorem settle_legacyCnt (c : CharRx) : c.settleLegacy.legacyCnt = c.legacyCnt := by
  unfold CharRx.settleLegacy; split <;> rfl

/-- R56, "first, in every mode". -/
theorem onStrobe_legacyCnt (cfg : Config) (rs : Bool) (n : Nibble) (c : CharRx) :
    (c.onStrobe cfg rs n).legacyCnt = if rs = false ∧ n = 0x3#4 then min (c.legacyCnt + 1) 3 else 0 := by
  rw [CharRx.onStrobe, settle_legacyCnt, intake_legacyCnt]; rfl

/-! ## `IFMODE` under the legacy nibble -/

theorem data_mode (b : Byte) (c : CharRx) : (c.data b).ifMode = c.ifMode ∨ (c.data b).ifMode = .unknown := by
  unfold CharRx.data
  split
  · split <;> exact .inl (CharRx.stored_frame b c).2.1
  · exact .inr rfl

theorem perform_modes (k : CharCommand) (c : CharRx) : (CharRx.perform k c).ifMode = c.ifMode ∨
    (CharRx.perform k c).ifMode = .unknown ∨ (CharRx.perform k c).ifMode = .if8 := by
  cases k
  case functionSet e n f => cases e <;> simp [CharRx.perform]
  all_goals first | exact .inl rfl | exact .inr (.inl rfl)

theorem deliver_mode (cfg : Config) (rs : Bool) (b : Byte) (c : CharRx) (h : c.ifMode = .if4Hi) :
    (c.deliver cfg rs b).ifMode ≠ .if4Lo := by
  unfold CharRx.deliver
  split
  · rcases data_mode b c with h' | h' <;> rw [h'] <;> simp [h]
  · rcases perform_modes (commandOf cfg b) c with h' | h' | h' <;> rw [h'] <;> simp [h]

/-- Where a build has no command of its own at 0x33, the byte of two legacy nibbles, it switches to 8-bit transfers or is
not listed (R56). -/
theorem commandOf_legacy {cfg : Config} (h : ownCommand cfg 0x33#8 = none) :
    commandOf cfg 0x33#8 = .functionSet true false false ∨ commandOf cfg 0x33#8 = .unlisted := by
  have e : standardCommand 0x33#8 = .functionSet true false false := by decide
  unfold commandOf
  simp only [h, e]
  split
  · exact .inl rfl
  · exact .inr rfl

theorem legacyStrobe_if8 {c : CharRx} (h : c.ifMode = .if8) (cfg : Config) :
    (c.onStrobe cfg false 0x3#4).ifMode = .if8 := by
  simp [CharRx.onStrobe, CharRx.countLegacy, CharRx.intake, h, CharRx.settleLegacy]

/-- Where one pair (0, 0x3) can lead. -/
theorem legacyStrobe_mode {cfg : Config} (ho : ownCommand cfg 0x33#8 = none) (c : CharRx) :
    (c.ifMode = .if4Hi → (c.onStrobe cfg false 0x3#4).ifMode = .if4Lo ∧ (c.onStrobe cfg false 0x3#4).hiNib =
        .is 0x3#4 ∧ (c.onStrobe cfg false 0x3#4).hiRs = .is false) ∧
    (c.ifMode = .if4Lo → (c.onStrobe cfg false 0x3#4).ifMode ≠ .if4Lo) ∧
    (c.ifMode = .if4Lo → c.hiNib = .is 0x3#4 → c.hiRs = .is false → (c.onStrobe cfg false 0x3#4).ifMode =
        .if8 ∨ (c.onStrobe cfg false 0x3#4).ifMode = .unknown) ∧
    (c.ifMode = .unknown → (c.onStrobe cfg false 0x3#4).ifMode = .if8 ∨ (c.onStrobe cfg false 0x3#4).ifMode =
        .unknown) ∧
    ((c.onStrobe cfg false 0x3#4).legacyCnt = 3 → (c.onStrobe cfg false 0x3#4).ifMode ≠ .unknown) := by
  refine ⟨fun h => ?_, fun h => ?_, fun h h1 h2 => ?_, fun h => ?_, fun h => ?_⟩
  · simp [CharRx.onStrobe, CharRx.countLegacy, CharRx.intake, h, CharRx.settleLegacy]
  · have key : ∀ d : CharRx, d.ifMode ≠ .if4Lo → d.settleLegacy.ifMode ≠ .if4Lo := by
      intro d hd; unfold CharRx.settleLegacy; split <;> simp [hd]
    apply key
    unfold CharRx.intake
    simp only [CharRx.countLegacy, h]
    split
    · split
      · exact deliver_mode _ _ _ _ rfl
      · simp [CharRx.havoc]
    · simp [CharRx.havoc]
  · simp only [CharRx.onStrobe, CharRx.countLegacy, CharRx.intake, h, h1, h2, if_true, CharRx.deliver,
        Bool.false_eq_true, if_false]
    rcases commandOf_legacy ho with e | e <;> rw [show (0x3#4 ++ 0x3#4 : BitVec (4 + 4)) = 0x33#8 from rfl, e] <;>
      simp only [CharRx.perform]
    · left; simp [CharRx.settleLegacy]
    · by_cases h9 : 2 ≤ c.legacyCnt <;> simp [CharRx.havoc, CharRx.settleLegacy, h9]
  · simp [CharRx.onStrobe, CharRx.countLegacy, CharRx.intake, h, CharRx.settleLegacy]
    split <;> simp
  · rw [CharRx.onStrobe, settle_legacyCnt] at h
    rw [CharRx.onStrobe]
    unfold CharRx.settleLegacy
    split
    · simp
    · next hn => intro hu; exact hn ⟨hu, h⟩

/-- Three of them lead to `if8` from everywhere. -/
theorem legacyStrobe_thrice {cfg : Config} (ho : ownCommand cfg 0x33#8 = none) (c : CharRx) :
    (((c.onStrobe cfg false 0x3#4).onStrobe cfg false 0x3#4).onStrobe cfg false 0x3#4).ifMode = .if8 := by
  obtain ⟨a1, a2, a3, a4, a5⟩ := legacyStrobe_mode ho c
  have l1 := onStrobe_legacyCnt cfg false 0x3#4 c
  set c1 := c.onStrobe cfg false 0x3#4
  obtain ⟨b1, b2, b3, b4, b5⟩ := legacyStrobe_mode ho c1
  have l2 := onStrobe_legacyCnt cfg false 0x3#4 c1
  have e1 : c1.ifMode = .if8 → (c1.onStrobe cfg false 0x3#4).ifMode = .if8 := fun h => legacyStrobe_if8 h cfg
  set c2 := c1.onStrobe cfg false 0x3#4
  obtain ⟨d1, d2, d3, d4, d5⟩ := legacyStrobe_mode ho c2
  have l3 := onStrobe_legacyCnt cfg false 0x3#4 c2
  have e2 : c2.ifMode = .if8 → (c2.onStrobe cfg false 0x3#4).ifMode = .if8 := fun h => legacyStrobe_if8 h cfg
  have d5' := d5 (by rw [l3, l2, l1]; simp)
  have fin : ∀ P : Prop, (P ∨ (c2.onStrobe cfg false 0x3#4).ifMode = .unknown) → P := fun P h => h.resolve_right d5'
  cases h2 : c2.ifMode with
  | if8 => exact e2 h2
  | unknown => exact fin _ (d4 h2)
  | if4Lo =>
    have : c1.ifMode = .if4Hi := by
      cases h1 : c1.ifMode with
      | if4Hi => rfl
      | if8 => rw [e1 h1] at h2; cases h2
      | unknown => rcases b4 h1 with h | h <;> rw [h] at h2 <;> cases h2
      | if4Lo => exact absurd h2 (b2 h1)
    exact fin _ (d3 h2 (b1 this).2.1 (b1 this).2.2)
  | if4Hi =>
    -- c1 must be if4Lo having come from anything; then c2 in if4Hi is impossible
    exfalso
    cases h1 : c1.ifMode with
    | if4Hi => rw [(b1 h1).1] at h2; cases h2
    | if8 => rw [e1 h1] at h2; cases h2
    | unknown => rcases b4 h1 with h | h <;> rw [h] at h2 <;> cases h2
    | if4Lo =>
      cases h0 : c.ifMode with
      | if4Hi =>
        rcases b3 h1 (a1 h0).2.1 (a1 h0).2.2 with h | h <;> rw [h] at h2 <;> cases h2
      | if4Lo => exact a2 h0 h1
      | if8 =>
        have := legacyStrobe_if8 h0 cfg
        rw [show c.onStrobe cfg false 0x3#4 = c1 from rfl, h1] at this
        cases this
      | unknown => rcases a4 h0 with h | h <;> rw [h] at h1 <;> cases h1

/-! ## The switch nibble -/

/-- The lone switch nibble in `if8`. -/
theorem onStrobe_switch {c : CharRx} (h : c.ifMode = .if8) (cfg : Config) :
    c.onStrobe cfg false 0x2#4 = { c with legacyCnt := 0, ifMode := .if4Hi, chCfg := c.chCfg.functionLost } := by
  simp [CharRx.onStrobe, CharRx.countLegacy, CharRx.intake, h, CharRx.settleLegacy]

/-! ## The commands of a build -/

theorem commandOf_own {cfg : Config} {b : Byte} {k : CharCommand} (h : ownCommand cfg b = some k) :
    commandOf cfg b = k := by
  simp [commandOf, h]

/-- With the default command values the table is R57's. -/
theorem commandOf_standard {cfg : Config} (h : cfg.charCommandsStandard) (b : Byte) :
    commandOf cfg b = standardCommand b := by
  obtain ⟨h1, h2, h3, h4, h5, h6⟩ := h
  simp only [commandOf, ownCommand, keepsRow, h1, h2, h3, h4, h5, h6]
  revert b
  decide +kernel

theorem commandsLegal_of_standard {cfg : Config} (h : cfg.charCommandsStandard) :
    CommandsLegal cfg ∧ ownCommand cfg 0x33#8 = none := by
  obtain ⟨h1, h2, h3, h4, h5, h6⟩ := h
  simp only [CommandsLegal, ownCommand, h1, h2, h3, h4, h5, h6]
  decide

theorem commandOf_clear (cfg : Config) : commandOf cfg cfg.cmdClear = .clear := commandOf_own (by simp [ownCommand])

/-- The other plain commands of a legal build. -/
theorem commandOf_plain {cfg : Config} (h : CommandsLegal cfg) :
    commandOf cfg cfg.cmdEntry = .entryMode true false ∧
    commandOf cfg cfg.cmdDispon = .displayControl true false false ∧
    commandOf cfg cfg.cmdFuncset = .functionSet false true false := by
  have hn := h.1
  simp only [List.nodup_cons, List.mem_cons, List.not_mem_nil, or_false, not_or, not_false_eq_true,
    List.nodup_nil, and_true] at hn
  obtain ⟨⟨n1, n2, n3⟩, ⟨n4, n5⟩, n6⟩ := hn
  refine ⟨commandOf_own ?_, commandOf_own ?_, commandOf_own ?_⟩ <;>
    simp [ownCommand, Ne.symm n1, Ne.symm n2, Ne.symm n3, Ne.symm n4, Ne.symm n5, Ne.symm n6]

theorem cgram_base : ∀ b : Byte, b &&& 0x3F#8 = 0#8 → b = 0x00#8 ∨ b = 0x40#8 ∨ b = 0x80#8 ∨ b = 0xC0#8 := by decide

theorem ddram_base : ∀ b : Byte, b &&& 0x7F#8 = 0#8 → b = 0x00#8 ∨ b = 0x80#8 := by decide

/-- The glyph address command of a legal base, read back. -/
theorem isAddress_cgram {base : Byte} (h : base &&& 0x3F#8 = 0#8) {a : Byte} (ha : a.toNat ≤ 0x3F) :
    isAddress base 0x3F#8 (base ||| a) = true ∧
      ((base ||| a) &&& ~~~base).extractLsb' 0 6 = BitVec.ofNat 6 a.toNat := by
  rcases cgram_base base h with rfl | rfl | rfl | rfl <;> revert a <;> decide

/-- The cell address command of a legal base, read back. -/
theorem isAddress_ddram {base : Byte} (h : base &&& 0x7F#8 = 0#8) {a : Byte} (ha : a.toNat ≤ 0x7F) :
    isAddress base 0x7F#8 (base ||| a) = true ∧
      ((base ||| a) &&& ~~~base).extractLsb' 0 7 = BitVec.ofNat 7 a.toNat := by
  rcases ddram_base base h with rfl | rfl <;> revert a <;> decide

/-- A cell address command is no glyph address command. -/
theorem isAddress_apart {g d : Byte} (hg : g &&& 0x3F#8 = 0#8) (hd : d &&& 0x7F#8 = 0#8)
    (h : isAddress d 0x7F#8 g = false) {a : Byte} (ha : a.toNat ≤ 0x7F) : isAddress g 0x3F#8 (d ||| a) = false := by
  revert h a
  rcases cgram_base g hg with rfl | rfl | rfl | rfl <;> rcases ddram_base d hd with rfl | rfl <;> decide

/-- A byte that is an address command of a legal build is none of the plain ones. -/
theorem ne_plain {cfg : Config} {base mask x : Byte} (hx : isAddress base mask x = true)
    (h : ∀ b ∈ [cfg.cmdClear, cfg.cmdEntry, cfg.cmdDispon, cfg.cmdFuncset], isAddress base mask b = false) :
    x ≠ cfg.cmdClear ∧ x ≠ cfg.cmdEntry ∧ x ≠ cfg.cmdDispon ∧ x ≠ cfg.cmdFuncset := by
  have key : ∀ b, isAddress base mask b = false → x ≠ b := by
    rintro b hf rfl
    exact absurd (hf.symm.trans hx) (by decide)
  simp only [List.forall_mem_cons] at h
  exact ⟨key _ h.1, key _ h.2.1, key _ h.2.2.1, key _ h.2.2.2.1⟩

theorem commandOf_glyphAddress {cfg : Config} (h : CommandsLegal cfg) {a : Byte} (ha : a.toNat ≤ 0x3F) :
    commandOf cfg (cfg.cmdCgram ||| a) = .glyphAddress (BitVec.ofNat 6 a.toNat) := by
  obtain ⟨e1, e2⟩ := isAddress_cgram h.2.1 ha
  obtain ⟨n1, n2, n3, n4⟩ := ne_plain e1 fun b hb => (h.2.2.2.1 b hb).1
  apply commandOf_own
  rw [ownCommand, if_neg n1, if_neg n2, if_neg n3, if_neg n4, if_pos e1, e2]

theorem commandOf_cellAddress {cfg : Config} (h : CommandsLegal cfg) {a : Byte} (ha : a.toNat ≤ 0x7F) :
    commandOf cfg (cfg.cmdDdram ||| a) = .cellAddress (BitVec.ofNat 7 a.toNat) := by
  obtain ⟨e1, e2⟩ := isAddress_ddram h.2.2.1 ha
  obtain ⟨n1, n2, n3, n4⟩ := ne_plain e1 fun b hb => (h.2.2.2.1 b hb).2
  have e3 := isAddress_apart h.2.1 h.2.2.1 h.2.2.2.2 ha
  apply commandOf_own
  rw [ownCommand, if_neg n1, if_neg n2, if_neg n3, if_neg n4, if_neg (by simp [e3]), if_pos e1, e2]

/-! ## The bytes of LCD.INIT -/

theorem onByte_funcset {c : CharRx} (h : c.ifMode = .if4Hi) {cfg : Config} (hc : CommandsLegal cfg) :
    ∃ k hn, c.onByte cfg false cfg.cmdFuncset = { c with
        legacyCnt := k, hiNib := hn, hiRs := .is false,
        chCfg := { c.chCfg with n := .is true, f := .is false } } :=
  ⟨_, _, by rw [onByte_listed h (commandOf_plain hc).2.2 (by simp)]; rfl⟩

theorem onByte_dispon {c : CharRx} (h : c.ifMode = .if4Hi) {cfg : Config} (hc : CommandsLegal cfg) :
    ∃ k hn, c.onByte cfg false cfg.cmdDispon = { c with
        legacyCnt := k, hiNib := hn, hiRs := .is false,
        chCfg := { c.chCfg with d := .is true, c := .is false, b := .is false } } :=
  ⟨_, _, by rw [onByte_listed h (commandOf_plain hc).2.1 (by simp)]; rfl⟩

theorem onByte_entry {c : CharRx} (h : c.ifMode = .if4Hi) {cfg : Config} (hc : CommandsLegal cfg) :
    ∃ k hn, c.onByte cfg false cfg.cmdEntry = { c with
        legacyCnt := k, hiNib := hn, hiRs := .is false,
        chCfg := { c.chCfg with id := .is true, s := .is false } } :=
  ⟨_, _, by rw [onByte_listed h (commandOf_plain hc).1 (by simp)]; rfl⟩

theorem onByte_clear {c : CharRx} (h : c.ifMode = .if4Hi) (cfg : Config) :
    ∃ k hn, c.onByte cfg false cfg.cmdClear = { c with
        legacyCnt := k, hiNib := hn, hiRs := .is false,
        ddram := Memory.fill 128 0x20#8, acSel := .is .ddram, ac := .is 0#7, chCfg := { c.chCfg with id := .is true } } :=
  ⟨_, _, by rw [onByte_listed h (commandOf_clear cfg) (by simp)]; rfl⟩

/-- The receiver after LCD.INIT with the default nibbles. -/
theorem lcdInit_lcd {s : State} (h7 : s.cfg.legacyNib = 0x3#4) (h8 : s.cfg.fourbitNib = some 0x2#4) :
    (performed .lcdInit s).lcd =
      (((((((s.lcd.onStrobe s.cfg false 3#4).onStrobe s.cfg false 3#4).onStrobe s.cfg false 3#4).onStrobe s.cfg false
          2#4).onByte s.cfg false s.cfg.cmdFuncset).onByte s.cfg false s.cfg.cmdDispon).onByte s.cfg false
          s.cfg.cmdEntry).onByte s.cfg false s.cfg.cmdClear := by
  simp only [performed, wireEvents, State.advance_lcd, lcdInitEvents, fourbitSwitch, emitAll_append,
      emitAll_lcd_lcdNibble, emitAll_lcd_lcdByte,
    emitAll_lcd_wait, emitAll_cfg, h7, h8]

/-! ## `CGRAM` under a command nibble -/

theorem perform_cgram (k : CharCommand) (c : CharRx) : (CharRx.perform k c).cgram = c.cgram ∨
    (CharRx.perform k c).cgram = Memory.lost := by
  cases k <;> first | exact .inl rfl | exact .inr rfl

theorem settle_cgram (c : CharRx) : c.settleLegacy.cgram = c.cgram := by
  unfold CharRx.settleLegacy; split <;> rfl

/-- No command nibble makes glyph memory known. -/
theorem onStrobe_command_cgram (cfg : Config) (n : Nibble) (c : CharRx) :
    (c.onStrobe cfg false n).cgram = c.cgram ∨ (c.onStrobe cfg false n).cgram = Memory.lost := by
  rw [CharRx.onStrobe, settle_cgram]
  unfold CharRx.intake
  simp only [CharRx.countLegacy, CharRx.deliver, Bool.false_eq_true, if_false]
  repeat' split
  all_goals first | exact .inl rfl | exact .inr rfl | exact perform_cgram ..

end Sys2Proof.Machine
end

