-- ==== Sys2Proof/Laws/CharSurface.lean ====
section
/-!
SUPPORT. The cell memory and the glyph memory under a list of data bytes (20_memory.md R58), and the cells of a row
(42_char_surface.md R160).
-/

namespace Sys2Proof.Machine

/-! ## The address order of the cell memory -/

/-- An address of the two lines. -/
abbrev OnLine (a : BitVec 7) : Prop := a.toNat ≤ 0x27 ∨ (0x40 ≤ a.toNat ∧ a.toNat ≤ 0x67)

/-- Its place in the order. -/
def lineIndex (a : BitVec 7) : Nat := if a.toNat < 0x28 then a.toNat else a.toNat - 0x18

theorem ddramNext_onLine : ∀ a : BitVec 7, OnLine a → OnLine (ddramNext a) ∧ lineIndex (ddramNext a) =
    (lineIndex a + 1) % 80 := by decide

theorem ddramNext_offLine : ∀ a : BitVec 7, ¬ OnLine a → OnLine (ddramNext a) ∨ (ddramNext a).toNat = a.toNat + 1 :=
    by decide

theorem ddramNext_iterate_onLine (k : Nat) (a : BitVec 7) (h : OnLine a) : OnLine (ddramNext^[k] a) ∧
    lineIndex (ddramNext^[k] a) = (lineIndex a + k) % 80 := by
  induction k with
  | zero =>
    refine ⟨h, ?_⟩
    have : ∀ a : BitVec 7, OnLine a → lineIndex a < 80 := by decide
    have := this a h
    simp; omega
  | succ k ih =>
    rw [Function.iterate_succ_apply']
    have := ddramNext_onLine _ ih.1
    refine ⟨this.1, ?_⟩
    rw [this.2, ih.2]; omega

theorem ddramNext_iterate_offLine (k : Nat) (a : BitVec 7) (_ : ¬ OnLine a) :
    OnLine (ddramNext^[k] a) ∨ (ddramNext^[k] a).toNat = a.toNat + k := by
  induction k with
  | zero => right; rfl
  | succ k ih =>
    rw [Function.iterate_succ_apply']
    rcases ih with ih | ih
    · exact .inl (ddramNext_onLine _ ih).1
    · by_cases ho : OnLine (ddramNext^[k] a)
      · exact .inl (ddramNext_onLine _ ho).1
      · rcases ddramNext_offLine _ ho with h1 | h1
        · exact .inl h1
        · right; omega

/-- Eighty steps pass before an address comes again. -/
theorem ddramNext_iterate_ne {k : Nat} (a : BitVec 7) (h0 : 0 < k) (hk : k < 80) : ddramNext^[k] a ≠ a := by
  intro he
  by_cases h : OnLine a
  · have := (ddramNext_iterate_onLine k a h).2
    rw [he] at this
    have hlt : ∀ a : BitVec 7, OnLine a → lineIndex a < 80 := by decide
    have := hlt a h
    omega
  · rcases ddramNext_iterate_offLine k a h with h1 | h1
    · rw [he] at h1; exact h h1
    · rw [he] at h1; omega

/-! ## Lists of data bytes -/

/-- What the receiver `r` holds after the bytes `p` were stored from cell address `a` on. -/
structure TextStored (cfg : Config) (p : List Byte) (a : BitVec 7) (c r : CharRx) : Prop where
  mode : r.ifMode = .if4Hi
  flags : r.chCfg = c.chCfg
  sel : r.acSel = .is .ddram
  ac : r.ac = .is (ddramNext^[p.length] a)
  cgram : r.cgram = c.cgram
  stored : ∀ k (h : k < p.length), Memory.read r.ddram (ddramNext^[k] a).toNat = .is p[k]
  kept : ∀ j, (∀ k < p.length, j ≠ (ddramNext^[k] a).toNat) → Memory.read r.ddram j = Memory.read c.ddram j

theorem text_stored (cfg : Config) (p : List Byte) (a : BitVec 7) (c : CharRx) (hm : c.ifMode = .if4Hi)
    (hl : c.chCfg.leftToRight = true) (hk : c.chCfg.known = true)
    (hs : c.acSel = .is .ddram) (ha : c.ac = .is a) (hp : p.length ≤ 80) :
    TextStored cfg p a c (p.foldl (fun c b => c.onByte cfg true b) c) := by
  induction p generalizing a c with
  | nil => exact ⟨hm, rfl, hs, ha, rfl, by simp, fun _ _ => rfl⟩
  | cons b p ih =>
    rw [List.foldl_cons, onByte_data_ddram hm hl hk hs ha]
    simp only [List.length_cons] at hp
    have t := ih (ddramNext a) { c with
        legacyCnt := 0, hiNib := .is (b.extractLsb' 4 4), hiRs := .is true
        ddram := Memory.write c.ddram a.toNat b, ac := .is (ddramNext a) } hm hl hk hs rfl (by omega)
    refine ⟨t.mode, t.flags, t.sel, t.ac, t.cgram, ?_, ?_⟩
    · intro k hk
      cases k with
      | zero =>
        have := t.kept a.toNat fun i hi => ?_
        · simp only [Function.iterate_zero, id, List.getElem_cons_zero]
          rw [this]; simp
        · intro he
          have he' := BitVec.eq_of_toNat_eq he
          have := ddramNext_iterate_ne (k := i + 1) a (by omega) (by omega)
          exact this he'.symm
      | succ k =>
        simp only [List.length_cons] at hk
        exact t.stored k (by omega)
    · intro j hj
      rw [t.kept j fun k hk => hj (k + 1) (by simp; omega)]
      have := hj 0 (by simp)
      exact Memory.read_write_other _ _ this

/-- The same in glyph memory. -/
structure GlyphStored (cfg : Config) (p : List Byte) (a : Nat) (c r : CharRx) : Prop where
  mode : r.ifMode = .if4Hi
  flags : r.chCfg = c.chCfg
  sel : r.acSel = .is .cgram
  ac : r.ac = .is (BitVec.ofNat 7 ((a + p.length) % 64))
  ddram : r.ddram = c.ddram
  stored : ∀ k (h : k < p.length), Memory.read r.cgram ((a + k) % 64) = .is (p[k] &&& 0x1F#8)
  kept : ∀ j, (∀ k < p.length, j ≠ (a + k) % 64) → Memory.read r.cgram j = Memory.read c.cgram j

theorem cgramNext_eq (a : BitVec 7) : cgramNext a = BitVec.ofNat 7 ((a.toNat + 1) % 64) := by revert a; decide

theorem glyph_stored (cfg : Config) (p : List Byte) (a : Nat) (c : CharRx) (hm : c.ifMode = .if4Hi)
    (hl : c.chCfg.leftToRight = true) (hk : c.chCfg.known = true)
    (hs : c.acSel = .is .cgram) (ha : c.ac = .is (BitVec.ofNat 7 (a % 64))) (hp : p.length ≤ 64) :
    GlyphStored cfg p a c (p.foldl (fun c b => c.onByte cfg true b) c) := by
  induction p generalizing a c with
  | nil => exact ⟨hm, rfl, hs, ha, rfl, by simp, fun _ _ => rfl⟩
  | cons b p ih =>
    rw [List.foldl_cons, onByte_data_cgram hm hl hk hs ha]
    simp only [List.length_cons] at hp
    have e1 : (BitVec.ofNat 7 (a % 64)).toNat = a % 64 := by simp; omega
    have e2 : cgramNext (BitVec.ofNat 7 (a % 64)) = BitVec.ofNat 7 ((a + 1) % 64) :=
        by rw [cgramNext_eq, e1]; congr 1; omega
    rw [e1, e2, Nat.mod_mod]
    have t := ih (a + 1) { c with
        legacyCnt := 0, hiNib := .is (b.extractLsb' 4 4), hiRs := .is true
        cgram := Memory.write c.cgram (a % 64) (b &&& 0x1F#8),
            ac := .is (BitVec.ofNat 7 ((a + 1) % 64)) } hm hl hk hs rfl (by omega)
    refine ⟨t.mode, t.flags, t.sel, ?_, t.ddram, ?_, ?_⟩
    · rw [t.ac, List.length_cons]; congr 3; omega
    · intro k hk
      cases k with
      | zero =>
        have := t.kept (a % 64) fun i hi => by omega
        simp only [Nat.add_zero, List.getElem_cons_zero]
        rw [this]; simp
      | succ k =>
        simp only [List.length_cons] at hk
        have := t.stored k (by omega)
        rw [show a + (k + 1) = a + 1 + k by omega]
        exact this
    · intro j hj
      rw [t.kept j fun k hk => by
        have := hj (k + 1) (by simp; omega)
        rwa [show a + (k + 1) = a + 1 + k by omega] at this]
      exact Memory.read_write_other _ _ (by have := hj 0 (by simp); simpa using this)

/-! ## The cursor and the cells of a row -/

/-- Every cell of a legal set of rows has a 7-bit address. -/
theorem cellAddr_le {s : State} (hl : s.cfg.rowsLegal) {row col : Byte} (hr : row.toNat ≤ 3)
    (hc : col.toNat ≤ s.cfg.cols.count - 1) :
    (rowBaseAt s.cfg.rowBase row).toNat + col.toNat ≤ 0x7F := by
  have h1 := hl.1
  simp only [List.forall_mem_cons] at h1
  have hn : 1 ≤ s.cfg.cols.count := by cases s.cfg.cols <;> simp [Columns.count]
  obtain ⟨g0, g1, g2, g3, -⟩ := h1
  unfold rowBaseAt
  split <;> omega

theorem rowsLegal_of_standard {s : State} (h : s.cfg.rowBase = RowBase.standard s.cfg.cols) : s.cfg.rowsLegal := by
  unfold Config.rowsLegal
  rw [h]; cases s.cfg.cols <;> decide

/-- The cells of a row are consecutive in the address order. -/
theorem ddramNext_in_row : ∀ c : Columns, ∀ row : Fin 4, ∀ col : Fin 20, col.1 + 1 < c.count →
    ddramNext (BitVec.ofNat 7 ((rowBaseAt (RowBase.standard c) (BitVec.ofNat 8 row.1)).toNat + col.1)) =
      BitVec.ofNat 7 ((rowBaseAt (RowBase.standard c) (BitVec.ofNat 8 row.1)).toNat + (col.1 + 1)) := by
  intro c; cases c <;> decide

theorem ddramNext_iterate_in_row (c : Columns) (row : Byte) (hr : row.toNat ≤ 3) (col k : Nat) (h : col + k < c.count) :
    ddramNext^[k] (BitVec.ofNat 7 ((rowBaseAt (RowBase.standard c) row).toNat + col)) =
      BitVec.ofNat 7 ((rowBaseAt (RowBase.standard c) row).toNat + (col + k)) := by
  induction k with
  | zero => rfl
  | succ k ih =>
    rw [Function.iterate_succ_apply', ih (by omega)]
    have hc : c.count ≤ 20 := by cases c <;> decide
    have := ddramNext_in_row c ⟨row.toNat, by omega⟩ ⟨col + k, by omega⟩ (by simpa using by omega)
    simpa [Nat.add_assoc] using this

theorem cellAddr_toNat {s : State} {row col : Byte} {k : Nat}
    (hl : (rowBaseAt s.cfg.rowBase row).toNat + (col.toNat + k) ≤ 0x7F) :
    (cellAddr s.cfg row (col + BitVec.ofNat 8 k)).toNat = (rowBaseAt s.cfg.rowBase row).toNat + (col.toNat + k) := by
  simp only [cellAddr, BitVec.toNat_add, BitVec.toNat_ofNat]; omega

theorem cell_mask {s : State} {row col : Byte} {k : Nat}
    (hl : (rowBaseAt s.cfg.rowBase row).toNat + (col.toNat + k) ≤ 0x7F) :
    (cellAddr s.cfg row (col + BitVec.ofNat 8 k) &&& 0x7F#8).toNat = (rowBaseAt s.cfg.rowBase row).toNat +
        (col.toNat + k) := by
  have : ∀ b : Byte, b.toNat ≤ 0x7F → (b &&& 0x7F#8).toNat = b.toNat := by decide
  rw [this _ (by rw [cellAddr_toNat hl]; exact hl), cellAddr_toNat hl]

/-- The command of CH.SETCUR is the build's cell address command. -/
theorem commandOf_cursor {s : State} (hc : CommandsLegal s.cfg) {row col : Byte}
    (h : (rowBaseAt s.cfg.rowBase row).toNat + col.toNat ≤ 0x7F) :
    commandOf s.cfg (cursorCommand s.cfg row col) =
      .cellAddress (BitVec.ofNat 7 ((rowBaseAt s.cfg.rowBase row).toNat + col.toNat)) := by
  have e := cell_mask (s := s) (row := row) (col := col) (k := 0) h
  rw [show col + BitVec.ofNat 8 0 = col by simp, Nat.add_zero] at e
  rw [cursorCommand, commandOf_cellAddress hc (by omega), e]

/-- The receiver after the position command of CH.SETCUR. -/
theorem onByte_cursor {s : State} (hr : s.charPaired) {row col : Byte}
    (h : (rowBaseAt s.cfg.rowBase row).toNat + col.toNat ≤ 0x7F) :
    ∃ k hn, s.lcd.onByte s.cfg false (cursorCommand s.cfg row col) = { s.lcd with
        legacyCnt := k, hiNib := hn,
        hiRs := .is false, acSel := .is .ddram, ac := .is (BitVec.ofNat 7 ((rowBaseAt s.cfg.rowBase row).toNat + col.toNat)) }
        :=
  ⟨_, _, by rw [onByte_listed hr.2 (commandOf_cursor hr.1 h) (by simp)]; rfl⟩

/-- The command of CH.GLYPH is the build's glyph address command. -/
theorem commandOf_glyph {cfg : Config} (hc : CommandsLegal cfg) {slot : Byte} (hs : slot.toNat ≤ 7) :
    commandOf cfg (glyphCommand cfg slot) = .glyphAddress (BitVec.ofNat 6 (8 * slot.toNat)) := by
  have e : (8#8 * slot).toNat = 8 * slot.toNat := by
    have : ∀ b : Byte, b.toNat ≤ 7 → (8#8 * b).toNat = 8 * b.toNat := by decide
    exact this slot hs
  rw [glyphCommand, commandOf_glyphAddress hc (by omega), e]

/-- The receiver after the address command of CH.GLYPH. -/
theorem onByte_glyph {s : State} (hr : s.charPaired) {slot : Byte} (hs : slot.toNat ≤ 7) :
    ∃ k hn, s.lcd.onByte s.cfg false (glyphCommand s.cfg slot) = { s.lcd with
        legacyCnt := k, hiNib := hn,
        hiRs := .is false, acSel := .is .cgram, ac := .is (BitVec.ofNat 7 (8 * slot.toNat % 64)) } :=
  ⟨_, _, by
    rw [onByte_listed hr.2 (commandOf_glyph hr.1 hs) (by simp)]
    have : ∀ n, n ≤ 7 → (BitVec.ofNat 6 (8 * n)).zeroExtend 7 = BitVec.ofNat 7 (8 * n % 64) := by decide
    simp only [CharRx.perform, this _ hs]
    rfl⟩

/-- What a position command and a text that fits in the row leave. -/
structure RowText (s : State) (row col : Byte) (text : List Byte) (r : CharRx) : Prop where
  mode : r.ifMode = .if4Hi
  flags : r.chCfg = s.lcd.chCfg
  cgram : r.cgram = s.lcd.cgram
  stored : ∀ k (h : k < text.length), Memory.read r.ddram (cellAddr s.cfg row (col + BitVec.ofNat 8 k) &&&
      0x7F#8).toNat = .is text[k]
  kept : ∀ j, (∀ k < text.length, j ≠ (cellAddr s.cfg row (col + BitVec.ofNat 8 k)).toNat) → Memory.read r.ddram j =
      Memory.read s.lcd.ddram j

theorem row_text {s : State} (hr : s.charReady) (hb : s.cfg.rowBase = RowBase.standard s.cfg.cols) {row col : Byte}
    (h1 : row.toNat ≤ 3)
    (h2 : col.toNat ≤ s.cfg.cols.count - 1) (text : List Byte) (h3 : col.toNat + text.length ≤ s.cfg.cols.count) :
    RowText s row col text (text.foldl (fun c b => c.onByte s.cfg true b)
        (s.lcd.onByte s.cfg false (cursorCommand s.cfg row col))) := by
  have hl := rowsLegal_of_standard hb
  have hle := cellAddr_le hl h1 h2
  have hcnt : 16 ≤ s.cfg.cols.count ∧ s.cfg.cols.count ≤ 20 := by cases s.cfg.cols <;> decide
  have hlast := cellAddr_le (col := BitVec.ofNat 8 (s.cfg.cols.count - 1)) hl h1 (by simp; omega)
  have hlast' : (rowBaseAt s.cfg.rowBase row).toNat + (s.cfg.cols.count - 1) ≤ 0x7F := by
    simpa [Nat.mod_eq_of_lt (show s.cfg.cols.count - 1 < 256 by omega)] using hlast
  obtain ⟨k, hn, e2⟩ := onByte_cursor hr.1 hle
  rw [e2]
  have t := text_stored s.cfg text (BitVec.ofNat 7 ((rowBaseAt s.cfg.rowBase row).toNat + col.toNat))
      { s.lcd with
      legacyCnt := k, hiNib := hn, hiRs := .is false, acSel := .is .ddram,
      ac := .is (BitVec.ofNat 7 ((rowBaseAt s.cfg.rowBase row).toNat + col.toNat)) } hr.1.2 hr.2.1 hr.2.2 rfl
      rfl (by omega)
  have ad : ∀ k < text.length, (ddramNext^[k] (BitVec.ofNat 7 ((rowBaseAt s.cfg.rowBase row).toNat + col.toNat))).toNat
      = (rowBaseAt s.cfg.rowBase row).toNat + (col.toNat + k) := by
    intro k hk
    have := ddramNext_iterate_in_row s.cfg.cols row h1 col.toNat k (by omega)
    rw [← hb] at this
    rw [this, BitVec.toNat_ofNat, Nat.mod_eq_of_lt (by omega)]
  refine ⟨t.mode, t.flags, t.cgram, fun k hk => ?_, fun j hj => ?_⟩
  · rw [cell_mask (by omega), ← ad k hk]; exact t.stored k hk
  · refine t.kept j fun k hk => ?_
    rw [ad k hk, ← cellAddr_toNat (by omega)]
    exact hj k hk

/-- The receiver after CH.GLYPH. -/
theorem glyph_lcd {s : State} (hr : s.charReady) {slot : Byte} (hs : slot.toNat ≤ 7) (rows : Bytes8) :
    (performed (.chGlyph slot rows) s).lcd = rows.toList.foldl (fun c b => c.onByte s.cfg true b)
        (s.lcd.onByte s.cfg false (glyphCommand s.cfg slot)) ∧
    GlyphStored s.cfg rows.toList (8 * slot.toNat) s.lcd (performed (.chGlyph slot rows) s).lcd := by
  have e : (performed (.chGlyph slot rows) s).lcd = rows.toList.foldl (fun c b => c.onByte s.cfg true b)
      (s.lcd.onByte s.cfg false (glyphCommand s.cfg slot)) := by
    simp only [performed, wireEvents, State.advance_lcd, emitAll_append, emitAll_lcd_lcdData, emitAll_lcd_lcdByte,
        emitAll_cfg]
  refine ⟨e, ?_⟩
  rw [e]
  obtain ⟨k, hn, e2⟩ := onByte_glyph hr.1 hs
  rw [e2]
  have h := glyph_stored s.cfg rows.toList (8 * slot.toNat) { s.lcd with
      legacyCnt := k, hiNib := hn, hiRs := .is false, acSel := .is .cgram,
      ac := .is (BitVec.ofNat 7 (8 * slot.toNat % 64)) } hr.1.2 hr.2.1 hr.2.2 rfl rfl (by simp [Bytes8.toList])
  exact ⟨h.mode, h.flags, h.sel, h.ac, h.ddram, h.stored, h.kept⟩

theorem putc_lcd (s : State) (c : Byte) : (performed (.chPutc c) s).lcd = s.lcd.onByte s.cfg true c := by
  simp only [performed, wireEvents, State.advance_lcd, emitAll_lcd_lcdByte]

end Sys2Proof.Machine
end

