-- ==== Sys2Proof/Laws/PixelWrites.lean ====
section
/-!
SUPPORT. The panel memory and the write position under transactions (20_memory.md R60) and under the pixel surface
(43_pixel_surface.md).
-/

namespace Sys2Proof.Machine

/-! ## One byte -/

/-- A data byte at a known position. -/
theorem data_at_position {p : PixelRx} {c : BitVec 7} {g : BitVec 3} (h1 : p.pxSync = true) (h2 : p.colPtr = .is c)
    (h3 : p.pagePtr = .is g) (b : Byte) :
    p.data b = PixelRx.setCol (c + 1#7) { p with gddram := Memory.write p.gddram (gddramAddr g.toNat c.toNat) b } := by
  simp [PixelRx.data, h1, h2, h3]

@[simp] theorem colPtr_setCol (c : BitVec 7) (p : PixelRx) : (PixelRx.setCol c p).colPtr = .is c := by
  have : ∀ c : BitVec 7, (c.extractLsb' 4 3 ++ c.extractLsb' 0 4 : BitVec (3 + 4)) = c := by decide
  simp [PixelRx.colPtr, PixelRx.setCol, this]

@[simp] theorem colPtr_closed (st : Stream) (p : PixelRx) : (p.closed st).colPtr = p.colPtr := rfl

theorem colPtr_succ (c : BitVec 7) : c + 1#7 = BitVec.ofNat 7 ((c.toNat + 1) % 128) := by
  revert c; decide

/-- A data byte without one. -/
theorem data_lost {p : PixelRx} (h : p.pxSync = false ∨ p.colPtr = .unspecified ∨ p.pagePtr = .unspecified) (b : Byte) :
    (p.data b) = { p with gddram := Memory.lost } := by
  unfold PixelRx.data
  split
  · simp_all
  · rfl

theorem closed_command (cfg : Config) (st : Stream) (b : Byte) (q : PixelRx) :
    (PixelRx.command cfg b (q.closed st)).closed st = (PixelRx.command cfg b q).closed st := by
  simp only [PixelRx.command, PixelRx.closed, PixelRx.havoc, PixelRx.place]
  repeat' split
  all_goals rfl

theorem closed_data (st : Stream) (b : Byte) (q : PixelRx) : ((q.closed st).data b).closed st = (q.data b).closed st :=
    by
  simp only [PixelRx.data, PixelRx.closed, PixelRx.colPtr]
  split <;> simp_all [PixelRx.setCol]

/-! ## OLED.CMD and OLED.DAT -/

theorem emitAll_cmd {s : State} (b : Byte) (hb : s.px.bits.length < 8) :
    emitAll (oledCmdEvents s.cfg b) s =
      { s with
        lines := { s.lines with scl := true, sda := true }
        trace := s.trace ++ oledCmdEvents s.cfg b
        px := (s.px.command s.cfg b).closed .command } := emitAll_command_xfer [b] hb

theorem emitAll_dat {s : State} (hc : s.cfg.ctlCmd ≠ s.cfg.ctlDat) (b : Byte) (hb : s.px.bits.length < 8) :
    emitAll (oledDatEvents s.cfg b) s =
      { s with
        lines := { s.lines with scl := true, sda := true }
        trace := s.trace ++ oledDatEvents s.cfg b
        px := (s.px.data b).closed .data } := emitAll_data_xfer hc [b] hb

/-- What the receiver holds after command bytes does not depend on the transactions they come in. -/
theorem foldl_closed_command (cfg : Config) (bs : List Byte) {q r : PixelRx}
    (h : q.closed .command = r.closed .command) :
    (bs.foldl (fun q b => q.command cfg b) q).closed .command =
      (bs.foldl (fun q b => q.command cfg b) r).closed .command := by
  induction bs generalizing q r with
  | nil => exact h
  | cons b bs ih => exact ih (by rw [← closed_command, h, closed_command])

/-- A list of command bytes, each in a transaction of its own. -/
theorem emitAll_cmds (bs : List Byte) {s : State} (hb : s.px.bits.length < 8) (hne : bs ≠ []) :
    emitAll (bs.flatMap (oledCmdEvents s.cfg)) s =
      { s with
        lines := { s.lines with scl := true, sda := true }
        trace := s.trace ++ bs.flatMap (oledCmdEvents s.cfg)
        px := (bs.foldl (fun q b => q.command s.cfg b) s.px).closed .command } := by
  induction bs generalizing s with
  | nil => exact absurd rfl hne
  | cons b bs ih =>
    rw [List.flatMap_cons, emitAll_append, emitAll_cmd b hb]
    by_cases hn : bs = []
    · subst hn; simp
    · have := ih (s := { s with
        lines := { s.lines with scl := true, sda := true }
        trace := s.trace ++ oledCmdEvents s.cfg b
        px := (s.px.command s.cfg b).closed .command }) (Nat.zero_lt_succ 7) hn
      rw [this]
      simp only [List.append_assoc, List.foldl_cons]
      congr 1
      exact foldl_closed_command s.cfg bs rfl

/-- A list of OLED.CMD operations. -/
theorem execAll_cmds (bs : List Byte) {s : State} (hb : s.px.bits.length < 8) (hne : bs ≠ []) :
    ∃ u, execAll (bs.map Instr.oledCmd) s = .next u ∧ u.px = (bs.foldl (fun q b => q.command s.cfg b) s.px).closed
        .command ∧
      u.lines = { s.lines with scl := true, sda := true } := by
  induction bs generalizing s with
  | nil => exact absurd rfl hne
  | cons b bs ih =>
    have e : performed (.oledCmd b) s = State.advance 2 { s with
        lines := { s.lines with scl := true, sda := true }
        trace := s.trace ++ oledXfer s.cfg s.cfg.ctlCmd [b]
        px := (s.px.command s.cfg b).closed .command } := by
      simp only [performed, wireEvents, oledCmdEvents, emitAll_command_xfer [b] hb]; rfl
    rw [List.map_cons, execAll_cons rfl, e]
    by_cases hn : bs = []
    · subst hn
      exact ⟨_, rfl, rfl, rfl⟩
    · obtain ⟨u, h1, h2, h3⟩ := ih (s := State.advance 2 { s with
        lines := { s.lines with scl := true, sda := true }
        trace := s.trace ++ oledXfer s.cfg s.cfg.ctlCmd [b]
        px := (s.px.command s.cfg b).closed .command }) (Nat.zero_lt_succ 7) hn
      exact ⟨u, h1, by rw [h2]; exact foldl_closed_command s.cfg bs rfl, h3⟩

/-- A list of OLED.DAT operations. -/
theorem execAll_dats (bs : List Byte) {s : State} (hc : s.cfg.ctlCmd ≠ s.cfg.ctlDat) (hb : s.px.bits.length < 8)
    (hne : bs ≠ []) :
    ∃ u, execAll (bs.map Instr.oledDat) s = .next u ∧ u.px = (bs.foldl (fun q b => q.data b) s.px).closed .data ∧
      u.lines = { s.lines with scl := true, sda := true } := by
  induction bs generalizing s with
  | nil => exact absurd rfl hne
  | cons b bs ih =>
    have e : performed (.oledDat b) s = State.advance 2 { s with
        lines := { s.lines with scl := true, sda := true }
        trace := s.trace ++ oledXfer s.cfg s.cfg.ctlDat [b]
        px := (s.px.data b).closed .data } := by
      simp only [performed, wireEvents, oledDatEvents, emitAll_data_xfer hc [b] hb]; rfl
    rw [List.map_cons, execAll_cons rfl, e]
    by_cases hn : bs = []
    · subst hn
      exact ⟨_, rfl, rfl, rfl⟩
    · obtain ⟨u, h1, h2, h3⟩ := ih (s := State.advance 2 { s with
        lines := { s.lines with scl := true, sda := true }
        trace := s.trace ++ oledXfer s.cfg s.cfg.ctlDat [b]
        px := (s.px.data b).closed .data }) hc (Nat.zero_lt_succ 7) hn
      refine ⟨u, h1, ?_, h3⟩
      rw [h2]
      simp only [State.advance_px, List.foldl_cons]
      generalize s.px.data b = q
      have key : ∀ (bs : List Byte) (q q' : PixelRx), q.closed .data = q'.closed .data →
          (bs.foldl (fun q b => q.data b) q).closed .data = (bs.foldl (fun q b => q.data b) q').closed .data := by
        intro bs
        induction bs with
        | nil => intro q q' h; exact h
        | cons b bs ih => intro q q' h; exact ih _ _ (by rw [← closed_data, h, closed_data])
      exact key bs _ _ rfl

/-! ## OLED.INIT -/

/-- Bytes that are not fed through R60 store nothing. -/
theorem muted_gddram (es : List Event) (s : State) : (emitAllVia (fun _ p => p) es s).px.gddram = s.px.gddram := by
  induction es generalizing s with
  | nil => rfl
  | cons e es ih =>
    rw [emitAllVia_cons, ih]
    simp only [emitVia_px, PixelRx.observe]
    repeat' split
    all_goals first | rfl | skip
    simp only [PixelRx.takeBit]
    repeat' split
    all_goals rfl

theorem muted_busIdle (c : Config) (bs : List Byte) (s : State) (h : bs ≠ []) :
    (emitAllVia (fun _ p => p) (bs.flatMap (oledCmdEvents c)) s).busIdle := by
  induction bs generalizing s with
  | nil => exact absurd rfl h
  | cons b bs ih =>
    rw [List.flatMap_cons, emitAllVia_append]
    by_cases hb : bs = []
    · subst hb
      have stop : ∀ s : State, s.lines.scl = false → (emitAllVia (fun _ p => p) (i2cStop c.tI2c) s).busIdle := by
        intro s hs; rw [emitAllVia_i2cStop _ _ hs]; exact ⟨rfl, rfl, rfl, rfl⟩
      have e : oledCmdEvents c b = (i2cStart c.tI2c ++ i2cWriteByte c.tI2c c.i2cAddr ++ i2cWriteByte c.tI2c c.ctlCmd ++
        i2cWriteByte c.tI2c b) ++ i2cStop c.tI2c := by simp [oledCmdEvents, oledXfer]
      rw [List.flatMap_nil, emitAllVia_nil, e, emitAllVia_append]
      apply stop
      rw [emitAllVia_lines, linesAfter_append, linesAfter_i2cWriteByte]
    · exact ih _ hb

/-! ## PX.SETPOS -/

/-- Position commands one after the other, from a receiver that has taken some already. -/
theorem place_place (e f : PosEffect) (p : PixelRx) : (p.place e).place f = p.place (laterPosition e f) := by
  obtain ⟨e1, e2, e3⟩ := e
  obtain ⟨f1, f2, f3⟩ := f
  cases f1 <;> cases f2 <;> cases f3 <;> rfl

/-- A list of position commands sets what `positionsOf` says. -/
theorem foldl_positions (cfg : Config) (bs : List Byte) (e : PosEffect) (h : positionsOf cfg bs = some e) (p : PixelRx) :
    bs.foldl (fun q b => q.command cfg b) p = p.place e := by
  induction bs generalizing e p with
  | nil =>
    obtain rfl := Option.some.inj h
    rfl
  | cons b bs ih =>
    simp only [positionsOf] at h
    split at h
    · next f g h1 h2 =>
      obtain rfl := Option.some.inj h
      rw [List.foldl_cons, ih g h2, ← place_place]
      simp only [PixelRx.command, h1]
    · cases h

/-- The default position rows match the default `PX_SETPOS` (R181). -/
theorem setposMatched_of_standard {c : Config} (h : c.pxSetpos = .standard) : SetposMatched c := by
  simp only [SetposMatched, setposBytes, h, positionsOf, positionOf]
  decide +kernel

/-- The receiver after the three position commands. -/
def PixelRx.positioned (x page : Byte) (p : PixelRx) : PixelRx :=
  { p with
           busCond := .idle, bits := [], phase := .payload, addressed := .is true, stream := .is .command,
           pagePtr := .is (BitVec.ofNat 3 page.toNat), colLo := .is (x.extractLsb' 0 4),
               colHi := .is (x.extractLsb' 4 3) }

theorem emitAll_setpos {s : State} (h : SetposMatched s.cfg) (hb : s.px.bits.length < 8) {x page : Byte}
    (hx : x.toNat ≤ 127) (hp : page.toNat ≤ 7) :
    emitAll (setposEvents s.cfg x page) s =
      { s with
        lines := { s.lines with scl := true, sda := true }
        trace := s.trace ++ setposEvents s.cfg x page
        px := PixelRx.positioned x page s.px } := by
  have hm := h x.toNat (by omega) page.toNat (by omega)
  simp only [BitVec.ofNat_toNat, BitVec.setWidth_eq] at hm
  have hne : setposBytes s.cfg x page ≠ [] := by
    intro h0
    rw [h0, positionsOf] at hm
    cases hm
  have e : ∀ x : Byte, x.toNat ≤ 127 → BitVec.setWidth 4 x = x.extractLsb' 0 4 ∧
      BitVec.ofNat 3 (x.toNat / 16) = x.extractLsb' 4 3 := by decide
  have e1 : BitVec.setWidth 3 page = BitVec.ofNat 3 page.toNat := by simp
  rw [setposEvents, emitAll_cmds _ hb hne, foldl_positions _ _ _ hm, (e x hx).1, (e x hx).2, e1]
  rfl

theorem column_join (x : Byte) (hx : x.toNat ≤ 127) : (x.extractLsb' 4 3 ++ x.extractLsb' 0 4 : BitVec (3 + 4)) =
    BitVec.ofNat 7 x.toNat := by
  have : ∀ x : Byte, x.toNat ≤ 127 → (x.extractLsb' 4 3 ++ x.extractLsb' 0 4 : BitVec (3 + 4)) =
      BitVec.ofNat 7 x.toNat := by decide
  exact this x hx

theorem colPtr_positioned (x page : Byte) (hx : x.toNat ≤ 127) (p : PixelRx) : (PixelRx.positioned x page p).colPtr =
    .is (BitVec.ofNat 7 x.toNat) := by
  simp only [PixelRx.colPtr, PixelRx.positioned]
  rw [column_join x hx]

/-! ## Columns -/

/-- What the receiver `r` holds after the columns `p` were stored from `(c, g)` on. -/
structure ColumnsStored (p : List Byte) (c g : Nat) (q r : PixelRx) : Prop where
  sync : r.pxSync = true
  on : r.pxOn = q.pxOn
  page : r.pagePtr = .is (BitVec.ofNat 3 g)
  col : r.colPtr = .is (BitVec.ofNat 7 ((c + p.length) % 128))
  stored : ∀ k (h : k < p.length), Memory.read r.gddram (gddramAddr g (c + k)) = .is p[k]
  kept : ∀ a, (∀ k < p.length, a ≠ 128 * g + (c + k)) → Memory.read r.gddram a = Memory.read q.gddram a

theorem columns_stored {s : State} (hc : s.cfg.ctlCmd ≠ s.cfg.ctlDat) (p : List Byte) {c g : Nat}
    (hb : s.px.bits = []) (hbus : s.px.busCond = .idle)
    (hl : s.lines.scl = true ∧ s.lines.sda = true)
    (h1 : s.px.pxSync = true) (h2 : s.px.colPtr = .is (BitVec.ofNat 7 (c % 128)))
        (h3 : s.px.pagePtr = .is (BitVec.ofNat 3 g)) (hg : g < 8) (hcp : c + p.length ≤ 128) :
    ColumnsStored p c g s.px (emitAll (columnEvents s.cfg p) s).px ∧ (emitAll (columnEvents s.cfg p) s).busIdle := by
  induction p generalizing s c with
  | nil => exact ⟨⟨h1, rfl, h3, h2, by simp, fun _ _ => rfl⟩, hl.1, hl.2, hbus, hb⟩
  | cons b p ih =>
    have e : columnEvents s.cfg (b :: p) = oledDatEvents s.cfg b ++ columnEvents s.cfg p := rfl
    simp only [List.length_cons] at hcp
    rw [e, emitAll_append, emitAll_dat hc b (by rw [hb]; decide), data_at_position h1 h2 h3]
    have ec : (BitVec.ofNat 7 (c % 128)).toNat = c := by simp; omega
    have eg : (BitVec.ofNat 3 g).toNat = g := by simp; omega
    have en : BitVec.ofNat 7 (c % 128) + 1#7 = BitVec.ofNat 7 ((c + 1) % 128) := by rw [colPtr_succ, ec]
    rw [ec, eg, en]
    have t := ih (s := { s with
        lines := { s.lines with scl := true, sda := true }
        trace := s.trace ++ oledDatEvents s.cfg b
        px := (PixelRx.setCol (BitVec.ofNat 7 ((c + 1) % 128)) { s.px with
            gddram :=
            Memory.write s.px.gddram (gddramAddr g c) b }).closed .data })
        (c := c + 1) hc rfl rfl ⟨rfl, rfl⟩ h1 (by simp) h3 (by omega)
    refine ⟨⟨t.1.sync, t.1.on, t.1.page, ?_, ?_, ?_⟩, t.2⟩
    · rw [t.1.col, List.length_cons, show c + 1 + p.length = c + (p.length + 1) by omega]
    · intro k hk
      cases k with
      | zero =>
        simp only [Nat.add_zero, List.getElem_cons_zero]
        rw [t.1.kept _ fun k hk => by simp only [gddramAddr]; omega]
        show Memory.read (Memory.write _ _ _) _ = _
        simp
      | succ k =>
        simp only [List.length_cons] at hk
        rw [show c + (k + 1) = c + 1 + k by omega]
        exact t.1.stored k (by omega)
    · intro a ha
      rw [t.1.kept a fun k hk => by have := ha (k + 1) (by simp; omega); omega]
      show Memory.read (Memory.write _ _ _) _ = _
      exact Memory.read_write_other _ _ (by have := ha 0 (by simp); simpa [gddramAddr] using this)

/-- A position and then columns. -/
theorem block_stored {s : State} (hr : s.pixelReady) {x page : Byte} (hx : x.toNat ≤ 127) (hp : page.toNat ≤ 7)
    (p : List Byte) (hxp : x.toNat + p.length ≤ 128) :
    ColumnsStored p x.toNat page.toNat s.px (emitAll (setposEvents s.cfg x page ++ columnEvents s.cfg p) s).px ∧
    (emitAll (setposEvents s.cfg x page ++ columnEvents s.cfg p) s).busIdle := by
  obtain ⟨⟨hc, hs⟩, h1, hb⟩ := hr
  rw [emitAll_append, emitAll_setpos hs hb hx hp]
  have := columns_stored (s := { s with
        lines := { s.lines with scl := true, sda := true }
        trace := s.trace ++ setposEvents s.cfg x page
        px := PixelRx.positioned x page s.px }) hc p (c := x.toNat) (g := page.toNat) rfl rfl ⟨rfl,
            rfl⟩ h1 (by rw [Nat.mod_eq_of_lt (by omega)]; exact colPtr_positioned x page hx _) rfl (by omega) hxp
  exact ⟨⟨this.1.sync, this.1.on, this.1.page, this.1.col, this.1.stored, this.1.kept⟩, this.2⟩

theorem blit_stored {s : State} (hr : s.pixelReady) {x page : Byte} (hx : x.toNat ≤ 120) (hp : page.toNat ≤ 7)
    (p : Bytes8) :
    ColumnsStored p.toList x.toNat page.toNat s.px (emitAll (blitEvents s.cfg x page p) s).px ∧
    (emitAll (blitEvents s.cfg x page p) s).busIdle :=
  block_stored hr (by omega) hp p.toList (by have : p.toList.length = 8 := rfl; omega)

theorem clearPage_stored {s : State} (hr : s.pixelReady) {page : Byte} (hp : page.toNat ≤ 7) :
    ColumnsStored (List.replicate 128 0#8) 0 page.toNat s.px (emitAll (clearPageEvents s.cfg page) s).px ∧
    (emitAll (clearPageEvents s.cfg page) s).busIdle :=
  block_stored hr (x := 0#8) (by decide) hp (List.replicate 128 0#8) (by rw [List.length_replicate]; decide)

/-- The first `n` pages of PX.CLEAR. -/
theorem clearPages (n : Nat) (hn : n ≤ 8) {s : State} (hr : s.pixelReady) (h0 : 0 < n) :
    let u := emitAll ((List.range n).flatMap fun p => clearPageEvents s.cfg (BitVec.ofNat 8 p)) s
    u.pixelReady ∧ u.busIdle ∧ u.px.pxOn = s.px.pxOn ∧ u.px.pagePtr = .is (BitVec.ofNat 3 (n - 1)) ∧ u.px.colPtr =
        .is 0#7 ∧
      (∀ page < n, ∀ x < 128, u.column page x = .is 0#8) := by
  induction n with
  | zero => omega
  | succ n ih =>
    simp only [List.range_succ, List.flatMap_append, List.flatMap_cons, List.flatMap_nil, List.append_nil,
        emitAll_append]
    have step : ∀ v : State, v.cfg = s.cfg → v.pixelReady →
        ColumnsStored (List.replicate 128 0#8) 0 n v.px (emitAll (clearPageEvents s.cfg (BitVec.ofNat 8 n)) v).px ∧
        (emitAll (clearPageEvents s.cfg (BitVec.ofNat 8 n)) v).busIdle := by
      intro v hv hrv
      have e : (BitVec.ofNat 8 n).toNat = n := by simp; omega
      have := clearPage_stored hrv (page := BitVec.ofNat 8 n) (by omega)
      rw [hv, e] at this
      exact this
    by_cases hz : n = 0
    · subst hz
      simp only [List.range_zero, List.flatMap_nil, emitAll_nil]
      obtain ⟨t, tb⟩ := step s rfl hr
      have hcol := t.col
      simp only [List.length_replicate] at hcol
      refine ⟨⟨by rw [emitAll_cfg]; exact hr.1, t.sync, by rw [tb.2.2.2]; decide⟩, tb, t.on, t.page, hcol, ?_⟩
      intro page hp x hx
      obtain rfl : page = 0 := by omega
      have := t.stored x (by simpa using hx)
      rw [List.getElem_replicate, Nat.zero_add] at this; exact this
    · obtain ⟨r1, r2, r3, r4, r5, r6⟩ := ih (by omega) (by omega)
      generalize hv : emitAll ((List.range n).flatMap fun p => clearPageEvents s.cfg (BitVec.ofNat 8 p)) s = v at *
      have hcfg : v.cfg = s.cfg := by rw [← hv, emitAll_cfg]
      obtain ⟨t, tb⟩ := step v hcfg r1
      have hcol := t.col
      simp only [List.length_replicate] at hcol
      refine ⟨⟨by rw [emitAll_cfg]; exact r1.1, t.sync, by rw [tb.2.2.2]; decide⟩, tb, t.on.trans r3, t.page, hcol, ?_⟩
      intro page hp x hx
      by_cases hpn : page = n
      · subst hpn
        have := t.stored x (by simpa using hx)
        rw [List.getElem_replicate, Nat.zero_add] at this; exact this
      · have := t.kept (gddramAddr page x) fun k hk => by
          rw [List.length_replicate] at hk; simp only [gddramAddr]; omega
        rw [State.column, this]
        exact r6 page (by omega) x hx

end Sys2Proof.Machine
end

