-- ==== Sys2Proof/Laws/Decimal.lean ====
section
/-!
SUPPORT. The digits of the decimal renderer (44_decimal_renderer.md R201, R202), and the blits of a list of digits.
-/

namespace Sys2Proof.Machine

theorem decimalValue_append (ds : List Nat) (d : Nat) : decimalValue (ds ++ [d]) = 10 * decimalValue ds + d := by
  simp [decimalValue]

/-- The digits have the value they came from. -/
theorem digitsLow_value (fuel v : Nat) (h : v < 10 ^ fuel) : decimalValue (digitsLow fuel v).reverse = v := by
  induction fuel generalizing v with
  | zero => have : v = 0 := by simpa using h
            subst this; rfl
  | succ n ih =>
    rw [digitsLow]
    split
    · next h0 => subst h0; rfl
    · rw [List.reverse_cons, decimalValue_append, ih _ (by rw [pow_succ] at h; omega)]; omega

theorem digitsLow_length (fuel v : Nat) : (digitsLow fuel v).length ≤ fuel := by
  induction fuel generalizing v with
  | zero => simp [digitsLow]
  | succ n ih => rw [digitsLow]; split <;> simp [ih]

theorem digitsLow_le (fuel v : Nat) : ∀ d ∈ digitsLow fuel v, d ≤ 9 := by
  induction fuel generalizing v with
  | zero => simp [digitsLow]
  | succ n ih =>
    rw [digitsLow]; split
    · simp
    · intro d hd
      rcases List.mem_cons.1 hd with rfl | hd
      · omega
      · exact ih _ d hd

/-- The most significant digit is not 0. -/
theorem digitsLow_last (fuel v : Nat) (h : v < 10 ^ fuel) : (digitsLow fuel v).getLast? ≠ some 0 := by
  induction fuel generalizing v with
  | zero => simp [digitsLow]
  | succ n ih =>
    rw [digitsLow]; split
    · simp
    · next h0 =>
      have hlt : v / 10 < 10 ^ n := by rw [pow_succ] at h; omega
      have hi := ih _ hlt
      by_cases hv : v / 10 = 0
      · have : digitsLow n (v / 10) = [] := by rw [hv]; cases n <;> simp [digitsLow]
        rw [this]; simp; omega
      · have : digitsLow n (v / 10) ≠ [] := by
          cases n with
          | zero => simp at hlt; omega
          | succ n => simp [digitsLow, hv]
        rw [List.getLast?_cons, ]
        cases hh : (digitsLow n (v / 10)).getLast? with
        | none => simp [List.getLast?_eq_none_iff] at hh; exact absurd hh this
        | some k => rw [hh] at hi; simpa using hi

theorem toNat_digitCode (d : Nat) (h : d ≤ 9) : (digitCode d).toNat = 0x30 + d := by
  simp [digitCode]; omega

/-- One font block for each digit. -/
theorem blits_stored (ds : List Nat) {s : State} (hr : s.pixelReady) (hi : s.px.bits = [] → True) {x page : Byte}
    (hx : x.toNat + 8 * ds.length ≤ 128) (hp : page.toNat ≤ 7) (h0 : ds ≠ []) :
    let t := emitAll (digitBlits s.cfg x page ds) s
    t.pixelReady ∧ t.busIdle ∧ t.px.pxOn = s.px.pxOn ∧ t.px.pagePtr = .is (BitVec.ofNat 3 page.toNat) ∧
      t.px.colPtr = .is (BitVec.ofNat 7 ((x.toNat + 8 * ds.length) % 128)) ∧
      (∀ k d, ds[k]? = some d → ∀ i b, (glyphOf s.cfg.digitFont d).toList[i]? = some b →
          t.column page.toNat (x.toNat + 8 * k + i) = .is b) ∧
      (∀ a, (∀ i < 8 * ds.length, a ≠ 128 * page.toNat + (x.toNat + i)) → Memory.read t.px.gddram a =
          Memory.read s.px.gddram a) := by
  induction ds generalizing s x with
  | nil => exact absurd rfl h0
  | cons d ds ih =>
    simp only [List.length_cons] at hx
    simp only [digitBlits, emitAll_append]
    obtain ⟨t, tb⟩ := blit_stored hr (x := x) (by omega) hp (glyphOf s.cfg.digitFont d)
    have hlen : (glyphOf s.cfg.digitFont d).toList.length = 8 := rfl
    have hcfg := emitAll_cfg (blitEvents s.cfg x page (glyphOf s.cfg.digitFont d)) s
    generalize emitAll (blitEvents s.cfg x page (glyphOf s.cfg.digitFont d)) s = u at *
    have hu : u.pixelReady := ⟨by rw [hcfg]; exact hr.1, t.sync, by rw [tb.2.2.2]; exact Nat.zero_lt_succ 7⟩
    have first : ∀ i b, (glyphOf s.cfg.digitFont d).toList[i]? = some b → u.column page.toNat (x.toNat + i) = .is b :=
        by
      intro i b hb
      obtain ⟨hlt, rfl⟩ := List.getElem?_eq_some_iff.1 hb
      exact t.stored i hlt
    by_cases hn : ds = []
    · subst hn
      simp only [digitBlits, emitAll_nil]
      refine ⟨hu, tb, t.on, t.page, by rw [t.col, hlen]; rfl, ?_, ?_⟩
      · intro k e hk i b hb
        cases k with
        | zero => simp at hk; subst hk; exact first i b hb
        | succ k => simp at hk
      · intro a ha
        exact t.kept a fun k hk => ha k (by simpa using by omega)
    · have h8 : (x + digitPitch).toNat = x.toNat + 8 := by simp [digitPitch]; omega
      obtain ⟨r1, r2, r3, r4, r5, r6, r7⟩ := ih hu (by simp) (x := x + digitPitch) (by rw [h8]; omega) hn
      rw [hcfg] at r1 r2 r3 r4 r5 r6 r7
      refine ⟨r1, r2, r3.trans t.on, r4, ?_, ?_, ?_⟩
      · rw [r5, h8, List.length_cons, show x.toNat + 8 + 8 * ds.length = x.toNat + 8 * (ds.length + 1) by omega]
      · intro k e hk i b hb
        cases k with
        | zero =>
          simp at hk; subst hk
          rw [State.column, r7]
          · exact first i b hb
          · intro j hj
            have : i < 8 := hlen ▸ (List.getElem?_eq_some_iff.1 hb).1
            rw [h8]; simp only [gddramAddr]; omega
        | succ k =>
          have := r6 k e (by simpa using hk) i b hb
          rw [h8] at this
          rw [show x.toNat + 8 * (k + 1) + i = x.toNat + 8 + 8 * k + i by omega]; exact this
      · intro a ha
        rw [r7 a fun i hi => by rw [h8]; have := ha (i + 8) (by simp; omega); omega]
        exact t.kept a fun k hk => ha k (by simp; omega)

theorem pxNum_in {x page : Byte} {v : Value} (c : Columns) (hx : x.toNat ≤ 96) (hp : page.toNat ≤ 7)
    (hv : v.toNat ≤ 9999) : (Instr.pxNum x page v).inRange c = true := by
  simp [Instr.inRange, hx, hp, hv]

/-- A font of different entries gives the digit back (R210). -/
theorem digitOf_glyph {f : DigitFont} (hf : f.distinct) {d : Nat} (hd : d ≤ 9) : digitOf f (glyphOf f d) = some d := by
  have hg : f.toList[d]? = some (glyphOf f d) := by
    interval_cases d <;> rfl
  obtain ⟨hlt, he⟩ := List.getElem?_eq_some_iff.1 hg
  rw [digitOf, List.findIdx?_eq_some_iff_getElem]
  refine ⟨hlt, by simpa using he, fun j hj => ?_⟩
  intro hh
  have hh : f.toList[j] = glyphOf f d := by simpa using hh
  have := (List.Nodup.getElem_inj_iff hf (hi := by omega) (hj := hlt)).1 (hh.trans he.symm)
  omega

end Sys2Proof.Machine
end

