-- ==== Sys2Proof/Laws/Decode.lean ====
section
/-!
SUPPORT. The pieces of decode: taking a payload, looking an opcode up, assembling the value.
-/

namespace Sys2Proof

/-- A payload's own length takes exactly the payload. -/
@[simp] theorem takeBytes_append (p rest : List Byte) : takeBytes p.length (p ++ rest) = some (p, rest) := by
  induction p with
  | nil => rfl
  | cons b p ih => simp [takeBytes, ih]

/-- What `takeBytes` gives is a split of the bytes at the count. -/
theorem takeBytes_eq_some {n : Nat} {bs p rest : List Byte} (h : takeBytes n bs = some (p, rest)) :
    bs = p ++ rest ∧ p.length = n := by
  induction n generalizing bs p with
  | zero => simp only [takeBytes, Option.some.injEq, Prod.mk.injEq] at h; obtain ⟨rfl, rfl⟩ := h; simp
  | succ n ih =>
    cases bs with
    | nil => simp [takeBytes] at h
    | cons b bs =>
      simp only [takeBytes] at h
      split at h
      · next q r hq =>
        simp only [Option.some.injEq, Prod.mk.injEq] at h
        obtain ⟨rfl, rfl⟩ := h
        obtain ⟨rfl, rfl⟩ := ih hq
        simp
      · cases h

/-- There is no payload of a length the bytes do not have. -/
theorem takeBytes_eq_none {n : Nat} {bs : List Byte} : takeBytes n bs = none ↔ bs.length < n := by
  induction n generalizing bs with
  | zero => simp [takeBytes]
  | succ n ih =>
    cases bs with
    | nil => simp [takeBytes]
    | cons b bs =>
      simp only [takeBytes, List.length_cons]
      split
      · next q r hq =>
        have : ¬ bs.length < n := fun hlt => by rw [ih.2 hlt] at hq; cases hq
        simp only [reduceCtorEq, false_iff]; omega
      · next hq => have := ih.1 hq; simp only [true_iff]; omega

/-- The count byte gives back the length of a payload of at most 255 bytes. -/
@[simp] theorem toNat_countByte {p : List Byte} (h : p.length ≤ 255) : (BitVec.ofNat 8 p.length).toNat = p.length := by
  simp only [BitVec.toNat_ofNat]; omega

/-- The value of the two value bytes is the value (R84). -/
@[simp] theorem assembleValue_bytes (v : Value) : assembleValue (valueLo v) (valueHi v) = v := by
  unfold assembleValue valueLo valueHi
  apply BitVec.eq_of_getLsbD_eq
  intro i hi
  simp only [BitVec.getLsbD_or, BitVec.getLsbD_shiftLeft, BitVec.getLsbD_setWidth, BitVec.getLsbD_extractLsb']
  by_cases h : i < 8
  · simp [h, hi]
  · simp [h, hi, show i - 8 < 8 by omega, show 8 + (i - 8) = i by omega, show i - 8 < 16 by omega]

/-- The low byte of an assembled value (R84). -/
@[simp] theorem valueLo_assemble (lo hi : Byte) : valueLo (assembleValue lo hi) = lo := by
  unfold assembleValue valueLo
  apply BitVec.eq_of_getLsbD_eq
  intro i h
  simp only [BitVec.getLsbD_extractLsb', BitVec.getLsbD_or, BitVec.getLsbD_shiftLeft, BitVec.getLsbD_setWidth]
  simp [h, show i < 16 by omega]

/-- The high byte of an assembled value (R84). -/
@[simp] theorem valueHi_assemble (lo hi : Byte) : valueHi (assembleValue lo hi) = hi := by
  unfold assembleValue valueHi
  apply BitVec.eq_of_getLsbD_eq
  intro i h
  simp only [BitVec.getLsbD_extractLsb', BitVec.getLsbD_or, BitVec.getLsbD_shiftLeft, BitVec.getLsbD_setWidth]
  simp [h, show 8 + i < 16 by omega, show ¬ 8 + i < 8 by omega, show i < 16 by omega]

/-- The value of the two value bytes as a number: low byte first. -/
theorem toNat_assembleValue (lo hi : Byte) : (assembleValue lo hi).toNat = lo.toNat + 256 * hi.toNat := by
  unfold assembleValue
  rw [BitVec.toNat_or, BitVec.toNat_shiftLeft]
  simp only [BitVec.truncate_eq_setWidth, BitVec.toNat_setWidth]
  have h1 := lo.isLt
  have h2 := hi.isLt
  rw [Nat.mod_eq_of_lt (by omega : lo.toNat < 2 ^ 16), Nat.mod_eq_of_lt (by omega : hi.toNat < 2 ^ 16),
    Nat.shiftLeft_eq, Nat.mod_eq_of_lt (by omega), Nat.or_comm, ← Nat.shiftLeft_eq,
    ← Nat.shiftLeft_add_eq_or_of_lt (by omega), Nat.shiftLeft_eq]
  omega

/-- Decoding a nonempty list whose opcode is in the map. -/
theorem decode_of_lookup {op : Byte} {bs : List Byte} {f : Format} (h : opcodeMap.lookup op = some f) :
    decode (op :: bs) =
      match f.operands bs with
      | none => .error .truncated
      | some r => .ok r := by
  cases hf : f.operands bs <;> simp [decode, h, hf]

/-- No two rows of the opcode map have the same opcode (R83). -/
theorem opcodeMap_nodup : (opcodeMap.map Prod.fst).Nodup := by decide

theorem encode_length (i : Instr) : (encode i).length = i.length := by
  cases i <;> simp [encode, Instr.length, Bytes8.toList] <;> omega

/-- A format and an opcode under which the operand bytes taken are those of the encoding. -/
def Format.Sound (op : Byte) (f : Format) : Prop :=
  ∀ (bs rest : List Byte) (i : Instr), f.operands bs = some (i, rest) →
    op :: bs = encode i ++ rest ∧ i.encodable = true

/-- Every row of the opcode map is sound: by its format, of which there are eight. -/
theorem opcodeMap_sound : ∀ r ∈ opcodeMap, Format.Sound r.1 r.2 := by
  have cnt : ∀ n : Byte, BitVec.ofNat 8 n.toNat = n := by intro n; simp
  simp only [opcodeMap, lcdOpcodes, serialOpcodes, charOpcodes, pixelOpcodes, List.cons_append, List.nil_append,
    List.forall_mem_cons, List.not_mem_nil, IsEmpty.forall_iff, implies_true, and_true]
  repeat' apply And.intro
  all_goals
    intro bs rest i h
    unfold Format.operands at h
    split at h <;> first | (cases h; done) | skip
  all_goals (rename_i heq; try (cases heq))
  all_goals first
    | (simp only [Option.some.injEq, Prod.mk.injEq] at h; obtain ⟨rfl, rfl⟩ := h
       simp [encode, Instr.encodable, Bytes8.toList])
    | skip
  all_goals
    split at h <;> first | (cases h; done) | skip
    rename_i hq
    simp only [Option.some.injEq, Prod.mk.injEq] at h; obtain ⟨rfl, rfl⟩ := h
    obtain ⟨rfl, hn⟩ := takeBytes_eq_some hq
    simp only [encode, Instr.encodable, hn, cnt, List.cons_append, decide_eq_true_eq, true_and]
    have := (by assumption : BitVec 8).isLt
    omega

/-- Operand bytes that a row of the opcode map takes are those of the encoding. -/
theorem operands_sound (f : Format) (bs rest : List Byte) (i : Instr) (op : Byte) (hm : (op, f) ∈ opcodeMap)
    (h : f.operands bs = some (i, rest)) : op :: bs = encode i ++ rest ∧ i.encodable = true :=
  opcodeMap_sound (op, f) hm bs rest i h

/-- What is looked up in the opcode map is one of its rows. -/
theorem mem_of_lookup {op : Byte} {f : Format} {m : List (Byte × Format)} (h : m.lookup op = some f) : (op, f) ∈ m := by
  induction m with
  | nil => simp at h
  | cons x m ih =>
    obtain ⟨a, g⟩ := x
    rw [List.lookup_cons] at h
    split at h
    · next he => simp at he h; subst he; subst h; simp
    · exact List.mem_cons_of_mem _ (ih h)

/-- The reserved opcode bytes of R83. -/
theorem lookup_eq_none_iff (op : Byte) : opcodeMap.lookup op = none ↔ (op.toNat ≤ 0x0F ∨ (0x14 ≤ op.toNat ∧
    op.toNat ≤ 0x1F) ∨ (0x27 ≤ op.toNat ∧ op.toNat ≤ 0x2F) ∨
        (0x36 ≤ op.toNat ∧ op.toNat ≤ 0x3F) ∨ 0x45 ≤ op.toNat) := by
  have : ∀ op : Byte, (opcodeMap.lookup op).isNone = decide (op.toNat ≤ 0x0F ∨ (0x14 ≤ op.toNat ∧
      op.toNat ≤ 0x1F) ∨ (0x27 ≤ op.toNat ∧ op.toNat ≤ 0x2F) ∨
        (0x36 ≤ op.toNat ∧ op.toNat ≤ 0x3F) ∨ 0x45 ≤ op.toNat) := by decide
  have h := this op
  rw [← Option.isNone_iff_eq_none, h, decide_eq_true_eq]

end Sys2Proof
end

