-- ==== Sys2Proof/Laws/Latched.lean ====
section
/-!
SUPPORT. The latched sequence of an operation (40_parallel_lcd_driver.md R116), and the spacing of its writes around the strobe
(70_reset_and_hazards.md R253).
-/

namespace Sys2Proof.Machine

theorem latched_append (l : Lines) (es fs : List Event) : latched l (es ++ fs) = latched l es ++
    latched (linesAfter l es) fs := by
  induction es generalizing l with
  | nil => rfl
  | cons e es ih => simp [latched, ih, linesAfter_cons]

/-- The serial bus latches nothing. -/
theorem latched_of_serial {es : List Event} (h : ∀ e ∈ es, e.serial = true) (l : Lines) : latched l es = [] := by
  induction es generalizing l with
  | nil => rfl
  | cons e es ih =>
    rw [latched, ih fun x hx => h x (List.mem_cons_of_mem _ hx)]
    have := h e (List.mem_cons_self ..)
    cases e <;> simp_all [Event.serial, latchedAt]

theorem latched_lcdNibble (l : Lines) (rs : Bool) (n : Nibble) : latched l (lcdNibble rs n) = [(rs, n)] := by
  have := latched_lcdNibble_append l rs n []
  simpa [latched] using this

theorem latched_lcdByte (l : Lines) (rs : Bool) (b : Byte) : latched l (lcdByte rs b) = bytePairs rs b := by
  have := latched_lcdByte_append l rs b []
  simpa [latched] using this

/-- What one operation latches, whatever the levels before it. -/
theorem latched_wireEvents (c : Config) (l : Lines) (i : Instr) : latched l (wireEvents c i) = strobePairs c i := by
  cases h : onParallelBus i
  · rw [latched_of_serial (wireEvents_serial h c)]
    cases i <;> simp_all [onParallelBus, strobePairs]
  · cases i <;> simp only [onParallelBus, Bool.false_eq_true] at h <;>
      simp only [wireEvents, strobePairs, latched_lcdNibble, latched_lcdByte, latched_lcdData, latched_append]
    cases hf : c.fourbitNib <;>
      simp [lcdInitEvents, latched_append, latched_lcdNibble, latched_lcdByte, fourbitSwitch, hf, latched, latchedAt]

/-- `NIB` and `RS` are written only while `EN` is 0 and, where `settled` does not say so, after a settle delay. -/
def Spaced (l : Lines) (settled : Bool) : List Event → Prop
  | [] => True
  | e :: es =>
    ((∃ v, e = .nib v) ∨ (∃ v, e = .rs v) → l.en = false ∧ settled = true) ∧
    Spaced (l.apply e) (match e with | .en false => false | .wait 1000 => true | _ => settled) es

theorem Spaced.spec (es : List Event) (l : Lines) (settled : Bool) (h : Spaced l settled es) (pre post : List Event)
    (e : Event)
    (he : es = pre ++ e :: post) (hn : (∃ v, e = .nib v) ∨ (∃ v, e = .rs v)) :
    (linesAfter l pre).en = false ∧ (settled = false → Event.wait 1000 ∈ pre) ∧
      ∀ pre₁ pre₂, pre = pre₁ ++ .en false :: pre₂ → .wait 1000 ∈ pre₂ := by
  induction es generalizing l settled pre with
  | nil => simp at he
  | cons f es ih =>
    cases pre with
    | nil =>
      simp only [List.nil_append, List.cons.injEq] at he
      obtain ⟨rfl, rfl⟩ := he
      have := h.1 hn
      refine ⟨this.1, by simp [this.2], by simp⟩
    | cons g pre =>
      simp only [List.cons_append, List.cons.injEq] at he
      obtain ⟨rfl, rfl⟩ := he
      obtain ⟨h1, h2, h3⟩ := ih _ _ h.2 pre rfl
      refine ⟨h1, ?_, ?_⟩
      · intro hs; subst hs
        by_cases hw : f = .wait 1000
        · simp [hw]
        · refine List.mem_cons_of_mem _ (h2 ?_)
          split <;> simp_all
      · intro p1 p2 hp
        cases p1 with
        | nil =>
          simp only [List.nil_append, List.cons.injEq] at hp
          obtain ⟨rfl, rfl⟩ := hp
          exact h2 rfl
        | cons a p1 =>
          simp only [List.cons_append, List.cons.injEq] at hp
          exact h3 p1 p2 hp.2

theorem Spaced.nibble (l : Lines) (rs : Bool) (n : Nibble) (es : List Event) (hl : l.en = false)
    (h : Spaced { l with nib := n, rs := rs, en := false } true es) : Spaced l true (lcdNibble rs n ++ es) := by
  simp only [lcdNibble, List.cons_append, List.nil_append, Spaced, tHold, tSettle]
  simp [hl]
  exact h

/-- Events that keep a list spaced whatever follows them. -/
def Tidy (es : List Event) : Prop := ∀ l fs, l.en = false → (∀ l', l'.en = false → Spaced l' true fs) →
    Spaced l true (es ++ fs)

theorem Tidy.append {es fs : List Event} (h : Tidy es) (h' : Tidy fs) : Tidy (es ++ fs) := by
  intro l gs hl hg
  rw [List.append_assoc]
  exact h l _ hl fun l' hl' => h' l' gs hl' hg

theorem tidy_nil : Tidy [] := fun l _ hl h => h l hl

theorem tidy_lcdNibble (rs : Bool) (n : Nibble) : Tidy (lcdNibble rs n) :=
    fun l fs hl h => Spaced.nibble l rs n fs hl (h _ rfl)

theorem tidy_lcdByte (rs : Bool) (b : Byte) : Tidy (lcdByte rs b) := (tidy_lcdNibble _ _).append (tidy_lcdNibble _ _)

theorem tidy_flatMap {α : Type} (f : α → List Event) (xs : List α) (h : ∀ x, Tidy (f x)) : Tidy (xs.flatMap f) := by
  induction xs with
  | nil => exact tidy_nil
  | cons x xs ih => rw [List.flatMap_cons]; exact (h x).append ih

theorem tidy_wait (d : Nat) : Tidy [.wait d] := by
  intro l fs hl h
  refine ⟨by simp, ?_⟩
  have := h l hl
  simp only [Lines.apply_wait]
  split <;> first | assumption | simp_all

theorem tidy_serial {es : List Event} (h : ∀ e ∈ es, e.serial = true) : Tidy es := by
  induction es with
  | nil => exact tidy_nil
  | cons e es ih =>
    intro l fs hl hf
    have he := h e (List.mem_cons_self ..)
    have ih' := ih (fun x hx => h x (List.mem_cons_of_mem _ hx))
    cases e <;> simp only [Event.serial, Bool.false_eq_true] at he
    case wait d => 
      have := tidy_wait d l (es ++ fs) hl fun l' hl' => ih' l' fs hl' hf
      exact this
    all_goals exact ⟨by simp, ih' _ fs (by simpa using hl) hf⟩

/-- The events of every operation are spaced. -/
theorem tidy_wireEvents (c : Config) (i : Instr) : Tidy (wireEvents c i) := by
  cases h : onParallelBus i
  · exact tidy_serial (wireEvents_serial h c)
  · cases i <;> simp only [onParallelBus, Bool.false_eq_true] at h <;> simp only [wireEvents]
    case lcdInit =>
      have hf : Tidy (fourbitSwitch c.fourbitNib) := by
        cases c.fourbitNib
        · exact tidy_nil
        · exact tidy_lcdNibble _ _
      exact (((((((((((tidy_wait _).append (tidy_lcdNibble _ _)).append (tidy_wait _)).append
          (tidy_lcdNibble _ _)).append (tidy_wait _)).append (tidy_lcdNibble _ _)).append (tidy_wait _)).append
          hf).append (tidy_lcdByte _ _)).append (tidy_lcdByte _ _)).append (tidy_lcdByte _ _)).append (tidy_lcdByte _ _)
    case lcdNib => exact tidy_lcdNibble _ _
    case chText p => exact tidy_flatMap _ p fun b => tidy_lcdByte _ b
    case chGlyph => exact (tidy_lcdByte _ _).append (tidy_flatMap _ _ fun b => tidy_lcdByte _ b)
    case chNum => exact (tidy_lcdByte _ _).append (tidy_flatMap _ _ fun b => tidy_lcdByte _ b)
    all_goals exact tidy_lcdByte _ _

end Sys2Proof.Machine
end

