-- ==== Sys2Proof/Laws/NormalForm.lean ====
section
/-!
SUPPORT. The normal form of a trace (00_scope.md R15): neither rule of it is seen by the receivers, the latched sequence or the
transactions.
-/

namespace Sys2Proof.Machine

/-- Equal in everything but the trace, `pc`, the mark and the stream. -/
def Alike (a b : State) : Prop := a.cfg = b.cfg ∧ a.lines = b.lines ∧ a.lcd = b.lcd ∧ a.px = b.px

/-- Events keep two such states alike. -/
theorem alike_emitAllVia (feed : Byte → PixelRx → PixelRx) (es : List Event) {a b : State} (h : Alike a b) :
    Alike (emitAllVia feed es a) (emitAllVia feed es b) := by
  induction es generalizing a b with
  | nil => exact h
  | cons e es ih =>
    rw [emitAllVia_cons, emitAllVia_cons]
    refine ih ⟨h.1, by simp [h.2.1], by simp [h.2.2.1, h.2.1, h.1], by simp [h.2.2.2, h.2.1]⟩

/-- A silent event changes nothing but the trace. -/
theorem alike_silent (feed : Byte → PixelRx → PixelRx) (e : Event) (s : State) (h : e.silent s.lines = true) :
    Alike (emitVia feed e s) s := by
  obtain ⟨cfg, req, ⟨n, r, en, scl, sda⟩, pc, tr, rf, lcd, px⟩ := s
  cases e <;> simp only [Event.silent, beq_iff_eq] at h <;> subst h <;>
    refine ⟨rfl, rfl, ?_, ?_⟩ <;> simp [CharRx.observe, PixelRx.observe]

theorem apply_silent (e : Event) (l : Lines) (h : e.silent l = true) : l.apply e = l := by
  obtain ⟨n, r, en, scl, sda⟩ := l
  cases e <;> simp only [Event.silent, beq_iff_eq] at h <;> subst h <;> rfl

theorem Alike.trans {a b c : State} (h : Alike a b) (h' : Alike b c) : Alike a c :=
  ⟨h.1.trans h'.1, h.2.1.trans h'.2.1, h.2.2.1.trans h'.2.2.1, h.2.2.2.trans h'.2.2.2⟩

theorem Alike.symm {a b : State} (h : Alike a b) : Alike b a := ⟨h.1.symm, h.2.1.symm, h.2.2.1.symm, h.2.2.2.symm⟩

/-- Rules (1) and (2) of R15. -/
theorem alike_dropSilent (feed : Byte → PixelRx → PixelRx) (es : List Event) (s : State) :
    Alike (emitAllVia feed (dropSilent s.lines es) s) (emitAllVia feed es s) := by
  induction es generalizing s with
  | nil => exact ⟨rfl, rfl, rfl, rfl⟩
  | cons e es ih =>
    rw [dropSilent, emitAllVia_cons]
    split
    · next h =>
      have h1 := alike_emitAllVia feed (es := es) (alike_silent feed e s h)
      exact (ih s).trans h1.symm
    · rw [emitAllVia_cons]; exact ih (emitVia feed e s)

/-- Rule (3) of R15. -/
theorem alike_mergeWaits (feed : Byte → PixelRx → PixelRx) (es : List Event) (s : State) :
    Alike (emitAllVia feed (mergeWaits es) s) (emitAllVia feed es s) := by
  have cons : ∀ e es s, Alike (emitAllVia feed (consEvent e es) s) (emitAllVia feed (e :: es) s) := by
    intro e es s
    unfold consEvent
    split
    · rw [emitAllVia_cons, emitAllVia_cons, emitAllVia_cons]
      exact alike_emitAllVia feed _ ⟨rfl, rfl, rfl, rfl⟩
    · exact ⟨rfl, rfl, rfl, rfl⟩
  induction es generalizing s with
  | nil => exact ⟨rfl, rfl, rfl, rfl⟩
  | cons e es ih => exact (cons e _ s).trans (ih (emitVia feed e s))

theorem latched_dropSilent (es : List Event) (l : Lines) : latched l (dropSilent l es) = latched l es := by
  induction es generalizing l with
  | nil => rfl
  | cons e es ih =>
    rw [dropSilent]
    split
    · next h =>
      rw [ih, latched, apply_silent e l h]
      cases e <;> simp [latchedAt]
      intro h1; simpa [Event.silent, h1] using h
    · simp only [latched, ih]

theorem latched_mergeWaits (es : List Event) (l : Lines) : latched l (mergeWaits es) = latched l es := by
  have cons : ∀ e es l, latched l (consEvent e es) = latched l (e :: es) := by
    intro e es l; unfold consEvent; split <;> rfl
  induction es generalizing l with
  | nil => rfl
  | cons e es ih => rw [mergeWaits, List.foldr_cons, cons, latched, latched, ← mergeWaits, ih]

theorem run_dropSilent (es : List Event) (l : Lines) (v : BusView) : BusView.run l (dropSilent l es) v =
    BusView.run l es v := by
  induction es generalizing l v with
  | nil => rfl
  | cons e es ih =>
    rw [dropSilent]
    split
    · next h =>
      rw [ih, BusView.run, apply_silent e l h]
      congr 1
      obtain ⟨n, r, en, scl, sda⟩ := l
      cases e <;> simp only [Event.silent, beq_iff_eq] at h <;> subst h <;> simp [BusView.observe]
      all_goals (intros; simp_all)
    · simp only [BusView.run, ih]

theorem run_mergeWaits (es : List Event) (l : Lines) (v : BusView) : BusView.run l (mergeWaits es) v =
    BusView.run l es v := by
  have cons : ∀ e es l v, BusView.run l (consEvent e es) v = BusView.run l (e :: es) v := by
    intro e es l v; unfold consEvent; split <;> rfl
  induction es generalizing l v with
  | nil => rfl
  | cons e es ih => rw [mergeWaits, List.foldr_cons, cons, BusView.run, BusView.run, ← mergeWaits, ih]

end Sys2Proof.Machine
end

