-- ==== Sys2Proof/Laws/PerInstr.lean ====
section
/-!
SUPPORT. One lemma for each constructor of the instruction type: the family EncodedShape.
-/

namespace Sys2Proof.Laws.EncodedShape

/-- The encoding of a request has the length R86 gives it, is not empty, and its opcode's high nibble names the bus of the
operation: groups 0x1n and 0x3n the parallel one, 0x2n and 0x4n the serial one (R82). -/
def Statement (i : Instr) : Prop :=
  (encode i).length = i.length ∧ 0 < i.length ∧
    ∃ op, (encode i).head? = some op ∧
      if Machine.onParallelBus i then op.extractLsb' 4 4 = 1#4 ∨ op.extractLsb' 4 4 = 3#4
      else op.extractLsb' 4 4 = 2#4 ∨ op.extractLsb' 4 4 = 4#4

theorem lcdInit : Statement .lcdInit :=
  ⟨encode_length _, by simp [Instr.length], _, rfl, by simp [Machine.onParallelBus]⟩

theorem lcdCmd (b : Byte) : Statement (.lcdCmd b) :=
  ⟨encode_length _, by simp [Instr.length], _, rfl, by simp [Machine.onParallelBus]⟩

theorem lcdDat (b : Byte) : Statement (.lcdDat b) :=
  ⟨encode_length _, by simp [Instr.length], _, rfl, by simp [Machine.onParallelBus]⟩

theorem lcdNib (a : Byte) : Statement (.lcdNib a) :=
  ⟨encode_length _, by simp [Instr.length], _, rfl, by simp [Machine.onParallelBus]⟩

theorem i2cStart : Statement .i2cStart :=
  ⟨encode_length _, by simp [Instr.length], _, rfl, by simp [Machine.onParallelBus]⟩

theorem i2cStop : Statement .i2cStop :=
  ⟨encode_length _, by simp [Instr.length], _, rfl, by simp [Machine.onParallelBus]⟩

theorem i2cWrb (b : Byte) : Statement (.i2cWrb b) :=
  ⟨encode_length _, by simp [Instr.length], _, rfl, by simp [Machine.onParallelBus]⟩

theorem i2cXfer (ctl : Byte) (p : List Byte) : Statement (.i2cXfer ctl p) :=
  ⟨encode_length _, by simp [Instr.length], _, rfl, by simp [Machine.onParallelBus]⟩

theorem oledCmd (b : Byte) : Statement (.oledCmd b) :=
  ⟨encode_length _, by simp [Instr.length], _, rfl, by simp [Machine.onParallelBus]⟩

theorem oledDat (b : Byte) : Statement (.oledDat b) :=
  ⟨encode_length _, by simp [Instr.length], _, rfl, by simp [Machine.onParallelBus]⟩

theorem oledInit : Statement .oledInit :=
  ⟨encode_length _, by simp [Instr.length], _, rfl, by simp [Machine.onParallelBus]⟩

theorem chClear : Statement .chClear :=
  ⟨encode_length _, by simp [Instr.length], _, rfl, by simp [Machine.onParallelBus]⟩

theorem chSetcur (row : Byte) (col : Byte) : Statement (.chSetcur row col) :=
  ⟨encode_length _, by simp [Instr.length], _, rfl, by simp [Machine.onParallelBus]⟩

theorem chPutc (c : Byte) : Statement (.chPutc c) :=
  ⟨encode_length _, by simp [Instr.length], _, rfl, by simp [Machine.onParallelBus]⟩

theorem chText (p : List Byte) : Statement (.chText p) :=
  ⟨encode_length _, by simp [Instr.length], _, rfl, by simp [Machine.onParallelBus]⟩

theorem chGlyph (slot : Byte) (rows : Bytes8) : Statement (.chGlyph slot rows) :=
  ⟨encode_length _, by simp [Instr.length], _, rfl, by simp [Machine.onParallelBus]⟩

theorem chNum (row : Byte) (col : Byte) (v : Value) : Statement (.chNum row col v) :=
  ⟨encode_length _, by simp [Instr.length], _, rfl, by simp [Machine.onParallelBus]⟩

theorem pxClear : Statement .pxClear :=
  ⟨encode_length _, by simp [Instr.length], _, rfl, by simp [Machine.onParallelBus]⟩

theorem pxClrpg (page : Byte) : Statement (.pxClrpg page) :=
  ⟨encode_length _, by simp [Instr.length], _, rfl, by simp [Machine.onParallelBus]⟩

theorem pxSetpos (x : Byte) (page : Byte) : Statement (.pxSetpos x page) :=
  ⟨encode_length _, by simp [Instr.length], _, rfl, by simp [Machine.onParallelBus]⟩

theorem pxBlit (x : Byte) (page : Byte) (sprite : Bytes8) : Statement (.pxBlit x page sprite) :=
  ⟨encode_length _, by simp [Instr.length], _, rfl, by simp [Machine.onParallelBus]⟩

theorem pxNum (x : Byte) (page : Byte) (v : Value) : Statement (.pxNum x page v) :=
  ⟨encode_length _, by simp [Instr.length], _, rfl, by simp [Machine.onParallelBus]⟩

end Sys2Proof.Laws.EncodedShape
end

