-- ==== Sys2Proof/Laws/Receivers.lean ====
section
/-!
SUPPORT. The receivers keep their invariants at every event (20_memory.md R56 to R60).
-/

namespace Sys2Proof.Machine

/-! ## The character receiver -/

/-- The invariant but for the legacy count in the unknown mode, which the last line of R56 restores. -/
structure CharRx.InvBeforeSettle (c : CharRx) : Prop where
  legacy_le : c.legacyCnt ≤ 3
  unknown_ac : c.ifMode = .unknown → c.ac = .unspecified ∧ c.acSel = .unspecified
  unknown_half : c.ifMode = .unknown → c.hiNib = .unspecified ∧ c.hiRs = .unspecified
  unknown_cfg : c.ifMode = .unknown → c.chCfg = .unspecified
  unknown_mem : c.ifMode = .unknown → c.ddram = Memory.lost ∧ c.cgram = Memory.lost
  half_byte : c.ifMode = .if4Lo → c.hiNib.specified = true ∧ c.hiRs.specified = true
  ac_with_sel : c.acSel.specified = c.ac.specified
  cgram_ac : c.acSel = .is .cgram → ∀ a, c.ac = .is a → a.toNat < 64
  ddram_wf : Memory.wf 128 c.ddram
  cgram_wf : Memory.wf 64 c.cgram
  cgram_five_bits : ∀ x ∈ c.cgram, x.2.toNat < 32

theorem CharRx.Inv.before {c : CharRx} (h : c.Inv) : c.InvBeforeSettle where
  __ := h

theorem CharRx.InvBeforeSettle.settle {c : CharRx} (h : c.InvBeforeSettle) : c.settleLegacy.Inv := by
  unfold CharRx.settleLegacy
  split
  · exact { h with
      unknown_legacy := nofun, unknown_ac := nofun, unknown_half := nofun, unknown_cfg := nofun
      unknown_mem := nofun, half_byte := nofun }
  · next hc =>
    exact { h with
      unknown_legacy := fun hu => by
        have := h.legacy_le
        have : ¬ c.legacyCnt = 3 := fun h3 => hc ⟨hu, h3⟩
        omega }

theorem CharRx.havoc_inv {c : CharRx} (h : c.legacyCnt ≤ 3) : c.havoc.InvBeforeSettle where
  legacy_le := h
  unknown_ac _ := ⟨rfl, rfl⟩
  unknown_half _ := ⟨rfl, rfl⟩
  unknown_cfg _ := rfl
  unknown_mem _ := ⟨rfl, rfl⟩
  half_byte := nofun
  ac_with_sel := rfl
  cgram_ac := nofun
  ddram_wf := Memory.wf_lost 128
  cgram_wf := Memory.wf_lost 64
  cgram_five_bits := nofun

/-- Outside the modes `unknown` and `if4_lo` the invariant is about the address counter and the memories. -/
theorem CharRx.InvBeforeSettle.of_known {c : CharRx} (hu : c.ifMode ≠ .unknown) (hl : c.ifMode ≠ .if4Lo)
    (h1 : c.legacyCnt ≤ 3) (h2 : c.acSel.specified = c.ac.specified)
    (h3 : c.acSel = .is .cgram → ∀ a, c.ac = .is a → a.toNat < 64) (h4 : Memory.wf 128 c.ddram)
    (h5 : Memory.wf 64 c.cgram) (h6 : ∀ x ∈ c.cgram, x.2.toNat < 32) : c.InvBeforeSettle :=
  ⟨h1, fun h => absurd h hu, fun h => absurd h hu, fun h => absurd h hu, fun h => absurd h hu, fun h => absurd h hl, h2,
    h3, h4, h5, h6⟩

theorem toNat_cgramNext (a : BitVec 7) : (cgramNext a).toNat < 64 := by
  unfold cgramNext
  have : (((a + 1#7).extractLsb' 0 6).zeroExtend 7).toNat = ((a + 1#7).extractLsb' 0 6).toNat % 2 ^ 7 :=
    BitVec.toNat_setWidth ..
  have := ((a + 1#7).extractLsb' 0 6).isLt
  omega

theorem CharRx.perform_inv (k : CharCommand) {c : CharRx} (h : c.InvBeforeSettle) (hk : c.ifMode = .if4Hi) :
    (CharRx.perform k c).InvBeforeSettle := by
  have hu : c.ifMode ≠ .unknown := by rw [hk]; decide
  have hl : c.ifMode ≠ .if4Lo := by rw [hk]; decide
  cases k with
  | clear => exact .of_known hu hl h.legacy_le rfl nofun (Memory.wf_fill 128 0x20#8) h.cgram_wf h.cgram_five_bits
  | home => exact .of_known hu hl h.legacy_le rfl nofun h.ddram_wf h.cgram_wf h.cgram_five_bits
  | entryMode => exact .of_known hu hl h.legacy_le h.ac_with_sel h.cgram_ac h.ddram_wf h.cgram_wf h.cgram_five_bits
  | displayControl =>
    exact .of_known hu hl h.legacy_le h.ac_with_sel h.cgram_ac h.ddram_wf h.cgram_wf h.cgram_five_bits
  | functionSet e =>
    refine .of_known ?_ ?_ h.legacy_le h.ac_with_sel h.cgram_ac h.ddram_wf h.cgram_wf h.cgram_five_bits <;>
      cases e <;> simp [CharRx.perform, hk]
  | glyphAddress a =>
    refine .of_known hu hl h.legacy_le rfl (fun _ x hx => ?_) h.ddram_wf h.cgram_wf h.cgram_five_bits
    obtain rfl := Tracked.is.inj hx
    have : (a.zeroExtend 7).toNat = a.toNat % 2 ^ 7 := BitVec.toNat_setWidth ..
    have := a.isLt
    omega
  | cellAddress => exact .of_known hu hl h.legacy_le rfl nofun h.ddram_wf h.cgram_wf h.cgram_five_bits
  | unlisted => exact CharRx.havoc_inv h.legacy_le

theorem CharRx.memoriesLost_inv {c : CharRx} (h : c.InvBeforeSettle) : c.memoriesLost.InvBeforeSettle :=
  { h with
    unknown_mem := fun _ => ⟨rfl, rfl⟩, ddram_wf := Memory.wf_lost 128, cgram_wf := Memory.wf_lost 64
    cgram_five_bits := nofun }

theorem CharRx.stored_inv {c : CharRx} (h : c.InvBeforeSettle) (hk : c.ifMode = .if4Hi) (b : Byte) :
    (c.stored b).InvBeforeSettle := by
  have hu : c.ifMode ≠ .unknown := by rw [hk]; decide
  have hl : c.ifMode ≠ .if4Lo := by rw [hk]; decide
  unfold CharRx.stored
  split
  · next a hs ha =>
    refine .of_known hu hl h.legacy_le ?_ ?_ ?_ h.cgram_wf h.cgram_five_bits
    · rw [hs]; rfl
    · intro hc; exact absurd (hs.symm.trans hc) (by decide)
    · exact Memory.wf_write h.ddram_wf (by have := a.isLt; omega) b
  · next a hs ha =>
    refine .of_known hu hl h.legacy_le ?_ ?_ h.ddram_wf ?_ ?_
    · rw [hs]; rfl
    · intro _ x hx
      obtain rfl := Tracked.is.inj hx
      exact toNat_cgramNext a
    · exact Memory.wf_write h.cgram_wf (Nat.mod_lt _ (by decide)) _
    · intro x hx
      rcases Memory.mem_write hx with rfl | hx
      · have hb : ∀ b : Byte, (b &&& 0x1F#8).toNat < 32 := by decide
        exact hb b
      · exact h.cgram_five_bits x hx
  · exact CharRx.memoriesLost_inv h

theorem CharRx.data_inv {c : CharRx} (h : c.InvBeforeSettle) (hk : c.ifMode = .if4Hi) (b : Byte) :
    (c.data b).InvBeforeSettle := by
  unfold CharRx.data
  split
  · split
    · exact CharRx.stored_inv h hk b
    · exact CharRx.memoriesLost_inv (CharRx.stored_inv h hk b)
  · exact CharRx.havoc_inv h.legacy_le

theorem CharRx.countLegacy_inv {c : CharRx} (h : c.InvBeforeSettle) (rs : Bool) (n : Nibble) :
    (c.countLegacy rs n).InvBeforeSettle :=
  { h with legacy_le := by simp only [CharRx.countLegacy]; split <;> omega }

theorem CharRx.intake_inv {c : CharRx} (h : c.InvBeforeSettle) (cfg : Config) (rs : Bool) (n : Nibble) :
    (c.intake cfg rs n).InvBeforeSettle := by
  have to4Hi : ∀ g : ChCfg, ({ c with ifMode := .if4Hi, chCfg := g } : CharRx).InvBeforeSettle := fun g =>
    .of_known nofun nofun h.legacy_le h.ac_with_sel h.cgram_ac h.ddram_wf h.cgram_wf h.cgram_five_bits
  unfold CharRx.intake
  split
  · exact h
  · split
    · exact h
    · split
      · exact to4Hi _
      · exact CharRx.havoc_inv h.legacy_le
  · exact { h with
      unknown_ac := nofun, unknown_half := nofun, unknown_cfg := nofun, unknown_mem := nofun
      half_byte := fun _ => ⟨rfl, rfl⟩ }
  · split
    · split
      · unfold CharRx.deliver
        split
        · exact CharRx.data_inv (to4Hi _) rfl _
        · exact CharRx.perform_inv _ (to4Hi _) rfl
      · exact CharRx.havoc_inv h.legacy_le
    · exact CharRx.havoc_inv h.legacy_le

/-- The character receiver keeps its invariant at every latched pair. -/
theorem CharRx.onStrobe_inv {c : CharRx} (h : c.Inv) (cfg : Config) (rs : Bool) (n : Nibble) :
    (c.onStrobe cfg rs n).Inv :=
  (CharRx.intake_inv (CharRx.countLegacy_inv h.before rs n) cfg rs n).settle

theorem CharRx.observe_inv {c : CharRx} (h : c.Inv) (cfg : Config) (l : Lines) (e : Event) :
    (c.observe cfg l e).Inv := by
  unfold CharRx.observe
  split
  · split
    · exact CharRx.onStrobe_inv h cfg _ _
    · exact h
  · exact h

theorem CharRx.reset_inv : CharRx.reset.Inv := by
  exact ⟨by decide, fun _ => by decide, fun _ => ⟨rfl, rfl⟩, fun _ => ⟨rfl, rfl⟩, fun _ => rfl, fun _ => ⟨rfl, rfl⟩,
    (fun hu => nomatch hu), rfl,
    (fun hu => nomatch hu), Memory.wf_lost 128, Memory.wf_lost 64, (fun _ hx => nomatch hx)⟩

/-! ## The pixel receiver -/

theorem gddramAddr_lt (g : BitVec 3) (c : BitVec 7) : gddramAddr g.toNat c.toNat < 1024 := by
  have := g.isLt
  have := c.isLt
  unfold gddramAddr
  omega

theorem PixelRx.havoc_inv {p : PixelRx} (h : p.Inv) : p.havoc.Inv :=
  ⟨h.bits_lt, h.bits_open, h.control_addressed, h.payload_addressed, (fun hs => nomatch hs),
    h.gddram_wf⟩

theorem PixelRx.data_inv {p : PixelRx} (h : p.Inv) (b : Byte) : (p.data b).Inv := by
  unfold PixelRx.data
  split
  · next c g _ _ _ =>
    exact ⟨h.bits_lt, h.bits_open, h.control_addressed, h.payload_addressed, h.sync_on,
      Memory.wf_write h.gddram_wf (gddramAddr_lt g c) b⟩
  · exact ⟨h.bits_lt, h.bits_open, h.control_addressed, h.payload_addressed, h.sync_on, Memory.wf_lost 1024⟩

theorem PixelRx.command_inv {p : PixelRx} (h : p.Inv) (cfg : Config) (b : Byte) : (p.command cfg b).Inv := by
  unfold PixelRx.command
  split
  · exact { h with }
  · split
    · exact { h with sync_on := fun _ => rfl }
    · split
      · exact { h with sync_on := fun _ => rfl }
      · exact PixelRx.havoc_inv h

theorem PixelRx.recvByte_inv {p : PixelRx} (h : p.Inv) (cfg : Config) (b : Byte) : (p.recvByte cfg b).Inv := by
  unfold PixelRx.recvByte
  split
  · split
    · exact ⟨h.bits_lt, h.bits_open, fun _ => rfl, (fun hp => nomatch hp), h.sync_on, h.gddram_wf⟩
    · exact ⟨h.bits_lt, h.bits_open, (fun hp => nomatch hp), (fun hp => nomatch hp), h.sync_on, h.gddram_wf⟩
  · next hp =>
    have ha := h.control_addressed hp
    split
    · exact ⟨h.bits_lt, h.bits_open, (fun hp => nomatch hp), fun _ => ⟨ha, rfl⟩, h.sync_on, h.gddram_wf⟩
    split
    · exact ⟨h.bits_lt, h.bits_open, (fun hp => nomatch hp), fun _ => ⟨ha, rfl⟩, h.sync_on, h.gddram_wf⟩
    · exact ⟨h.bits_lt, h.bits_open, (fun hp => nomatch hp), (fun hp => nomatch hp),
        (fun hs => nomatch hs), h.gddram_wf⟩
  · split
    · exact PixelRx.data_inv h b
    · exact PixelRx.command_inv h cfg b
    · exact ⟨h.bits_lt, h.bits_open, h.control_addressed, h.payload_addressed,
        (fun hs => nomatch hs), Memory.wf_lost 1024⟩
  · exact h

/-- A byte intake that keeps the invariant. -/
abbrev KeepsInv (feed : Byte → PixelRx → PixelRx) : Prop := ∀ b p, p.Inv → (feed b p).Inv

theorem PixelRx.takeBit_inv {feed : Byte → PixelRx → PixelRx} (hf : KeepsInv feed) {p : PixelRx} (h : p.Inv)
    (v : Bool) : (p.takeBit feed v).Inv := by
  unfold PixelRx.takeBit
  split
  · next ho =>
    simp only [List.length_append, List.length_singleton]
    split
    · exact hf _ _ ⟨by simp, fun _ => rfl, h.control_addressed, h.payload_addressed, h.sync_on, h.gddram_wf⟩
    · have := h.bits_lt
      exact ⟨by simp only [List.length_append, List.length_singleton]; omega, fun hn => absurd ho hn,
        h.control_addressed, h.payload_addressed, h.sync_on, h.gddram_wf⟩
  · exact h

theorem PixelRx.observe_inv {feed : Byte → PixelRx → PixelRx} (hf : KeepsInv feed) {p : PixelRx} (h : p.Inv)
    (l : Lines) (e : Event) : (p.observe feed l e).Inv := by
  unfold PixelRx.observe
  split
  · split
    · exact ⟨by simp [PixelRx.startCond], fun _ => rfl, (fun hp => nomatch hp), (fun hp => nomatch hp), h.sync_on,
        h.gddram_wf⟩
    split
    · exact ⟨by simp [PixelRx.stopCond], fun _ => rfl, h.control_addressed, h.payload_addressed, h.sync_on,
        h.gddram_wf⟩
    · exact h
  · split
    · exact PixelRx.takeBit_inv hf h _
    · exact h
  · exact h

theorem PixelRx.initialised_inv {p : PixelRx} (h : p.Inv) : p.initialised.Inv :=
  ⟨h.bits_lt, h.bits_open, h.control_addressed, h.payload_addressed, fun _ => rfl, h.gddram_wf⟩

theorem PixelRx.reset_inv (l : Lines) : (PixelRx.reset l).Inv := by
  exact ⟨Nat.zero_lt_succ 8, fun _ => rfl, (fun hp => nomatch hp), (fun hp => nomatch hp), (fun hs => nomatch hs),
    Memory.wf_lost 1024⟩

/-! ## Events and operations -/

theorem emitAllVia_rx_inv {feed : Byte → PixelRx → PixelRx} (hf : KeepsInv feed) (es : List Event) {s : State}
    (hl : s.lcd.Inv) (hp : s.px.Inv) : (emitAllVia feed es s).lcd.Inv ∧ (emitAllVia feed es s).px.Inv := by
  induction es generalizing s with
  | nil => exact ⟨hl, hp⟩
  | cons e es ih =>
    rw [emitAllVia_cons]
    exact ih (CharRx.observe_inv hl _ _ _) (PixelRx.observe_inv hf hp _ _)

/-- An accepted operation keeps the receivers' invariants. -/
theorem performed_rx_inv (i : Instr) {s : State} (hl : s.lcd.Inv) (hp : s.px.Inv) :
    (performed i s).lcd.Inv ∧ (performed i s).px.Inv := by
  have hf : KeepsInv (PixelRx.recvByte s.cfg) := fun b p h => PixelRx.recvByte_inv h s.cfg b
  have hm : KeepsInv (fun _ p => p) := fun _ _ h => h
  by_cases hi : i = .oledInit
  · subst hi
    have h := emitAllVia_rx_inv hm (oledInitEvents s.cfg) hl hp
    exact ⟨h.1, PixelRx.initialised_inv h.2⟩
  · rw [performed_of_ne hi]
    exact emitAllVia_rx_inv hf (wireEvents s.cfg i) hl hp

end Sys2Proof.Machine
end

