-- ==== Sys2Proof/Laws/Timing.lean ====
section
/-!
SUPPORT. Sums of the wait lower bounds and numbers of events (70_reset_and_hazards.md R263, 41_i2c_master.md R155).
-/

namespace Sys2Proof.Machine

theorem waitSum_append (es fs : List Event) : waitSum (es ++ fs) = waitSum es + waitSum fs := by simp [waitSum]

@[simp] theorem waitSum_nil : waitSum [] = 0 := rfl

theorem waitSum_flatMap {α : Type} (f : α → List Event) (k : Nat) (xs : List α) (h : ∀ x, waitSum (f x) = k) :
    waitSum (xs.flatMap f) = k * xs.length := by
  induction xs with
  | nil => rfl
  | cons x xs ih => rw [List.flatMap_cons, waitSum_append, ih, h, List.length_cons]; ring

@[simp] theorem waitSum_wait (d : Nat) (es : List Event) : waitSum (.wait d :: es) = d + waitSum es := by simp [waitSum]

@[simp] theorem waitSum_nib (v) (es : List Event) : waitSum (.nib v :: es) = waitSum es := by simp [waitSum]

@[simp] theorem waitSum_rs (v) (es : List Event) : waitSum (.rs v :: es) = waitSum es := by simp [waitSum]

@[simp] theorem waitSum_en (v) (es : List Event) : waitSum (.en v :: es) = waitSum es := by simp [waitSum]

@[simp] theorem waitSum_scl (v) (es : List Event) : waitSum (.scl v :: es) = waitSum es := by simp [waitSum]

@[simp] theorem waitSum_sda (v) (es : List Event) : waitSum (.sda v :: es) = waitSum es := by simp [waitSum]

theorem waitSum_nibble (r n) : waitSum (lcdNibble r n) = 1005 := by simp [lcdNibble, tHold, tSettle]

theorem waitSum_byte (r b) : waitSum (lcdByte r b) = 2010 := by rw [lcdByte, waitSum_append, waitSum_nibble,
    waitSum_nibble]

theorem waitSum_data (p) : waitSum (lcdData p) = 2010 * p.length := waitSum_flatMap _ _ _ fun _ => waitSum_byte _ _

theorem waitSum_bit (t v) : waitSum (i2cBit t v) = 3 * t := by simp [i2cBit]; ring

theorem waitSum_writeByte (t b) : waitSum (i2cWriteByte t b) = 27 * t := by
  rw [i2cWriteByte, waitSum_append, waitSum_flatMap _ _ _ (waitSum_bit t), waitSum_bit]; simp [bitsOfByte]; ring

theorem waitSum_start (t) : waitSum (i2cStart t) = 3 * t := by simp [i2cStart]; ring

theorem waitSum_stop (t) : waitSum (i2cStop t) = 3 * t := by simp [i2cStop]; ring

/-- The least duration of a transaction. -/
theorem waitSum_xfer (c : Config) (ctl p) : waitSum (oledXfer c ctl p) = (6 + 27 * (2 + p.length)) * c.tI2c := by
  have := waitSum_flatMap (i2cWriteByte c.tI2c) _ p (waitSum_writeByte c.tI2c)
  simp only [oledXfer, waitSum_append, this, waitSum_start, waitSum_stop, waitSum_writeByte]; ring

theorem length_flatMap {α β : Type} (f : α → List β) (k : Nat) (xs : List α) (h : ∀ x, (f x).length = k) :
    (xs.flatMap f).length = k * xs.length := by
  induction xs with
  | nil => rfl
  | cons x xs ih => rw [List.flatMap_cons, List.length_append, ih, h, List.length_cons]; ring

theorem length_bit (t : Nat) (v : Bool) : (i2cBit t v).length = 6 := rfl

theorem length_writeByte (t : Nat) (b : Byte) : (i2cWriteByte t b).length = 54 := rfl

/-- The number of events of a transaction. -/
theorem length_xfer (c : Config) (ctl : Byte) (p : List Byte) : (oledXfer c ctl p).length = 13 + 54 * (2 + p.length) :=
    by
  have : (p.flatMap (i2cWriteByte c.tI2c)).length = 54 * p.length := by
    induction p with
    | nil => rfl
    | cons b p ih => rw [List.flatMap_cons, List.length_append, ih, length_writeByte]; simp; omega
  simp only [oledXfer, List.length_append, this, length_writeByte]
  simp [i2cStart, i2cStop]; omega

end Sys2Proof.Machine
end

