-- ==== Sys2Proof/Laws/Transactions.lean ====
section
/-!
SUPPORT. The receiver view of the composed operations (41_i2c_master.md R143).
-/

namespace Sys2Proof.Machine

theorem run_append (l : Lines) (es fs : List Event) (v : BusView) :
    BusView.run l (es ++ fs) v = BusView.run (linesAfter l es) fs (BusView.run l es v) := by
  induction es generalizing l v with
  | nil => rfl
  | cons e es ih => simp only [List.cons_append, BusView.run, ih, linesAfter_cons]

theorem run_start (t : Nat) (l : Lines) {v : BusView} (h : v.opened = false) :
    BusView.run l (i2cStart t) v = { v with opened := true, bits := [], bytes := [] } := by
  cases h1 : l.scl <;> cases h2 : l.sda <;> simp [BusView.run, i2cStart, BusView.observe, Lines.apply, h, h1, h2]

theorem linesAfter_i2cStart (t : Nat) (l : Lines) : linesAfter l (i2cStart t) = { l with
    scl := false,
    sda := false } := by
  simp [i2cStart, linesAfter_cons]

theorem linesAfter_i2cStop (t : Nat) (l : Lines) : linesAfter l (i2cStop t) = { l with scl := true, sda := true } := by
  simp [i2cStop, linesAfter_cons]

theorem run_stop (t : Nat) (l : Lines) {v : BusView} (h : v.opened = true) (hb : v.bits = []) (hl : l.scl = false) :
    BusView.run l (i2cStop t) v = ⟨false, [], [], v.closed ++ [v.bytes]⟩ := by
  simp [BusView.run, i2cStop, BusView.observe, Lines.apply, h, hl, hb]

theorem run_bit (t : Nat) (l : Lines) (x : Bool) (v : BusView) (h : v.opened = true) (hl : l.scl = false) :
    BusView.run l (i2cBit t x) v = if (v.bits ++ [x]).length = 9 then { v with
        bits := [],
        bytes := v.bytes ++ [byteOfBits (v.bits ++ [x])] } else { v with bits := v.bits ++ [x] } := by
  simp [BusView.run, i2cBit, BusView.observe, Lines.apply, h, hl]

theorem linesAfter_i2cBit (t : Nat) (l : Lines) (x : Bool) : linesAfter l (i2cBit t x) = { l with
    scl := false,
    sda := x } := by
  simp [i2cBit, linesAfter_cons]

theorem run_bits (t : Nat) (vs : List Bool) (l : Lines) (v : BusView) (h : v.opened = true) (hl : l.scl = false)
    (hb : v.bits.length + vs.length ≤ 8) :
    BusView.run l (vs.flatMap (i2cBit t)) v = { v with bits := v.bits ++ vs } ∧
        (linesAfter l (vs.flatMap (i2cBit t))).scl = false := by
  induction vs generalizing l v with
  | nil => simp [BusView.run, hl]
  | cons x vs ih =>
    simp only [List.length_cons] at hb
    rw [List.flatMap_cons, run_append, run_bit t l x v h hl, if_neg (by simp; omega), linesAfter_append,
        linesAfter_i2cBit]
    have := ih { l with scl := false, sda := x } { v with bits := v.bits ++ [x] } h rfl (by simp; omega)
    rw [this.1]
    exact ⟨by simp, this.2⟩

theorem run_byte (t : Nat) (b : Byte) (l : Lines) (v : BusView) (h : v.opened = true) (hl : l.scl = false)
    (hb : v.bits = []) :
    BusView.run l (i2cWriteByte t b) v = { v with bytes := v.bytes ++ [b] } := by
  obtain ⟨h1, h2⟩ := run_bits t (bitsOfByte b) l v h hl (by simp [hb, bitsOfByte])
  have h3 := run_bit t (linesAfter l ((bitsOfByte b).flatMap (i2cBit t))) true { v with
      bits :=
      v.bits ++ bitsOfByte b } h h2
  rw [i2cWriteByte, run_append, h1, h3, if_pos (by simp [hb, bitsOfByte])]
  simp only [hb, List.nil_append, byteOfBits_bitsOfByte]

theorem run_bytes (t : Nat) (bs : List Byte) (l : Lines) (v : BusView) (h : v.opened = true) (hl : l.scl = false)
    (hb : v.bits = []) :
    BusView.run l (bs.flatMap (i2cWriteByte t)) v = { v with bytes := v.bytes ++ bs } ∧
        (linesAfter l (bs.flatMap (i2cWriteByte t))).scl = false := by
  induction bs generalizing l v with
  | nil => simp [BusView.run, hl]
  | cons b bs ih =>
    rw [List.flatMap_cons, run_append, run_byte t b l v h hl hb, linesAfter_append, linesAfter_i2cWriteByte]
    have := ih { l with scl := false, sda := true } { v with bytes := v.bytes ++ [b] } h rfl hb
    rw [this.1]
    exact ⟨by simp, this.2⟩

/-- One transaction from a bus that is not open. -/
theorem run_xfer (c : Config) (ctl : Byte) (p : List Byte) (l : Lines) (v : BusView) (h : v.opened = false) :
    BusView.run l (oledXfer c ctl p) v = ⟨false, [], [], v.closed ++ [c.i2cAddr :: ctl :: p]⟩ := by
  have e : oledXfer c ctl p = i2cStart c.tI2c ++ (c.i2cAddr :: ctl :: p).flatMap (i2cWriteByte c.tI2c) ++
      i2cStop c.tI2c := by
    simp [oledXfer, List.append_assoc]
  obtain ⟨h1, h2⟩ := run_bytes c.tI2c (c.i2cAddr :: ctl :: p) { l with scl := false, sda := false } 
      { v with opened := true, bits := [], bytes := [] } rfl rfl rfl
  rw [e, run_append, run_append, run_start _ _ h, linesAfter_append, linesAfter_i2cStart, h1, run_stop _ _ rfl rfl h2]
  simp

/-- Events that add exactly the transactions `ts` to the view of a bus that is not open. -/
def Adds (es : List Event) (ts : List (List Byte)) : Prop :=
  ∀ l v, v.opened = false → BusView.run l es v = ⟨false, if ts = [] then v.bits else [], if ts =
      [] then v.bytes else [], v.closed ++ ts⟩

theorem adds_nil : Adds [] [] := by
  rintro l ⟨o, b, bs, cl⟩ h; simp at h; subst h; simp [BusView.run]

theorem adds_xfer (c : Config) (ctl : Byte) (p : List Byte) : Adds (oledXfer c ctl p) [c.i2cAddr :: ctl :: p] := by
  intro l v h; simp [run_xfer c ctl p l v h]

theorem Adds.append {es fs ts us} (h : Adds es ts) (h' : Adds fs us) : Adds (es ++ fs) (ts ++ us) := by
  intro l v hv
  rw [run_append, h l v hv, h' _ _ rfl]
  by_cases h1 : ts = [] <;> by_cases h2 : us = [] <;> simp [h1, h2]

theorem adds_flatMap {α : Type} (f : α → List Event) (g : α → List (List Byte)) (xs : List α)
    (h : ∀ x ∈ xs, Adds (f x) (g x)) :
    Adds (xs.flatMap f) (xs.flatMap g) := by
  induction xs with
  | nil => exact adds_nil
  | cons x xs ih =>
    rw [List.flatMap_cons, List.flatMap_cons]
    exact (h x (List.mem_cons_self ..)).append (ih fun y hy => h y (List.mem_cons_of_mem _ hy))

theorem adds_commands (c : Config) (bs : List Byte) : Adds (bs.flatMap (oledCmdEvents c)) (commandTransfers c bs) := by
  have := adds_flatMap (oledCmdEvents c) (fun b => [[c.i2cAddr, c.ctlCmd, b]]) bs fun b _ => adds_xfer c c.ctlCmd [b]
  rwa [← List.map_eq_flatMap] at this

theorem adds_data (c : Config) (bs : List Byte) : Adds (bs.flatMap (oledDatEvents c)) (dataTransfers c bs) := by
  have := adds_flatMap (oledDatEvents c) (fun b => [[c.i2cAddr, c.ctlDat, b]]) bs fun b _ => adds_xfer c c.ctlDat [b]
  rwa [← List.map_eq_flatMap] at this

theorem adds_blit (c : Config) (x page : Byte) (p : Bytes8) : Adds (blitEvents c x page p) (blitTransfers c x page p) :=
  (adds_commands _ _).append (adds_data _ _)

theorem adds_clearPage (c : Config) (page : Byte) : Adds (clearPageEvents c page) (clearPageTransfers c page) :=
  (adds_commands _ _).append (adds_data _ _)

/-- PX.NUM as its four blits. -/
theorem digitBlits_four (c : Config) (x page : Byte) (v : Value) : digitBlits c x page (pixDigits v) =
    blitEvents c x page (glyphOf c.digitFont (v.toNat / 1000)) ++
        blitEvents c (x + 8#8) page (glyphOf c.digitFont (v.toNat / 100 % 10)) ++
    blitEvents c (x + 16#8) page (glyphOf c.digitFont (v.toNat / 10 % 10)) ++
        blitEvents c (x + 24#8) page (glyphOf c.digitFont (v.toNat % 10)) := by
  simp only [pixDigits, digitBlits, digitPitch, List.append_nil, List.append_assoc]
  have h1 : x + 8#8 + 8#8 = x + 16#8 := by rw [BitVec.add_assoc]; rfl
  have h2 : x + 16#8 + 8#8 = x + 24#8 := by rw [BitVec.add_assoc]; rfl
  rw [h1, h2]

/-- Every composed operation adds its transfers. -/
theorem adds_wireEvents (c : Config) (i : Instr) (h : isComposed i = true) : Adds (wireEvents c i) (transfers c i) := by
  cases i <;> simp only [isComposed, Bool.false_eq_true] at h <;> simp only [wireEvents, transfers]
  case i2cXfer ctl p => exact adds_xfer c ctl p
  case oledCmd b => exact adds_xfer c c.ctlCmd [b]
  case oledDat b => exact adds_xfer c c.ctlDat [b]
  case oledInit => exact adds_commands _ _
  case pxClear => exact adds_flatMap _ _ _ fun p _ => adds_clearPage c _
  case pxClrpg => exact adds_clearPage c _
  case pxSetpos => exact adds_commands _ _
  case pxBlit => exact adds_blit _ _ _ _
  case pxNum x page v =>
    rw [digitBlits_four]
    exact (((adds_blit _ _ _ _).append (adds_blit _ _ _ _)).append (adds_blit _ _ _ _)).append (adds_blit _ _ _ _)

/-! ## Primitives -/

/-- A list of I2C.WRB operations. -/
theorem execAll_wrbs (bs : List Byte) (is : List Instr) (s : State) :
    execAll (bs.map Instr.i2cWrb ++ is) s = execAll is ((emitAll (bs.flatMap (i2cWriteByte s.cfg.tI2c)) s).advance
        (2 * bs.length)) := by
  induction bs generalizing s with
  | nil => rfl
  | cons b bs ih =>
    rw [List.map_cons, List.cons_append, execAll_cons rfl, ih]
    simp only [performed, wireEvents, State.advance_cfg, emitAll_cfg, List.flatMap_cons, emitAll_append,
        emitAll_advance, advance_advance]
    rw [show Instr.length (.i2cWrb b) + 2 * bs.length = 2 * (b :: bs).length by simp [Instr.length]; omega]

theorem i2cWriteByte_bits (t : Nat) (b : Byte) : i2cWriteByte t b = (bitsOfByte b ++ [true]).flatMap (i2cBit t) := by
  simp [i2cWriteByte, List.flatMap_append]

/-- Clocked bits do not reach a receiver whose bus is not open. -/
theorem emitAllVia_bits_closed (feed : Byte → PixelRx → PixelRx) (t : Nat) (vs : List Bool) {s : State}
    (h : s.lines.scl = false) (ho : s.px.busCond ≠ .opened) :
    (emitAllVia feed (vs.flatMap (i2cBit t)) s).px = s.px ∧ (emitAllVia feed (vs.flatMap (i2cBit t)) s).lines.scl =
        false := by
  induction vs generalizing s with
  | nil => simp [h]
  | cons v vs ih =>
    rw [List.flatMap_cons, emitAllVia_append, emitAllVia_i2cBit feed t v h, takeBit_closed feed ho]
    exact ih rfl ho

end Sys2Proof.Machine
end

