-- ==== Sys2Proof/Tests/Slice0.lean ====
section
/-!
SUPPORT. The model's own tests: the refusals of WellFormed, one word of every constructor written out from 30_encoding.md,
one-step vectors of 95_test_vectors.md Part 3 (hand calculations of the spec, not the model's answers), and a witness for
the hypotheses of every statement of the obligations that has some.
-/

namespace Sys2Proof.Tests
open Sys2Proof.Machine

/-! ## The states of the tests -/

/-- A row of the test font of 95_test_vectors.md Part 2. -/
def fontRow (d : Byte) : Bytes8 :=
  let e := d <<< 4
  ⟨e, e ||| 1#8, e ||| 2#8, e ||| 3#8, e ||| 4#8, e ||| 5#8, e ||| 6#8, e ||| 7#8⟩

/-- The test font of 95_test_vectors.md Part 2. -/
def testFont : DigitFont :=
  ⟨fontRow 0#8, fontRow 1#8, fontRow 2#8, fontRow 3#8, fontRow 4#8, fontRow 5#8, fontRow 6#8, fontRow 7#8,
    fontRow 8#8, fontRow 9#8⟩

/-- A synchronised character receiver, its memories not known. -/
def charRx : CharRx where
  ifMode := .if4Hi
  legacyCnt := 0
  hiNib := .is 0x0#4
  hiRs := .is false
  ac := .is 0#7
  acSel := .is .ddram
  chCfg := ⟨.is true, .is false, .is false, .is true, .is false, .is true, .is false⟩
  ddram := []
  cgram := []

/-- A synchronised pixel receiver on an idle bus at column 0 of page 0, its memory not known. -/
def pixelRx : PixelRx where
  busCond := .idle
  bits := []
  phase := .payload
  addressed := .is true
  stream := .is .command
  pxSync := true
  pxOn := .is true
  colLo := .is 0#4
  colHi := .is 0#3
  pagePtr := .is 0#3
  gddram := []

/-- A synchronised machine of a given width with a request stream, the serial bus idle. -/
def wide (cols : Columns) (req : List Byte) : State where
  cfg := Config.standard cols testFont
  req := req
  lines := ⟨0x0#4, false, false, true, true⟩
  pc := 0
  trace := []
  refused := none
  lcd := charRx
  px := pixelRx

/-- The same with sixteen columns. -/
def start (req : List Byte) : State := wide .c16 req

/-- The same with `SCL` and `SDA` 0 and the receiver open, as I2C.START leaves them. -/
def opened (req : List Byte) : State :=
  { start req with
    lines := ⟨0x0#4, false, false, false, false⟩
    px := { pixelRx with busCond := .opened, phase := .first } }

/-- Whether an outcome is a next state with a property. -/
def nextIs (o : Host.Outcome State Fault Refusal) (p : State → Bool) : Bool :=
  match o with
  | .next t => p t
  | _ => false

/-! ## Well-formedness refuses -/

theorem test_wf_refuses_operands :
    (∀ c, (Instr.lcdNib 0x20#8).wellFormed c = false) ∧
    (∀ c, (Instr.chSetcur 4#8 0#8).wellFormed c = false) ∧
    (Instr.chSetcur 0#8 16#8).wellFormed .c16 = false ∧
    (Instr.chSetcur 0#8 20#8).wellFormed .c20 = false ∧
    (∀ c, (Instr.chNum 4#8 0#8 1#16).wellFormed c = false) ∧
    (Instr.chNum 0#8 16#8 1#16).wellFormed .c16 = false ∧
    (∀ c rows, (Instr.chGlyph 8#8 rows).wellFormed c = false) ∧
    (∀ c, (Instr.pxClrpg 8#8).wellFormed c = false) ∧
    (∀ c, (Instr.pxSetpos 128#8 0#8).wellFormed c = false) ∧
    (∀ c, (Instr.pxSetpos 0#8 8#8).wellFormed c = false) ∧
    (∀ c p, (Instr.pxBlit 121#8 0#8 p).wellFormed c = false) ∧
    (∀ c p, (Instr.pxBlit 0#8 8#8 p).wellFormed c = false) ∧
    (∀ c, (Instr.pxNum 97#8 0#8 0#16).wellFormed c = false) ∧
    (∀ c, (Instr.pxNum 0#8 8#8 0#16).wellFormed c = false) ∧
    (∀ c, (Instr.pxNum 0#8 0#8 10000#16).wellFormed c = false) := by
  refine ⟨?_, ?_, rfl, rfl, ?_, rfl, fun _ _ => rfl, ?_, ?_, ?_, fun _ _ => rfl, fun _ _ => rfl, ?_, ?_, ?_⟩ <;>
    intro c <;> rfl

theorem test_wf_refuses_long_payload (ctl : Byte) (c : Columns) :
    (Instr.chText (List.replicate 256 0x41#8)).wellFormed c = false ∧
    (Instr.i2cXfer ctl (List.replicate 256 0x41#8)).wellFormed c = false := by
  have h : (List.replicate 256 0x41#8).length ≤ 255 ↔ False := by
    rw [List.length_replicate]; decide
  constructor <;> simp only [Instr.wellFormed, Instr.encodable, h, decide_false, Bool.false_and]

theorem test_wf_accepts_bounds :
    (Instr.lcdNib 0x1F#8).wellFormed .c16 ∧ (Instr.chSetcur 3#8 15#8).wellFormed .c16 ∧
    (Instr.chSetcur 3#8 19#8).wellFormed .c20 ∧ (Instr.chNum 3#8 15#8 0xFFFF#16).wellFormed .c16 ∧
    (Instr.chGlyph 7#8 (fontRow 0#8)).wellFormed .c16 ∧ (Instr.pxClrpg 7#8).wellFormed .c16 ∧
    (Instr.pxSetpos 127#8 7#8).wellFormed .c16 ∧ (Instr.pxBlit 120#8 7#8 (fontRow 0#8)).wellFormed .c16 ∧
    (Instr.pxNum 96#8 7#8 9999#16).wellFormed .c16 := by decide

/-! ## One word of every constructor, written out from R81 and R83 -/

theorem test_decode_parallel :
    decode [0x10#8] = .ok (.lcdInit, []) ∧
    decode [0x11#8, 0x28#8] = .ok (.lcdCmd 0x28#8, []) ∧
    decode [0x12#8, 0x41#8] = .ok (.lcdDat 0x41#8, []) ∧
    decode [0x13#8, 0x13#8, 0x10#8] = .ok (.lcdNib 0x13#8, [0x10#8]) := by decide

theorem test_decode_serial :
    decode [0x20#8] = .ok (.i2cStart, []) ∧
    decode [0x21#8] = .ok (.i2cStop, []) ∧
    decode [0x22#8, 0xA5#8] = .ok (.i2cWrb 0xA5#8, []) ∧
    decode [0x23#8, 0x00#8, 0x02#8, 0xAE#8, 0xAF#8, 0x20#8] = .ok (.i2cXfer 0x00#8 [0xAE#8, 0xAF#8], [0x20#8]) ∧
    decode [0x23#8, 0x40#8, 0x00#8] = .ok (.i2cXfer 0x40#8 [], []) ∧
    decode [0x24#8, 0xAF#8] = .ok (.oledCmd 0xAF#8, []) ∧
    decode [0x25#8, 0xFF#8] = .ok (.oledDat 0xFF#8, []) ∧
    decode [0x26#8] = .ok (.oledInit, []) := by decide

theorem test_decode_char :
    decode [0x30#8] = .ok (.chClear, []) ∧
    decode [0x31#8, 0x02#8, 0x05#8] = .ok (.chSetcur 2#8 5#8, []) ∧
    decode [0x32#8, 0x41#8] = .ok (.chPutc 0x41#8, []) ∧
    decode [0x33#8, 0x02#8, 0x48#8, 0x49#8, 0x30#8] = .ok (.chText [0x48#8, 0x49#8], [0x30#8]) ∧
    decode [0x34#8, 0x01#8, 0x0E#8, 0x1F#8, 0x15#8, 0x1F#8, 0x0E#8, 0x0A#8, 0x0B#8, 0x00#8] =
      .ok (.chGlyph 1#8 ⟨0x0E#8, 0x1F#8, 0x15#8, 0x1F#8, 0x0E#8, 0x0A#8, 0x0B#8, 0x00#8⟩, []) ∧
    decode [0x35#8, 0x00#8, 0x0C#8, 0xD2#8, 0x04#8] = .ok (.chNum 0#8 12#8 1234#16, []) := by decide

theorem test_decode_pixel :
    decode [0x40#8] = .ok (.pxClear, []) ∧
    decode [0x41#8, 0x06#8] = .ok (.pxClrpg 6#8, []) ∧
    decode [0x42#8, 0x25#8, 0x03#8] = .ok (.pxSetpos 37#8 3#8, []) ∧
    decode [0x43#8, 0x10#8, 0x06#8, 1#8, 2#8, 3#8, 4#8, 5#8, 6#8, 7#8, 8#8] =
      .ok (.pxBlit 16#8 6#8 ⟨1#8, 2#8, 3#8, 4#8, 5#8, 6#8, 7#8, 8#8⟩, []) ∧
    decode [0x44#8, 0x00#8, 0x07#8, 0x0F#8, 0x27#8] = .ok (.pxNum 0#8 7#8 9999#16, []) := by decide

theorem test_decode_errors :
    decode [0x45#8] = .error .badOpcode ∧ decode [0x00#8] = .error .badOpcode ∧
    decode [0x35#8, 0x00#8, 0x0C#8, 0xD2#8] = .error .truncated ∧
    decode [0x33#8, 0x03#8, 0x41#8, 0x42#8] = .error .truncated ∧
    decode [0x34#8, 0xFF#8, 0x00#8] = .error .truncated := by decide

/-- The table's numbering: byte 0 of the request is the low byte of the word, and absent bytes are 0. -/
theorem test_table_word :
    decodeTableWord 8 0x10 = some .lcdInit ∧ decodeTableWord 24 0x050231 = some (.chSetcur 2#8 5#8) ∧
    decodeTableWord 40 0x04D20C0035 = some (.chNum 0#8 12#8 1234#16) ∧
    decodeTableWord 8 0x33 = some (.chText []) ∧ decodeTableWord 8 0x45 = none := by decide

/-- Straight from reset, the placed word is the one that runs. -/
theorem test_fetch_word :
    nextIs (step (State.reset.withFetchWord 16 0x4111)) (fun t => t.pc == 2 && t.trace == lcdByte false 0x41#8) =
      true := by decide +kernel

/-! ## One-step vectors -/

theorem test_V10_lcd_nib : nextIs (exec (.lcdNib 0x13#8) (start [])) (fun t =>
    t.trace == [.nib 3#4, .rs true, .en true, .wait 5, .en false, .wait 1000] && t.lines.nib == 3#4 &&
      t.lines.rs && !t.lines.en && t.pc == 2) = true := by decide

theorem test_V11_lcd_cmd : nextIs (exec (.lcdCmd 0x28#8) (start [])) (fun t =>
    t.trace == [.nib 2#4, .rs false, .en true, .wait 5, .en false, .wait 1000,
      .nib 8#4, .rs false, .en true, .wait 5, .en false, .wait 1000] &&
    normalForm (start []).lines t.trace == [.nib 2#4, .en true, .wait 5, .en false, .wait 1000,
      .nib 8#4, .en true, .wait 5, .en false, .wait 1000]) = true := by decide

theorem test_V14_lcd_dat : nextIs (exec (.lcdDat 0x41#8) (start [])) (fun t =>
    latched (start []).lines t.trace == [(true, 4#4), (true, 1#4)] && waitSum t.trace == 2010 &&
      Memory.read t.lcd.ddram 0 == .is 0x41#8) = true := by decide

/-- V15, from the worst levels: the first rise of `EN` vanishes and two waits merge. -/
theorem test_V15_lcd_init :
    nextIs (exec .lcdInit { State.powerUp (Config.standard .c16 testFont) [] ⟨0xF#4, true, true, false, false⟩ with
        pc := 0 }) (fun t =>
      (normalForm ⟨0xF#4, true, true, false, false⟩ t.trace).take 8 == [.wait 20000, .nib 3#4, .rs false, .wait 5,
        .en false, .wait 5100, .en true, .wait 5] &&
      t.lcd.ifMode == .if4Hi && Memory.read t.lcd.ddram 127 == .is 0x20#8 &&
      Memory.read t.lcd.cgram 0 == .unspecified) = true := by decide +kernel

theorem test_V31_i2c_start : nextIs (exec .i2cStart { start [] with lines := ⟨0#4, false, false, true, false⟩ })
    (fun t => normalForm ⟨0#4, false, false, true, false⟩ t.trace == [.sda true, .sda false, .scl false] &&
      t.px.busCond == .opened) = true := by decide

theorem test_V32_i2c_wrb : nextIs (exec (.i2cWrb 0xA5#8) (opened [])) (fun t =>
    clocked (opened []).lines t.trace == [true, false, true, false, false, true, false, true, true] &&
      (normalForm (opened []).lines t.trace).length == 25 && t.trace.length == 54) = true := by decide +kernel

theorem test_V43_i2c_wrb_idle :
    nextIs (exec (.i2cWrb 0x55#8) (start [])) (fun t => t.px.busCond == .opened &&
      t.px.bits == [true, false, true, false, true, false, true, true]) = true ∧
    nextIs (exec (.i2cWrb 0xD5#8) (start [])) (fun t => t.px.busCond == .idle && t.px.bits == []) = true :=
        by decide +kernel

theorem test_V35_i2c_stop : nextIs (exec .i2cStop { opened [] with lines := ⟨0#4, false, false, false, true⟩ })
    (fun t => normalForm ⟨0#4, false, false, false, true⟩ t.trace == [.sda false, .scl true, .sda true] &&
      t.px.busCond == .idle) = true := by decide

theorem test_V37_i2c_xfer : nextIs (exec (.i2cXfer 0x00#8 [0xAE#8, 0xAF#8]) (start [])) (fun t =>
    t.trace.length == 229 &&
      transactions (start []).lines t.trace == [[0x78#8, 0x00#8, 0xAE#8, 0xAF#8]]) = true := by decide +kernel

theorem test_V41_oled_cmd : nextIs (exec (.oledCmd 0xAF#8) (start [])) (fun t =>
    t.trace.length == 175 && (normalForm (start []).lines t.trace).length == 68 &&
      transactions (start []).lines t.trace == [[0x78#8, 0x00#8, 0xAF#8]]) = true := by decide +kernel

theorem test_V40_oled_dat : nextIs (exec (.oledDat 0xFF#8) (start [])) (fun t =>
    (normalForm (start []).lines t.trace).length == 66 && t.column 0 0 == .is 0xFF#8 &&
      t.px.colPtr == .is 1#7) = true := by decide +kernel

/-- The twenty bytes of V42 and R152, and what R153 leaves, here with the sequence cut to its last byte. -/
theorem test_V42_oled_init :
    oledInitDefault = [0xAE#8, 0xD5#8, 0x80#8, 0xA8#8, 0x3F#8, 0xD3#8, 0x00#8, 0x40#8, 0x8D#8, 0x14#8, 0x20#8,
      0x02#8, 0xA1#8, 0xC8#8, 0xDA#8, 0x12#8, 0x81#8, 0xCF#8, 0xA4#8, 0xAF#8] ∧
    nextIs (exec .oledInit { opened [] with cfg := { Config.standard .c16 testFont with oledInitSeq := [0xAF#8] } })
      (fun t => t.px.pxSync && t.px.pxOn == .is true && t.px.colPtr == .unspecified && t.px.busCond == .idle &&
        t.trace.length == 175) = true := by decide +kernel

theorem test_V50_ch_clear : nextIs (exec .chClear (start [])) (fun t =>
    latched (start []).lines t.trace == [(false, 0#4), (false, 1#4)] && t.lcd.ac == .is 0#7 &&
      Memory.read t.lcd.ddram 0x50 == .is 0x20#8) = true := by decide

/-- V51 and V52: the byte and the address counter, for both widths. -/
theorem test_V51_ch_setcur :
    nextIs (exec (.chSetcur 2#8 5#8) (start [])) (fun t => t.lcd.ac == .is 0x15#7 &&
      latched (start []).lines t.trace == [(false, 9#4), (false, 5#4)]) = true ∧
    nextIs (exec (.chSetcur 2#8 5#8) (wide .c20 [])) (fun t => t.lcd.ac == .is 0x19#7) = true ∧
    nextIs (exec (.chSetcur 3#8 15#8) (start [])) (fun t =>
      latched (start []).lines t.trace == [(false, 0xD#4), (false, 0xF#4)]) = true ∧
    nextIs (exec (.chSetcur 3#8 19#8) (wide .c20 [])) (fun t =>
      latched (start []).lines t.trace == [(false, 0xE#4), (false, 0x7#4)]) = true := by decide

theorem test_V53_ch_putc : nextIs (exec (.chPutc 0x41#8) (start [])) (fun t =>
    latched (start []).lines t.trace == [(true, 4#4), (true, 1#4)] && t.lcd.ac == .is 1#7) = true := by decide

/-- V56: the text leaves row 0 into row 2. -/
theorem test_V56_ch_text :
    nextIs (exec (.chText [0x41#8, 0x42#8, 0x43#8, 0x44#8])
      { start [] with lcd := { charRx with ac := .is 0x0E#7 } }) (fun t => t.lcd.ac == .is 0x12#7 &&
        t.cell 0#8 14#8 == .is 0x41#8 && t.cell 0#8 15#8 == .is 0x42#8 && t.cell 2#8 0#8 == .is 0x43#8 &&
        t.cell 2#8 1#8 == .is 0x44#8) = true ∧
    nextIs (exec (.chText []) (start [])) (fun t => t.trace == [] && t.pc == 2) = true := by decide

theorem test_V55_ch_glyph :
    nextIs (exec (.chGlyph 1#8 ⟨0x0E#8, 0x1F#8, 0x15#8, 0x1F#8, 0x0E#8, 0x0A#8, 0x0B#8, 0x00#8⟩) (start [])) (fun t =>
      (List.range 8).map (fun r => t.glyphRow 1 r) == [.is 0x0E#8, .is 0x1F#8, .is 0x15#8, .is 0x1F#8, .is 0x0E#8,
        .is 0x0A#8, .is 0x0B#8, .is 0x00#8] &&
      t.lcd.acSel == .is .cgram && t.lcd.ac == .is 16#7 && t.trace.length == 108) = true := by decide +kernel

theorem test_V73_ch_num : nextIs (exec (.chNum 0#8 12#8 1234#16) (start [])) (fun t =>
    latched (start []).lines t.trace == [(false, 8#4), (false, 0xC#4), (true, 3#4), (true, 1#4), (true, 3#4),
      (true, 2#4), (true, 3#4), (true, 3#4), (true, 3#4), (true, 4#4)] && t.lcd.ac == .is 0x10#7) = true :=
          by decide +kernel

theorem test_V70_digits :
    charDigits 0#16 = [0] ∧ charDigits 7#16 = [7] ∧ charDigits 10#16 = [1, 0] ∧ charDigits 256#16 = [2, 5, 6] ∧
    charDigits 10000#16 = [1, 0, 0, 0, 0] ∧ charDigits 65535#16 = [6, 5, 5, 3, 5] ∧
    pixDigits 0#16 = [0, 0, 0, 0] ∧ pixDigits 42#16 = [0, 0, 4, 2] ∧ pixDigits 9999#16 = [9, 9, 9, 9] := by decide

theorem test_V60_px_setpos : nextIs (exec (.pxSetpos 37#8 3#8) (start [])) (fun t =>
    transactions (start []).lines t.trace == [[0x78#8, 0x00#8, 0xB3#8], [0x78#8, 0x00#8, 0x05#8],
      [0x78#8, 0x00#8, 0x12#8]] && t.px.pagePtr == .is 3#3 && t.px.colPtr == .is 37#7) = true := by decide +kernel

/-- V62 and V63 on the list of transactions, whose steps are long. -/
theorem test_V62_px_clrpg :
    (transfers (start []).cfg (.pxClrpg 6#8)).take 4 = [[0x78#8, 0x00#8, 0xB6#8], [0x78#8, 0x00#8, 0x00#8],
      [0x78#8, 0x00#8, 0x10#8], [0x78#8, 0x40#8, 0x00#8]] ∧
    (transfers (start []).cfg (.pxClrpg 6#8)).length = 131 := by decide +kernel

theorem test_V65_px_blit : nextIs (exec (.pxBlit 120#8 0#8 ⟨0xFF#8, 2#8, 3#8, 4#8, 5#8, 6#8, 7#8, 0x81#8⟩) (start []))
    (fun t => t.column 0 120 == .is 0xFF#8 && t.column 0 127 == .is 0x81#8 && t.column 0 0 == .unspecified &&
      t.px.colPtr == .is 0#7) = true := by decide +kernel

/-- V76, the data of the four blits. -/
theorem test_V76_px_num :
    ((transfers (start []).cfg (.pxNum 96#8 0#8 42#16)).drop 22).take 5 = [[0x78#8, 0x00#8, 0xB0#8],
      [0x78#8, 0x00#8, 0x00#8], [0x78#8, 0x00#8, 0x17#8], [0x78#8, 0x40#8, 0x40#8], [0x78#8, 0x40#8, 0x41#8]] :=
          by decide +kernel

/-! ## Refusals -/

/-- V91, V93, V94, V95, V96, V97: the code, the mark's `pc`, and no event. -/
theorem test_refusals :
    (∀ x ∈ [([0x35#8, 0x00#8, 0x0C#8, 0xD2#8], RefuseCode.truncated), ([0x33#8, 0x03#8, 0x41#8, 0x42#8], .truncated),
        ([0x13#8, 0x23#8], .badOperand), ([0x31#8, 0x00#8, 0x10#8], .badOperand),
        ([0x43#8, 0x79#8, 0x00#8, 1#8, 2#8, 3#8, 4#8, 5#8, 6#8, 7#8, 8#8], .badOperand), ([0x45#8], .badOpcode)],
      nextIs (step (start x.1)) (fun t => t.refused == some ⟨x.2, 0⟩ && t.trace == [] && t.pc == 0) = true) ∧
    nextIs (step (wide .c20 [0x31#8, 0x00#8, 0x10#8])) (fun t => t.refused == none && t.lcd.ac == .is 0x10#7) = true :=
        by
  decide

/-- V92, V90: the first request runs, the second is refused at its own `pc`. -/
theorem test_V92_refused_later :
    nextIs (runFor 2 (start [0x30#8, 0x00#8, 0x30#8])) (fun t =>
      t.refused == some ⟨.badOpcode, 1⟩ && t.pc == 1 && t.trace.length == 12) = true ∧
    nextIs (runFor 2 (start [0x11#8, 0x01#8, 0x31#8, 0x04#8, 0x00#8, 0x12#8, 0x41#8])) (fun t =>
      t.refused == some ⟨.badOperand, 2⟩ && t.pc == 2 && t.trace.length == 12) = true := by decide

/-! ## Witnesses: states and operands that meet the hypotheses of the statements -/

/-- DecodeOfEncodeIsTheRequest: the longest payload and the shortest. -/
theorem test_witness_encodable (b : Byte) :
    (Instr.chText (List.replicate 255 b)).encodable = true ∧ (Instr.i2cXfer b (List.replicate 255 b)).encodable = true ∧
    (Instr.chText []).encodable = true ∧ Instr.lcdInit.encodable = true := by
  have h : (List.replicate 255 b).length ≤ 255 := by rw [List.length_replicate]
  exact ⟨decide_eq_true h, decide_eq_true h, rfl, rfl⟩

/-- DecodedBytesAreTheEncoding. -/
theorem test_witness_decoded : decode [0x33#8, 0x01#8, 0x48#8, 0x49#8] = .ok (.chText [0x48#8], [0x49#8]) := by decide

/-- ReservedOpcodeIsRefused: both ends of every reserved range are refused, and their neighbours are not. -/
theorem test_witness_reserved :
    (∀ op ∈ [0x00#8, 0x0F#8, 0x14#8, 0x1F#8, 0x27#8, 0x2F#8, 0x36#8, 0x3F#8, 0x45#8, 0xFF#8],
      (start [op]).refused = none ∧ (start [op]).req.drop (start [op]).pc = op :: [] ∧
      nextIs (step (start [op])) (fun t => t.refused == some ⟨.badOpcode, 0⟩) = true) ∧
    (∀ op ∈ [0x10#8, 0x13#8, 0x20#8, 0x26#8, 0x30#8, 0x35#8, 0x40#8, 0x44#8],
      (decode [op] == .error .badOpcode) = false) := by decide

/-- TruncatedRequestIsRefused: one byte of five, and all but one. -/
theorem test_witness_truncated :
    (∀ n ∈ [1, 4], 0 < n ∧ n < (Instr.chNum 9#8 99#8 1234#16).length ∧ (Instr.chNum 9#8 99#8 1234#16).encodable = true ∧
      (start ((encode (.chNum 9#8 99#8 1234#16)).take n)).req.drop 0 = (encode (.chNum 9#8 99#8 1234#16)).take n ∧
      nextIs (step (start ((encode (.chNum 9#8 99#8 1234#16)).take n)))
        (fun t => t.refused == some ⟨.truncated, 0⟩) = true) := by decide

/-- OperandRangesDecideAcceptance: the last accepted and the first refused value of every range. -/
theorem test_witness_ranges :
    (0x1F#8).extractLsb' 5 3 = 0#3 ∧ (0x20#8).extractLsb' 5 3 ≠ 0#3 ∧
    ((3#8).toNat ≤ 3 ∧ (15#8).toNat ≤ (start []).cfg.cols.count - 1) ∧
    ¬ ((4#8).toNat ≤ 3 ∧ (15#8).toNat ≤ (start []).cfg.cols.count - 1) ∧
    ¬ ((3#8).toNat ≤ 3 ∧ (16#8).toNat ≤ (start []).cfg.cols.count - 1) ∧
    ((7#8).toNat ≤ 7 ∧ ¬ (8#8).toNat ≤ 7) ∧ ((127#8).toNat ≤ 127 ∧ ¬ (128#8).toNat ≤ 127) ∧
    ((120#8).toNat ≤ 120 ∧ ¬ (121#8).toNat ≤ 120) ∧ ((96#8).toNat ≤ 96 ∧ ¬ (97#8).toNat ≤ 96) ∧
    ((9999#16).toNat ≤ 9999 ∧ ¬ (10000#16).toNat ≤ 9999) := by decide

/-- StepRunsTheDecodedRequest, PcMovesByTheRequestLength, StepOnlyAppendsToTheTrace, ReceiversAreNeverRead. -/
theorem test_witness_step :
    (start [0x12#8, 0x41#8]).refused = none ∧ (start [0x12#8, 0x41#8]).pc ≠ (start [0x12#8, 0x41#8]).req.length ∧
    decode ((start [0x12#8, 0x41#8]).req.drop (start [0x12#8, 0x41#8]).pc) = .ok (.lcdDat 0x41#8, []) ∧
    nextIs (step (start [0x12#8, 0x41#8])) (fun t => t.refused == none && t.pc == 2) = true := by decide

/-- StepStopsOnlyAtTheEndOrAfterARefusal, each clause. -/
theorem test_witness_stops :
    step (start []) = .fault .runOver ∧
    step { start [0x10#8] with refused := some ⟨.badOperand, 0⟩ } = .refused (.requestRefused ⟨.badOperand, 0⟩) :=
  ⟨rfl, rfl⟩

/-- RefusalIsPrecise: each code has a step. -/
theorem test_witness_refusal_codes :
    nextIs (step (start [0x45#8])) (fun t => t.refused == some ⟨.badOpcode, 0⟩) = true ∧
    nextIs (step (start [0x12#8])) (fun t => t.refused == some ⟨.truncated, 0⟩) = true ∧
    nextIs (step (start [0x41#8, 0x08#8])) (fun t => t.refused == some ⟨.badOperand, 0⟩) = true := by decide

/-- WellFormedProgramRunsToItsEnd and EveryRunEnds: a program of two requests after one byte, and a run that is refused. -/
theorem test_witness_program :
    (start []).refused = none ∧
    (∀ i ∈ [Instr.chSetcur 3#8 15#8, .chPutc 0x41#8], i.wellFormed (start []).cfg.cols = true) ∧
    ({ start ([0x10#8] ++ [Instr.chSetcur 3#8 15#8, .chPutc 0x41#8].flatMap encode) with pc := 1 }).pc =
      [0x10#8].length ∧
    (start [0x45#8]).pc ≤ (start [0x45#8]).req.length := by decide

/-- BackendsAreIndependent: an operation of each group. -/
theorem test_witness_groups :
    (encode (.lcdCmd 1#8)).head? = some 0x11#8 ∧ (0x11#8).extractLsb' 4 4 = 1#4 ∧
    (encode .i2cStop).head? = some 0x21#8 ∧ (0x21#8).extractLsb' 4 4 = 2#4 ∧
    (encode .chClear).head? = some 0x30#8 ∧ (0x30#8).extractLsb' 4 4 = 3#4 ∧
    (encode (.pxClrpg 9#8)).head? = some 0x41#8 ∧ (0x41#8).extractLsb' 4 4 = 4#4 ∧
    nextIs (exec (.lcdCmd 1#8) (start [])) (fun _ => true) = true ∧
    nextIs (exec .i2cStop (start [])) (fun _ => true) = true ∧
    nextIs (exec .chClear (start [])) (fun _ => true) = true ∧
    nextIs (exec (.pxClrpg 9#8) (start [])) (fun t => t.refused != none) = true := by decide

/-- StepKeepsTheInvariant: the state after power-up with a program meets it, and a step of it answers. -/
theorem test_witness_invariant (l : Lines) :
    (State.powerUp (Config.standard .c16 testFont) [0x11#8, 0x01#8] l).Inv ∧
    nextIs (step (State.powerUp (Config.standard .c16 testFont) [0x11#8, 0x01#8] l)) (fun _ => true) = true :=
  ⟨⟨Nat.zero_le _, by simp [State.powerUp], CharRx.reset_inv, PixelRx.reset_inv l⟩, rfl⟩

/-- StepKeepsTheInvariant: so does a state with synchronised receivers. -/
theorem test_witness_invariant_ready : (start [0x11#8, 0x01#8]).Inv := by
  refine ⟨by decide, by decide, ⟨by decide, by decide, by decide, by decide, by decide, by decide, by decide,
    by decide, ?_, by decide, by decide, by decide⟩, ⟨by decide, by decide, by decide, by decide, by decide, by decide⟩⟩
  intro h
  cases h

/-- PowerUpValues: both clauses of `BUSCOND`. -/
theorem test_witness_powerUp_lines :
    ((⟨0#4, false, false, true, true⟩ : Lines).scl = true ∧ (⟨0#4, false, false, true, true⟩ : Lines).sda = true) ∧
    ¬ (Lines.reset.scl = true ∧ Lines.reset.sda = true) := by decide

/-- LcdNibIsOneNibbleTransfer: the ends of the accepted operands. -/
theorem test_witness_nib : (0x00#8).extractLsb' 5 3 = 0#3 ∧ (0x1F#8).extractLsb' 5 3 = 0#3 := by decide

/-- ByteIsHighNibbleThenLowNibble: each of the three operations. -/
theorem test_witness_byte (b : Byte) :
    (Instr.lcdCmd b = .lcdCmd b ∧ false = false) ∧ (Instr.lcdDat b = .lcdDat b ∧ true = true) ∧
    (Instr.chPutc b = .chPutc b ∧ true = true) := by simp

/-- NibAndRsAreStableAroundTheStrobe: the second write of `NIB` of a byte. -/
theorem test_witness_stable :
    (start []).lines.en = false ∧
    [Instr.lcdCmd 0x28#8].flatMap (wireEvents (start []).cfg) =
      [.nib 2#4, .rs false, .en true, .wait 5, .en false, .wait 1000] ++
        .nib 8#4 :: [.rs false, .en true, .wait 5, .en false, .wait 1000] := by decide

/-- LcdInitSequence, LcdInitFromAnyState, ThreeLegacyStrobesForceEightBitMode, LeastDurations, EventAndTransactionCounts:
the default parameters. -/
theorem test_witness_defaults :
    (start []).cfg.charStandard ∧ CommandsLegal (start []).cfg ∧ ownCommand (start []).cfg 0x33#8 = none ∧
    (start []).cfg.tInit1 = 4100 ∧ (start []).cfg.tInit2 = 100 ∧ (start []).cfg.tInit3 = 0 ∧ (start []).cfg.tI2c = 0 ∧ (start []).cfg.oledInitSeq = oledInitDefault ∧
    (start []).cfg.oledInitSeq ≠ [] ∧ (start []).cfg.oledSeqLegal ∧ SetposMatched (start []).cfg ∧
    (start []).cfg.pxSetpos = .standard ∧ onParallelBus .pxClear = false :=
  ⟨⟨by decide, rfl, rfl⟩, by decide, rfl, rfl, rfl, rfl, rfl, rfl, by decide, by decide,
    setposMatched_of_standard rfl, rfl, rfl⟩

/-- The receiver's rows of the build below. -/
def otherRows : List (Byte × PosEffect) :=
  (List.range 16).map (fun n => (BitVec.ofNat 8 (0x20 + n), ⟨none, some (BitVec.ofNat 4 n), none⟩)) ++
    (List.range 8).map (fun n => (BitVec.ofNat 8 (0x30 + n), ⟨none, none, some (BitVec.ofNat 3 n)⟩)) ++
    (List.range 8).map (fun n => (BitVec.ofNat 8 (0xD0 + n), ⟨some (BitVec.ofNat 3 n), none, none⟩))

/-- The command bytes of the build below for row `i` of its table. -/
def otherBytes (i : Nat) : List Byte :=
  [BitVec.ofNat 8 (0x20 + i % 16), BitVec.ofNat 8 (0x30 + i % 128 / 16), BitVec.ofNat 8 (0xD0 + i / 128)]

/-- A build with another `PX_SETPOS`: the low part of the column, the high part and then the page, at other command
bytes than R60's, with the receiver's rows for those bytes. -/
def otherBuild : Config :=
  { Config.standard .c16 testFont with pxSetpos := .table ((List.range 1024).map otherBytes) otherRows }

/-- The statements about builds whose position rows match: that build is one. -/
theorem test_witness_other_setpos : SetposMatched otherBuild ∧ otherBuild.ctlCmd ≠ otherBuild.ctlDat := by
  refine ⟨fun x hx page hp => ?_, by decide⟩
  have hr : ∀ x < 128, ∀ page < 8, positionsOf otherBuild (otherBytes (128 * page + x)) =
      some ⟨some (BitVec.ofNat 3 page), some (BitVec.ofNat 4 x), some (BitVec.ofNat 3 (x / 16))⟩ := by decide +kernel
  rw [← hr x hx page hp]
  simp [setposBytes, otherBuild, show page % 256 = page by omega, show x % 256 = x by omega,
    show 128 * page + x < 1024 by omega]

/-- Its position command moves the write position, and R60's own page row is gone from its receiver. -/
theorem test_other_setpos :
    nextIs (exec (.pxSetpos 37#8 3#8) { start [] with cfg := otherBuild }) (fun t =>
      t.px.colPtr == .is 37#7 && t.px.pagePtr == .is 3#3) = true ∧
    transfers otherBuild (.pxSetpos 37#8 3#8) =
      [[0x78#8, 0x00#8, 0x25#8], [0x78#8, 0x00#8, 0x32#8], [0x78#8, 0x00#8, 0xD3#8]] ∧
    (pixelRx.command otherBuild 0xB3#8).pxSync = false := by decide +kernel

/-- The statements about a synchronised character receiver, in both widths, at the ends of their operands. -/
theorem test_witness_charReady :
    (start []).charReady ∧ (wide .c20 []).charReady ∧ (start []).cfg.rowsLegal ∧ (wide .c20 []).cfg.rowsLegal ∧
    (start []).cfg.rowBase = RowBase.standard (start []).cfg.cols ∧
    (wide .c20 []).cfg.rowBase = RowBase.standard (wide .c20 []).cfg.cols ∧
    (3#8).toNat ≤ 3 ∧ (15#8).toNat ≤ (start []).cfg.cols.count - 1 ∧ (19#8).toNat ≤ (wide .c20 []).cfg.cols.count - 1 ∧
    (15#8).toNat + [0x41#8].length ≤ (start []).cfg.cols.count ∧
    (11#8).toNat + (charDigits 65535#16).length ≤ (start []).cfg.cols.count ∧ (7#8).toNat ≤ 7 ∧
    (start []).lcd.acSel = .is .ddram ∧ (start []).lcd.ac = .is 0#7 ∧ (List.replicate 80 0x41#8).length ≤ 80 := by
  decide

/-- GlyphCellShowsItsGlyph, second clause: a cell that holds a slot's code. Its pixel is the glyph's (R54, R164). -/
theorem test_witness_glyph_cell :
    let s := { start [] with lcd := { charRx with ddram := [(0x4F, 7#8)], cgram := [(57, 0x10#8)] } }
    s.charReady ∧ (7#8).toNat ≤ 7 ∧ s.cell 1#8 15#8 = .is 7#8 ∧ s.shownPixel 1#8 15#8 1 0 = .is true ∧
      s.shownPixel 1#8 15#8 1 1 = .is false ∧ s.shownPixel 1#8 14#8 1 0 = .unspecified := by decide

/-- What a command byte does to the receiver of the tests. -/
def commanded (cfg : Config) (b : Byte) : CharRx := CharRx.perform (commandOf cfg b) charRx

/-- CommandByteTakesItsTableRow: both ends of every row, on the receiver. -/
theorem test_witness_command_rows :
    let r := commanded (start []).cfg
    (start []).cfg.charCommandsStandard ∧ charRx.ifMode = .if4Hi ∧
    (r 0x01#8).ac = .is 0#7 ∧ (r 0x02#8).ac = .is 0#7 ∧ (r 0x03#8).ac = .is 0#7 ∧
    (r 0x04#8).chCfg.id = .is false ∧ (r 0x07#8).chCfg.s = .is true ∧
    (r 0x08#8).chCfg.d = .is false ∧ (r 0x0F#8).chCfg.b = .is true ∧
    (r 0x20#8).chCfg.n = .is false ∧ (r 0x3F#8).ifMode = .if8 ∧
    (r 0x40#8).ac = .is 0#7 ∧ (r 0x7F#8).ac = .is 63#7 ∧
    (r 0x80#8).ac = .is 0#7 ∧ (r 0xFF#8).ac = .is 127#7 ∧
    (r 0x00#8).ifMode = .unknown ∧ (r 0x10#8).ifMode = .unknown ∧ (r 0x1F#8).ifMode = .unknown := by decide

/-- CommandByteTakesItsTableRow, second clause: a build with one other command value keeps every other row, home among
them, and its own command takes the meaning of R6. -/
theorem test_witness_other_dispon :
    let cfg := { (start []).cfg with cmdDispon := 0x0E#8 }
    CommandsLegal cfg ∧ ownCommand cfg 0x02#8 = none ∧ ownCommand cfg 0x33#8 = none ∧
    (commanded cfg 0x0E#8).chCfg.d = .is true ∧ (commanded cfg 0x0E#8).chCfg.c = .is false ∧
    (commanded cfg 0x02#8).ac = .is 0#7 ∧ (commanded cfg 0x02#8).ifMode = .if4Hi ∧
    (commanded cfg 0x04#8).chCfg.id = .is false ∧ (commanded cfg 0x7F#8).ac = .is 63#7 ∧
    (commanded cfg 0x0C#8).ifMode = .unknown := by decide

/-- DataByteIsStoredAtTheAddressCounter: each clause, at the jumps of the address order and at the end of glyph memory. -/
theorem test_witness_data_clauses :
    charRx.chCfg.id = .is true ∧ charRx.chCfg.s = .is false ∧
    ({ charRx with ac := .is 0x27#7 }.data 0x41#8).ac = .is 0x40#7 ∧
    ({ charRx with ac := .is 0x67#7 }.data 0x41#8).ac = .is 0x00#7 ∧
    ({ charRx with ac := .is 0x7F#7 }.data 0x41#8).ac = .is 0x00#7 ∧
    ({ charRx with ac := .is 63#7, acSel := .is .cgram }.data 0xFF#8).ac = .is 0#7 ∧
    Memory.read ({ charRx with ac := .is 63#7, acSel := .is .cgram }.data 0xFF#8).cgram 63 = .is 0x1F#8 ∧
    ({ charRx with ac := .unspecified, ddram := [(0, 1#8)] }.data 0x41#8).ddram = [] ∧
    ({ charRx with chCfg := .unspecified }.data 0x41#8).ifMode = .unknown ∧
    charRx.chCfg.known = true ∧ charRx.chCfg.functionLost.known = false ∧
    ({ charRx with chCfg := charRx.chCfg.functionLost, ddram := [(0, 1#8)] }.data 0x41#8).ddram = [] ∧
    ({ charRx with chCfg := charRx.chCfg.functionLost, ddram := [(0, 1#8)] }.data 0x41#8).ac = .is 1#7 ∧
    ¬ ((ChCfg.unspecified).id = .is true ∧ (ChCfg.unspecified).s = .is false) := by decide

/-- LoneNibbleShiftsThePairing: a command nibble and a data nibble. -/
theorem test_witness_lone_nibble :
    (0x0F#8).extractLsb' 5 3 = 0#3 ∧ (0x0F#8).getLsbD 4 = false ∧ (0x10#8).extractLsb' 5 3 = 0#3 ∧
    (0x10#8).getLsbD 4 = true := by decide

/-- The statements about I2C.START, I2C.STOP and I2C.WRB: the states of their clauses. -/
theorem test_witness_bus :
    (start []).busIdle ∧ (opened []).lines.scl = false ∧ (opened []).px.busCond = .opened ∧ (opened []).px.bits = [] ∧
    (opened []).px.bits.length ≠ 8 ∧
    ({ opened [] with px := pixelRx }).lines.scl = false ∧ ({ opened [] with px := pixelRx }).px.busCond ≠ .opened ∧
    (0x80#8).getLsbD 7 = true ∧ (0x7F#8).getLsbD 7 = false := by decide

/-- TransactionsOfComposedOperations, PrimitivesComposeToTheTransaction: an operation of every composed form. -/
theorem test_witness_composed :
    ∀ i ∈ [Instr.i2cXfer 0x80#8 [], .oledCmd 0xAF#8, .oledDat 1#8, .oledInit, .pxClear, .pxClrpg 7#8,
        .pxSetpos 127#8 7#8,
      .pxBlit 120#8 7#8 (fontRow 1#8), .pxNum 96#8 7#8 9999#16], isComposed i = true := by decide

/-- The statements about the data stream, the command stream and other control bytes: each clause. -/
theorem test_witness_streams :
    (start []).cfg.ctlCmd ≠ (start []).cfg.ctlDat ∧ (start []).px.bits.length < 8 ∧ (start []).px.pxSync = true ∧
    (start []).px.colPtr = .is 0#7 ∧ (start []).px.pagePtr = .is 0#3 ∧
    (State.powerUp (start []).cfg [] Lines.reset).px.pxSync = false ∧
    (State.powerUp (start []).cfg [] Lines.reset).px.bits.length < 8 ∧
    0x80#8 ≠ (start []).cfg.ctlCmd ∧ 0x80#8 ≠ (start []).cfg.ctlDat ∧ [0x11#8, 0x22#8] ≠ [] ∧
    (PixelRx.setCol 127#7 pixelRx).colPtr = .is 127#7 ∧
    ((PixelRx.setCol 127#7 pixelRx).data 0x41#8).colPtr = .is 0#7 := by decide

/-- CommandStreamByteTakesItsTableRow: both ends of every row, on the receiver. -/
theorem test_witness_command_stream_rows :
    (pixelRx.command (start []).cfg 0x00#8).colLo = .is 0#4 ∧ (pixelRx.command (start []).cfg 0x0F#8).colLo = .is 15#4 ∧
    (pixelRx.command (start []).cfg 0x10#8).colHi = .is 0#3 ∧ (pixelRx.command (start []).cfg 0x17#8).colHi = .is 7#3 ∧
    (pixelRx.command (start []).cfg 0x18#8).pxSync = false ∧ (pixelRx.command (start []).cfg 0xAD#8).pxSync = false ∧
    (pixelRx.command (start []).cfg 0xAE#8).pxOn = .is false ∧ (pixelRx.command (start []).cfg 0xAF#8).pxOn = .is true ∧
    (pixelRx.command (start []).cfg 0xB0#8).pagePtr = .is 0#3 ∧ (pixelRx.command (start []).cfg 0xB7#8).pagePtr =
        .is 7#3 ∧
    (pixelRx.command (start []).cfg 0xB8#8).pxSync = false ∧ (pixelRx.command (start []).cfg 0xFF#8).pxSync = false :=
        by
  decide

/-- The statements about a synchronised pixel receiver, at the ends of their operands; two sprites that overlap. -/
theorem test_witness_pixelReady :
    (start []).pixelReady ∧ (127#8).toNat ≤ 127 ∧ (120#8).toNat ≤ 120 ∧ (96#8).toNat ≤ 96 ∧ (7#8).toNat ≤ 7 ∧
    (9999#16).toNat ≤ 9999 ∧ (start []).cfg.digitFont.distinct ∧ pixDigits 9999#16 = [9, 9, 9, 9] ∧
    ((100#8).toNat + 3 < (104#8).toNat ∧ ¬ (100#8).toNat + 4 < (104#8).toNat) := by decide

end Sys2Proof.Tests
end

/-! ## The normal form of a trace (R15)

Both rules of the normal form are invisible to the two receivers, the latched sequence and the transactions
(Laws/NormalForm.lean); the lemmas here join the two rules. -/

section

namespace Sys2Proof.Machine

/-- R15, R41: a list of events and its normal form lead to the same lines and the same receivers. -/
theorem alike_normalForm (feed : Byte → PixelRx → PixelRx) (es : List Event) (s : State) :
    Alike (emitAllVia feed (normalForm s.lines es) s) (emitAllVia feed es s) :=
  (alike_mergeWaits feed _ s).trans (alike_dropSilent feed es s)

/-- R116: the normal form keeps every change of `EN` from 1 to 0, with the levels it meets. -/
theorem latched_normalForm (l : Lines) (es : List Event) : latched l (normalForm l es) = latched l es :=
  (latched_mergeWaits _ l).trans (latched_dropSilent es l)

/-- R143: the normal form keeps every condition and every rising edge of the serial bus. -/
theorem transactions_normalForm (l : Lines) (es : List Event) :
    transactions l (normalForm l es) = transactions l es :=
  congrArg BusView.closed ((run_mergeWaits _ l .empty).trans (run_dropSilent es l .empty))

/-- Settles O17: neither rule of R15 is seen, first the dropped silent events and then the merged waits. -/
theorem normalFormIsAllTheReceiversSee : Obligations.NormalFormIsAllTheReceiversSee := by
  intro s es
  obtain ⟨-, hlines, hlcd, hpx⟩ := alike_normalForm (PixelRx.recvByte s.cfg) es s
  exact ⟨hlines, hlcd, hpx, latched_normalForm s.lines es, transactions_normalForm s.lines es⟩

end Sys2Proof.Machine

end

/-! ## Encoding and decoding a request (R81 to R86)

What the statements about steps need of the decoder: it reads a request back from its own bytes, and the bytes it takes
are those of the request. -/

section

namespace Sys2Proof

/-- R81, R86: the count byte of a request with a payload makes the decoder take the whole payload and no more; the other
formats have a fixed number of operand bytes. -/
theorem decode_encode {i : Instr} (h : i.encodable = true) (rest : List Byte) :
    decode (encode i ++ rest) = .ok (i, rest) := by
  cases i with
  | chText p =>
    have hn : (BitVec.ofNat 8 p.length).toNat = p.length := toNat_countByte (of_decide_eq_true h)
    simp only [encode, List.cons_append, decode_of_lookup (op := 0x33#8) (f := .ft .chText) rfl, Format.operands, hn,
      takeBytes_append]
  | i2cXfer ctl p =>
    have hn : (BitVec.ofNat 8 p.length).toNat = p.length := toNat_countByte (of_decide_eq_true h)
    simp only [encode, List.cons_append, decode_of_lookup (op := 0x23#8) (f := .fx .i2cXfer) rfl, Format.operands, hn,
      takeBytes_append]
  | chNum row col v =>
    simp [encode, decode_of_lookup (op := 0x35#8) (f := .fv .chNum) rfl, Format.operands]
  | pxNum x page v =>
    simp [encode, decode_of_lookup (op := 0x44#8) (f := .fv .pxNum) rfl, Format.operands]
  | _ => rfl

/-- R80: what is decoded is read from the bytes of its own encoding, with a payload its count byte can hold. -/
theorem encode_of_decode {bs rest : List Byte} {i : Instr} (h : decode bs = .ok (i, rest)) :
    bs = encode i ++ rest ∧ i.encodable = true := by
  cases bs with
  | nil => cases h
  | cons op bs =>
    cases hf : opcodeMap.lookup op with
    | none => simp [decode, hf] at h
    | some f =>
      rw [decode_of_lookup hf] at h
      split at h
      · cases h
      · next ho =>
        obtain rfl := Except.ok.inj h
        exact operands_sound f _ _ _ op (mem_of_lookup hf) ho

end Sys2Proof

end

/-! ## What one step answers (R24, R40, R222) -/

section

namespace Sys2Proof.Machine

/-- Where a request is decoded, bytes are left. -/
theorem pc_ne_of_decode {s : State} {r : Instr × List Byte} (h : decode s.pending = .ok r) : s.pc ≠ s.req.length := by
  intro he
  simp [State.pending, he, decode] at h

/-- R40: a marked state takes no step. -/
theorem step_of_marked {s : State} {m : RefusalMark} (h : s.refused = some m) :
    step s = .refused (.requestRefused m) := by
  simp [step, h]

/-- R24: at the end of an unrefused run there is no step. -/
theorem step_of_final {s : State} (h : s.final) : step s = .fault .runOver := by
  simp [step, h.1, h.2]

/-- R222: a decoded request is carried out. -/
theorem step_of_decode {s : State} {i : Instr} {rest : List Byte} (hr : s.refused = none)
    (hd : decode s.pending = .ok (i, rest)) : step s = exec i s := by
  rw [step_running hr (pc_ne_of_decode hd), runRequest, hd]

/-- R221: a request that does not decode is refused. -/
theorem step_of_decode_error {s : State} {e : DecodeError} (hr : s.refused = none) (hp : s.pc ≠ s.req.length)
    (hd : decode s.pending = .error e) : step s = .next (s.refuse (refuseCodeOf e)) := by
  rw [step_running hr hp, runRequest, hd]

/-- R88, R221: an operation outside its operand ranges is refused. -/
theorem exec_of_not_inRange {i : Instr} {s : State} (h : i.inRange s.cfg.cols = false) :
    exec i s = .next (s.refuse .badOperand) := by
  simp [exec_eq, h]

/-- A request at `pc` is carried out or refused; either way there is a next state. -/
theorem runRequest_next (s : State) : ∃ t, runRequest s = .next t := by
  unfold runRequest
  split
  · exact ⟨_, exec_eq _ s⟩
  · exact ⟨_, rfl⟩

/-- Everything a step can do: it performs the request at `pc`, or refuses it for its operands or for its bytes. -/
theorem step_next_cases {s t : State} (h : step s = .next t) :
    s.refused = none ∧ s.pc ≠ s.req.length ∧
      ((∃ i rest, decode s.pending = .ok (i, rest) ∧ i.inRange s.cfg.cols = true ∧ t = performed i s) ∨
        (∃ i rest, decode s.pending = .ok (i, rest) ∧ i.inRange s.cfg.cols = false ∧ t = s.refuse .badOperand) ∨
        (∃ e, decode s.pending = .error e ∧ t = s.refuse (refuseCodeOf e))) := by
  obtain ⟨hr, hp, ⟨i, rest, hd, hx⟩ | he⟩ := step_cases h
  · refine ⟨hr, hp, ?_⟩
    cases hi : i.inRange s.cfg.cols with
    | true =>
      rw [exec_of_inRange hi] at hx
      exact .inl ⟨i, rest, hd, hi, (Host.Outcome.next.inj hx).symm⟩
    | false =>
      rw [exec_of_not_inRange hi] at hx
      exact .inr (.inl ⟨i, rest, hd, hi, (Host.Outcome.next.inj hx).symm⟩)
  · exact ⟨hr, hp, .inr (.inr he)⟩

/-- For what needs no more: a step performs a decoded request, or only sets the mark. -/
theorem step_performed_or_refused {s t : State} (h : step s = .next t) :
    (∃ i rest, decode s.pending = .ok (i, rest) ∧ t = performed i s) ∨ (∃ code, t = s.refuse code) := by
  obtain ⟨-, -, ⟨i, rest, hd, -, ht⟩ | ⟨i, rest, -, -, ht⟩ | ⟨e, -, ht⟩⟩ := step_next_cases h
  · exact .inl ⟨i, rest, hd, ht⟩
  · exact .inr ⟨_, ht⟩
  · exact .inr ⟨_, ht⟩

/-- R24: after a request is performed, the bytes behind it are left, and `pc` is not past the end. -/
theorem performed_pending {i : Instr} {s : State} {rest : List Byte} (h : s.pending = encode i ++ rest) :
    (performed i s).pending = rest ∧ (performed i s).pc ≤ (performed i s).req.length := by
  have hlen : s.req.length - s.pc = i.length + rest.length := by
    rw [← List.length_drop, ← encode_length i, ← List.length_append]
    exact congrArg List.length h
  have hpos := instr_length_pos i
  refine ⟨?_, by simp only [performed_pc, performed_req]; omega⟩
  calc (performed i s).pending
      = s.pending.drop i.length := by simp [State.pending, List.drop_drop]
    _ = (encode i ++ rest).drop (encode i).length := by rw [h, encode_length]
    _ = rest := List.drop_left

end Sys2Proof.Machine

end

/-! ## Steps and runs (10_state.md)

A step performs the request at `pc` or sets the mark (`step_next_cases`); each statement is read off the two states it can
leave, `performed i s` and `s.refuse code`. -/

section

namespace Sys2Proof.Machine

/-- Settles O18: a performed request keeps the receivers' invariants and the bounds of `pc`, and a refusal sets the mark at
`pc`. -/
theorem stepKeepsTheInvariant : Obligations.StepKeepsTheInvariant := by
  intro s t hs h
  obtain ⟨hr, -⟩ := step_next_cases h
  obtain ⟨i, rest, hd, rfl⟩ | ⟨code, rfl⟩ := step_performed_or_refused h
  · obtain ⟨hlcd, hpx⟩ := performed_rx_inv i hs.lcd hs.px
    obtain ⟨-, hle⟩ := performed_pending (encode_of_decode hd).1
    exact ⟨hle, by simp [hr], hlcd, hpx⟩
  · exact ⟨hs.pc_le, by simp, hs.lcd, hs.px⟩

/-- Settles O10: an unmarked next state is that of a performed request, whose bytes are those decode took. -/
theorem pcMovesByTheRequestLength : Obligations.PcMovesByTheRequestLength := by
  intro s t h ht
  obtain ⟨i, rest, hd, rfl⟩ | ⟨code, rfl⟩ := step_performed_or_refused h
  · obtain ⟨hrest, hle⟩ := performed_pending (encode_of_decode hd).1
    exact ⟨i, rest, hd, performed_pc i s, hrest, hle⟩
  · cases ht

/-- A step where a well-formed request stands at `pc`. -/
theorem step_of_wellFormed {i : Instr} {s : State} {rest : List Byte} (hr : s.refused = none)
    (hi : i.wellFormed s.cfg.cols = true) (h : s.pending = encode i ++ rest) : step s = .next (performed i s) := by
  obtain ⟨henc, hrange⟩ := Bool.and_eq_true_iff.1 hi
  have hd : decode s.pending = .ok (i, rest) := by rw [h, decode_encode henc]
  rw [step_of_decode hr hd, exec_of_inRange hrange]

/-- R24, R75: the run of a program that stands at `pc` and fills the rest of the stream. -/
theorem runFor_of_wellFormed (prog : List Instr) {s : State} (hr : s.refused = none) (hle : s.pc ≤ s.req.length)
    (hwf : ∀ i ∈ prog, i.wellFormed s.cfg.cols = true) (h : s.pending = prog.flatMap encode) :
    ∃ t, runFor prog.length s = .next t ∧ t.final ∧ t.cfg = s.cfg ∧ t.req = s.req ∧
      t.trace = s.trace ++ prog.flatMap (wireEvents s.cfg) := by
  induction prog generalizing s with
  | nil =>
    have hend : s.req.length ≤ s.pc := List.drop_eq_nil_iff.1 h
    exact ⟨s, rfl, ⟨Nat.le_antisymm hle hend, hr⟩, rfl, rfl, by simp⟩
  | cons i prog ih =>
    obtain ⟨hi, hprog⟩ := List.forall_mem_cons.1 hwf
    have hstep := step_of_wellFormed hr hi h
    obtain ⟨hpend, hle'⟩ := performed_pending h
    obtain ⟨t, hrun, hfin, hcfg, hreq, htr⟩ := ih (s := performed i s) (by simp [hr]) hle' (by simpa using hprog) hpend
    refine ⟨t, ?_, hfin, by simp [hcfg], by simp [hreq], by simp [htr]⟩
    simp only [List.length_cons, runFor, hstep, hrun]

/-- Settles O12: by induction on the program, each step performing its first request. -/
theorem wellFormedProgramRunsToItsEnd : Obligations.WellFormedProgramRunsToItsEnd := by
  intro s prog before hr hwf hreq hpc
  have hpend : s.pending = prog.flatMap encode := by simp [State.pending, hreq, hpc]
  exact runFor_of_wellFormed prog hr (by simp [hreq, hpc]) hwf hpend

/-- Settles O14: a performed request appends its own events, and a refusal none. -/
theorem stepOnlyAppendsToTheTrace : Obligations.StepOnlyAppendsToTheTrace := by
  intro s t h
  obtain ⟨i, -, -, rfl⟩ | ⟨code, rfl⟩ := step_performed_or_refused h
  · exact ⟨⟨wireEvents s.cfg i, by simp⟩, by simp⟩
  · exact ⟨⟨[], by simp⟩, by simp⟩

/-- Settles O15: the bytes at `pc` and the configuration decide between performing and refusing, and the events of a
performed request depend on nothing else. -/
theorem receiversAreNeverRead : Obligations.ReceiversAreNeverRead := by
  intro s t c p tr h
  let s' : State := { s with lcd := c, px := p, trace := tr }
  obtain ⟨hr, hp, ⟨i, rest, hd, hi, rfl⟩ | ⟨i, rest, hd, hi, rfl⟩ | ⟨e, hd, rfl⟩⟩ := step_next_cases h
  · have hstep : step s' = .next (performed i s') := (step_of_decode (s := s') hr hd).trans (exec_of_inRange hi)
    exact ⟨wireEvents s.cfg i, _, hstep, by simp [s']⟩
  · have hstep : step s' = .next (s'.refuse .badOperand) :=
      (step_of_decode (s := s') hr hd).trans (exec_of_not_inRange hi)
    exact ⟨[], _, hstep, by simp [s']⟩
  · have hstep : step s' = .next (s'.refuse (refuseCodeOf e)) := step_of_decode_error hr hp hd
    exact ⟨[], _, hstep, by simp [s']⟩

/-- R82: the per-instruction lemmas of Laws/PerInstr.lean, for every request. -/
theorem encodedShape : ∀ i : Instr, Laws.EncodedShape.Statement i
  | .lcdInit => Laws.EncodedShape.lcdInit
  | .lcdCmd b => Laws.EncodedShape.lcdCmd b
  | .lcdDat b => Laws.EncodedShape.lcdDat b
  | .lcdNib a => Laws.EncodedShape.lcdNib a
  | .i2cStart => Laws.EncodedShape.i2cStart
  | .i2cStop => Laws.EncodedShape.i2cStop
  | .i2cWrb b => Laws.EncodedShape.i2cWrb b
  | .i2cXfer ctl p => Laws.EncodedShape.i2cXfer ctl p
  | .oledCmd b => Laws.EncodedShape.oledCmd b
  | .oledDat b => Laws.EncodedShape.oledDat b
  | .oledInit => Laws.EncodedShape.oledInit
  | .chClear => Laws.EncodedShape.chClear
  | .chSetcur row col => Laws.EncodedShape.chSetcur row col
  | .chPutc c => Laws.EncodedShape.chPutc c
  | .chText p => Laws.EncodedShape.chText p
  | .chGlyph slot rows => Laws.EncodedShape.chGlyph slot rows
  | .chNum row col v => Laws.EncodedShape.chNum row col v
  | .pxClear => Laws.EncodedShape.pxClear
  | .pxClrpg page => Laws.EncodedShape.pxClrpg page
  | .pxSetpos x page => Laws.EncodedShape.pxSetpos x page
  | .pxBlit x page sprite => Laws.EncodedShape.pxBlit x page sprite
  | .pxNum x page v => Laws.EncodedShape.pxNum x page v

/-- R82: the opcode group of a request names its bus. -/
theorem opcode_group {i : Instr} {op : Byte} (h : (encode i).head? = some op) :
    (onParallelBus i = true ∧ (op.extractLsb' 4 4 = 1#4 ∨ op.extractLsb' 4 4 = 3#4)) ∨
      (onParallelBus i = false ∧ (op.extractLsb' 4 4 = 2#4 ∨ op.extractLsb' 4 4 = 4#4)) := by
  obtain ⟨-, -, op', hop, hgroup⟩ := encodedShape i
  obtain rfl := Option.some.inj (hop.symm.trans h)
  split at hgroup
  · next hb => exact .inl ⟨hb, hgroup⟩
  · next hb => exact .inr ⟨Bool.eq_false_of_not_eq_true hb, hgroup⟩

/-- Settles O16: the opcode group names the bus, and neither a performed operation nor a refused one touches the other
bus. -/
theorem backendsAreIndependent : Obligations.BackendsAreIndependent := by
  intro i s t op hop hx
  have ht : t = performed i s ∨ t = s.refuse .badOperand :=
    (exec_next_cases i s).imp (fun h => Host.Outcome.next.inj (hx.symm.trans h))
      (fun h => Host.Outcome.next.inj (hx.symm.trans h))
  obtain ⟨hb, hg⟩ | ⟨hb, hg⟩ := opcode_group hop
  · refine ⟨fun _ => ?_, fun h => ?_, by tauto⟩
    · obtain rfl | rfl := ht
      · exact parallel_frame hb s
      · simp
    · rcases hg with hg | hg <;> simp [hg] at h
  · refine ⟨fun h => ?_, fun _ => ?_, by tauto⟩
    · rcases hg with hg | hg <;> simp [hg] at h
    · obtain rfl | rfl := ht
      · exact serial_frame hb s
      · simp

/-- Settles O8: decode stands before the operation in the definition of a step. -/
theorem stepRunsTheDecodedRequest : Obligations.StepRunsTheDecodedRequest :=
  fun _ _ _ hr _ hd => step_of_decode hr hd

/-- Settles O9: of a marked state, the end of the run and a running state, each answers in its own way. -/
theorem stepStopsOnlyAtTheEndOrAfterARefusal : Obligations.StepStopsOnlyAtTheEndOrAfterARefusal := by
  intro s
  cases hr : s.refused with
  | some m => simp [step_of_marked hr, eq_comm]
  | none =>
    by_cases hp : s.pc = s.req.length
    · simp [step_of_final ⟨hp, hr⟩, hp]
    · obtain ⟨t, ht⟩ := runRequest_next s
      simp [step_running hr hp, ht, hp]

/-- R42 to R44: power-up has nothing to refuse and stands at the first byte of any stream. -/
theorem powerUp_inv (cfg : Config) (req : List Byte) (l : Lines) : (State.powerUp cfg req l).Inv :=
  ⟨Nat.zero_le _, nofun, CharRx.reset_inv, PixelRx.reset_inv l⟩

/-- Settles O19: `State.reset` is one of the power-up states. -/
theorem powerUpMeetsTheInvariant : Obligations.PowerUpMeetsTheInvariant :=
  ⟨powerUp_inv, powerUp_inv _ _ _⟩

/-- R37: the bus is idle after power-up exactly where both serial lines come up high. -/
theorem reset_busCond (l : Lines) :
    (l.scl = true ∧ l.sda = true → (PixelRx.reset l).busCond = .idle) ∧
      (¬ (l.scl = true ∧ l.sda = true) → (PixelRx.reset l).busCond = .unspecified) := by
  constructor <;> intro h
  · simp [PixelRx.reset, h]
  · rw [← Bool.and_eq_true_iff] at h
    simp only [PixelRx.reset, if_neg h]

/-- Settles O20: the reset receivers field by field, and `BUSCOND` by the levels of the serial lines. -/
theorem powerUpValues : Obligations.PowerUpValues := by
  intro cfg req l
  refine ⟨rfl, rfl, rfl, rfl, rfl, rfl, rfl, rfl, rfl, rfl, rfl, rfl, rfl, rfl, rfl, rfl, rfl, rfl, rfl, rfl, rfl, rfl,
    rfl, rfl, rfl, rfl, fun _ => ⟨rfl, rfl, rfl⟩, ?_⟩
  exact reset_busCond l

end Sys2Proof.Machine

end

/-! ## The character receiver under one operation (R56 to R58)

Every byte on the parallel bus is delivered with its high nibble and register select held; the lemmas here say what the
operations that send a nibble or a byte leave in the receiver, and where R58 stores a data byte. -/

section

namespace Sys2Proof.Machine

/-- LCD.NIB is one latched pair (R113). -/
theorem lcdNib_lcd (a : Byte) (s : State) :
    (performed (.lcdNib a) s).lcd = s.lcd.onStrobe s.cfg (nibRs a) (nibData a) := by
  simp only [performed, wireEvents, State.advance_lcd, emitAll_lcd_lcdNibble]

/-- LCD.CMD is one byte with register select 0 (R114). -/
theorem lcdCmd_lcd (b : Byte) (s : State) :
    (performed (.lcdCmd b) s).lcd = s.lcd.onByte s.cfg false b := by
  simp only [performed, wireEvents, State.advance_lcd, emitAll_lcd_lcdByte]

/-- LCD.DAT is one byte with register select 1 (R115). -/
theorem lcdDat_lcd (b : Byte) (s : State) :
    (performed (.lcdDat b) s).lcd = s.lcd.onByte s.cfg true b := by
  simp only [performed, wireEvents, State.advance_lcd, emitAll_lcd_lcdByte]

/-- CH.SETCUR is one command byte (R162). -/
theorem chSetcur_lcd (row col : Byte) (s : State) :
    (performed (.chSetcur row col) s).lcd = s.lcd.onByte s.cfg false (cursorCommand s.cfg row col) := by
  simp only [performed, wireEvents, State.advance_lcd, emitAll_lcd_lcdByte]

/-- The receiver at the delivery of the byte `b`: the high nibble and register select it holds, and its legacy count `n`
(R56). -/
def CharRx.holding (n : Nat) (rs : Bool) (b : Byte) (c : CharRx) : CharRx :=
  { c with legacyCnt := n, hiNib := .is (b.extractLsb' 4 4), hiRs := .is rs }

/-- R56: of all bytes only 0x33 has two legacy nibbles, so no other byte brings the count of a pairing receiver to 3. -/
theorem legacyAfter_ne_three {b : Byte} (h : b ≠ 0x33#8) (k : Nat) : legacyAfter k b ≠ 3 := by
  have hb : b.extractLsb' 0 4 = 0x3#4 → b.extractLsb' 4 4 ≠ 0x3#4 := fun h0 h4 =>
    h (by rw [← nibbles_append b, h0, h4]; rfl)
  unfold legacyAfter
  split
  · next h0 => simp [hb h0]
  · decide

/-- R57: the effect of a command byte at a pairing receiver is that of its row. Only the byte 0x33 could make the last line
of R56 act on it, and then only if no row lists it. -/
theorem lcdCmd_performs {s : State} (hm : s.lcd.ifMode = .if4Hi) {b : Byte} {k : CharCommand}
    (he : commandOf s.cfg b = k) (hk : k ≠ .unlisted ∨ b ≠ 0x33#8) :
    ∃ n, (performed (.lcdCmd b) s).lcd = CharRx.perform k (s.lcd.holding n false b) := by
  refine ⟨legacyAfter s.lcd.legacyCnt b, ?_⟩
  rw [lcdCmd_lcd, onByte_command hm, he]
  rcases hk with hk | hb
  · exact settleLegacy_of_known (perform_mode hk hm)
  · have hn : (CharRx.perform k (s.lcd.holding (legacyAfter s.lcd.legacyCnt b) false b)).legacyCnt ≠ 3 := by
      rw [perform_legacyCnt]
      exact legacyAfter_ne_three hb _
    exact if_neg fun h => hn h.2

/-- The low bits of a byte as a number, as R57 and R60 write the operand of a row. -/
theorem extractLow_eq (n : Nat) (b : Byte) : b.extractLsb' 0 n = BitVec.ofNat n (b.toNat % 2 ^ n) := by
  apply BitVec.eq_of_toNat_eq
  simp

/-! ### The rows of R57 -/

section
variable {b : Byte}

theorem standardCommand_home (h : b.toNat = 0x02 ∨ b.toNat = 0x03) : standardCommand b = .home := by
  rw [standardCommand, if_neg (by omega), if_pos h]

theorem standardCommand_entryMode (h : 0x04 ≤ b.toNat ∧ b.toNat ≤ 0x07) :
    standardCommand b = .entryMode (b.getLsbD 1) (b.getLsbD 0) := by
  rw [standardCommand, if_neg (by omega), if_neg (by omega), if_pos h]

theorem standardCommand_displayControl (h : 0x08 ≤ b.toNat ∧ b.toNat ≤ 0x0F) :
    standardCommand b = .displayControl (b.getLsbD 2) (b.getLsbD 1) (b.getLsbD 0) := by
  rw [standardCommand, if_neg (by omega), if_neg (by omega), if_neg (by omega), if_pos h]

theorem standardCommand_functionSet (h : 0x20 ≤ b.toNat ∧ b.toNat ≤ 0x3F) :
    standardCommand b = .functionSet (b.getLsbD 4) (b.getLsbD 3) (b.getLsbD 2) := by
  rw [standardCommand, if_neg (by omega), if_neg (by omega), if_neg (by omega), if_neg (by omega), if_pos h]

theorem standardCommand_glyphAddress (h : 0x40 ≤ b.toNat ∧ b.toNat ≤ 0x7F) :
    standardCommand b = .glyphAddress (b.extractLsb' 0 6) := by
  rw [standardCommand, if_neg (by omega), if_neg (by omega), if_neg (by omega), if_neg (by omega),
    if_neg (by omega), if_pos h]

theorem standardCommand_cellAddress (h : 0x80 ≤ b.toNat) :
    standardCommand b = .cellAddress (b.extractLsb' 0 7) := by
  rw [standardCommand, if_neg (by omega), if_neg (by omega), if_neg (by omega), if_neg (by omega),
    if_neg (by omega), if_neg (by omega), if_pos h]

theorem standardCommand_unlisted (h : b.toNat = 0x00 ∨ (0x10 ≤ b.toNat ∧ b.toNat ≤ 0x1F)) :
    standardCommand b = .unlisted := by
  rw [standardCommand, if_neg (by omega), if_neg (by omega), if_neg (by omega), if_neg (by omega),
    if_neg (by omega), if_neg (by omega), if_neg (by omega)]

end

/-- Home belongs to no parameter, so a build without a command of its own at the byte keeps the row (log 10). -/
theorem commandOf_home {cfg : Config} {b : Byte} (h : ownCommand cfg b = none) (hb : b = 0x02#8 ∨ b = 0x03#8) :
    commandOf cfg b = .home := by
  have hs : standardCommand b = .home := standardCommand_home (hb.imp (congrArg BitVec.toNat) (congrArg BitVec.toNat))
  simp [commandOf, h, hs, keepsRow]

/-! ### The store of a data byte (R58) -/

section
variable {c : CharRx} (b : Byte)

theorem data_of_not_leftToRight (h : ¬ (c.chCfg.id = .is true ∧ c.chCfg.s = .is false)) : c.data b = c.havoc :=
  if_neg (by simpa [ChCfg.leftToRight] using h)

theorem data_of_known (h : c.chCfg.leftToRight = true) (hk : c.chCfg.known = true) : c.data b = c.stored b := by
  rw [CharRx.data, if_pos h, if_pos hk]

theorem data_of_not_known (h : c.chCfg.leftToRight = true) (hk : c.chCfg.known = false) :
    c.data b = (c.stored b).memoriesLost := by
  rw [CharRx.data, if_pos h, if_neg (by simp [hk])]

/-- The address counter moves alike whether or not every flag is known (log 9). -/
theorem data_ac (h : c.chCfg.leftToRight = true) : (c.data b).ac = (c.stored b).ac := by
  cases hk : c.chCfg.known with
  | true => rw [data_of_known b h hk]
  | false => rw [data_of_not_known b h hk]; rfl

theorem stored_ddram {a : BitVec 7} (hs : c.acSel = .is .ddram) (ha : c.ac = .is a) :
    c.stored b = { c with ddram := Memory.write c.ddram a.toNat b, ac := .is (ddramNext a) } := by
  rw [CharRx.stored, hs, ha]

theorem stored_cgram {a : BitVec 7} (hs : c.acSel = .is .cgram) (ha : c.ac = .is a) :
    c.stored b =
      { c with cgram := Memory.write c.cgram (a.toNat % 64) (b &&& 0x1F#8), ac := .is (cgramNext a) } := by
  rw [CharRx.stored, hs, ha]

/-- Without a known location a data byte loses both memories and nothing else, whatever is known of the flags. -/
theorem data_of_no_location (h : c.chCfg.leftToRight = true) (ha : c.acSel = .unspecified ∨ c.ac = .unspecified) :
    c.data b = c.memoriesLost := by
  have hst : c.stored b = c.memoriesLost := by
    unfold CharRx.stored
    split <;> simp_all
  cases hk : c.chCfg.known with
  | true => rw [data_of_known b h hk, hst]
  | false => rw [data_of_not_known b h hk, hst]; rfl

/-- Wherever a data byte goes, beside the memories it moves the address counter only. -/
theorem stored_memoriesLost :
    (c.stored b).memoriesLost = { c with ac := (c.stored b).ac, ddram := Memory.lost, cgram := Memory.lost } := by
  unfold CharRx.stored
  split <;> rfl

end

/-- The two-line layout's next address, as R58 writes it. -/
theorem ddramNext_eq (a : BitVec 7) :
    ddramNext a = if a = 0x27#7 then 0x40#7 else if a = 0x67#7 then 0x00#7
      else BitVec.ofNat 7 ((a.toNat + 1) % 128) := by
  rw [ddramNext, colPtr_succ]

end Sys2Proof.Machine

end

/-! ## The pixel receiver under one transaction (R60) -/

section

namespace Sys2Proof.Machine

/-- R139: an operation that is one transaction leaves the bus idle and the receiver `q` behind that transaction. -/
theorem performed_of_xfer {i : Instr} {s : State} {ctl : Byte} {p : List Byte} {st : Stream} {q : PixelRx}
    (hi : i ≠ .oledInit) (he : wireEvents s.cfg i = oledXfer s.cfg ctl p)
    (hx : emitAll (oledXfer s.cfg ctl p) s =
      { s with
        lines := { s.lines with scl := true, sda := true }
        trace := s.trace ++ oledXfer s.cfg ctl p
        px := q.closed st }) :
    (performed i s).px = q.closed st ∧ (performed i s).busIdle := by
  rw [performed_of_ne hi, he, hx]
  exact ⟨rfl, rfl, rfl, rfl, rfl⟩

/-! ### The command stream -/

section
variable {cfg : Config} {b : Byte} {p : PixelRx}

/-- The effect of a position command (R60). -/
theorem command_of_position {e : PosEffect} (h : positionOf cfg b = some e) : p.command cfg b = p.place e := by
  simp only [PixelRx.command, h]

variable (hp : cfg.pxSetpos = .standard)

include hp in
theorem positionOf_standard : positionOf cfg b = standardPosition b := by
  simp only [positionOf, hp]

include hp in
/-- Past the position rows R60 has the two rows of display off and on, and `PxHavoc()`. -/
theorem command_of_no_position (h : standardPosition b = none) :
    p.command cfg b =
      if b = 0xAE#8 then { p with pxOn := .is false } else if b = 0xAF#8 then { p with pxOn := .is true }
      else p.havoc := by
  simp only [PixelRx.command, positionOf_standard hp, h]

end

section
variable {b : Byte}

theorem standardPosition_page (h : 0xB0 ≤ b.toNat ∧ b.toNat ≤ 0xB7) :
    standardPosition b = some ⟨some (b.extractLsb' 0 3), none, none⟩ := by
  rw [standardPosition, if_pos h]

theorem standardPosition_colLo (h : b.toNat ≤ 0x0F) :
    standardPosition b = some ⟨none, some (b.extractLsb' 0 4), none⟩ := by
  rw [standardPosition, if_neg (by omega), if_pos h]

theorem standardPosition_colHi (h : 0x10 ≤ b.toNat ∧ b.toNat ≤ 0x17) :
    standardPosition b = some ⟨none, none, some (b.extractLsb' 0 3)⟩ := by
  rw [standardPosition, if_neg (by omega), if_neg (by omega), if_pos h]

theorem standardPosition_none (h : (0x18 ≤ b.toNat ∧ b.toNat ≤ 0xAF) ∨ 0xB8 ≤ b.toNat) :
    standardPosition b = none := by
  rw [standardPosition, if_neg (by omega), if_neg (by omega), if_neg (by omega)]

end

end Sys2Proof.Machine

end

/-! ## The receivers' tables (20_memory.md R56 to R60)

An operation of one byte is performed whole, so the state it leaves is `performed i s`; each row is then the receiver's
answer to that byte. -/

section

namespace Sys2Proof.Machine

/-- Settles O27: three operations of one legacy pair each, which lead to `if8` from every receiver. -/
theorem threeLegacyStrobesForceEightBitMode : Obligations.ThreeLegacyStrobesForceEightBitMode := by
  intro s ho
  let strobe := performed (.lcdNib 0x03#8)
  have hframe : ∀ u, ParallelFrame u (strobe u) := performed_parallelFrame rfl
  refine ⟨strobe (strobe (strobe s)), ?_, ?_, (hframe s).trans ((hframe _).trans (hframe _)), ?_⟩
  · rw [execAll_cons rfl, execAll_cons rfl, execAll_cons rfl]
    rfl
  · have hrs : nibRs 0x03#8 = false := rfl
    have hnib : nibData 0x03#8 = 0x3#4 := rfl
    simp only [strobe, lcdNib_lcd, performed_cfg, hrs, hnib]
    exact legacyStrobe_thrice ho s.lcd
  · simp [strobe, Instr.length]

/-- Settles O28: the byte's row is looked up in the build's table, and the receiver performs it (`lcdCmd_performs`). -/
theorem commandByteTakesItsTableRow : Obligations.CommandByteTakesItsTableRow := by
  constructor
  · intro s b hc hm
    have row {k : CharCommand} (hk : standardCommand b = k) (hl : k ≠ .unlisted ∨ b ≠ 0x33#8) :=
      lcdCmd_performs hm ((commandOf_standard hc b).trans hk) hl
    refine ⟨_, exec_of_inRange rfl, performed_parallelFrame rfl s, performed_pc _ s,
      fun h => ?_, fun h => ?_, fun h => ?_, fun h => ?_, fun h => ?_, fun h => ?_, fun h => ?_, fun h => ?_⟩
    · obtain ⟨n, ht⟩ := row (k := .clear) (if_pos h) (by simp)
      rw [ht]; rfl
    · obtain ⟨n, ht⟩ := row (standardCommand_home h) (by simp)
      rw [ht]; rfl
    · obtain ⟨n, ht⟩ := row (standardCommand_entryMode h) (by simp)
      rw [ht]; rfl
    · obtain ⟨n, ht⟩ := row (standardCommand_displayControl h) (by simp)
      rw [ht]; rfl
    · obtain ⟨n, ht⟩ := row (standardCommand_functionSet h) (by simp)
      rw [ht, ← hm]; rfl
    · obtain ⟨n, ht⟩ := row (standardCommand_glyphAddress h) (by simp)
      have ha : (b.extractLsb' 0 6).zeroExtend 7 = BitVec.ofNat 7 (b.toNat % 64) := by
        rw [extractLow_eq]
        bv_omega
      rw [ht]
      exact ⟨congrArg Tracked.is ha, rfl⟩
    · obtain ⟨n, ht⟩ := row (standardCommand_cellAddress h) (by simp)
      rw [ht]
      exact ⟨congrArg Tracked.is (extractLow_eq 7 b), rfl⟩
    · have hb : b ≠ 0x33#8 := by rintro rfl; revert h; decide
      obtain ⟨n, ht⟩ := row (standardCommand_unlisted h) (.inr hb)
      rw [ht]; rfl
  · intro s b ⟨hc, hm⟩
    have row {k : CharCommand} (hk : commandOf s.cfg b = k) (hl : k ≠ .unlisted) := lcdCmd_performs hm hk (.inl hl)
    obtain ⟨hentry, hdispon, hfuncset⟩ := commandOf_plain hc
    refine ⟨_, exec_of_inRange rfl, performed_parallelFrame rfl s, performed_pc _ s,
      fun h => ?_, fun h => ?_, fun h => ?_, fun h => ?_, fun a ha h => ?_, fun a ha h => ?_, fun ho h => ?_⟩
    · obtain ⟨n, ht⟩ := row (h ▸ commandOf_clear s.cfg) (by simp)
      rw [ht]; rfl
    · obtain ⟨n, ht⟩ := row (h ▸ hentry) (by simp)
      rw [ht]; rfl
    · obtain ⟨n, ht⟩ := row (h ▸ hdispon) (by simp)
      rw [ht]; rfl
    · obtain ⟨n, ht⟩ := row (h ▸ hfuncset) (by simp)
      rw [ht]; rfl
    · obtain ⟨n, ht⟩ := row (h ▸ commandOf_glyphAddress hc ha) (by simp)
      have he : (BitVec.ofNat 6 a.toNat).zeroExtend 7 = BitVec.ofNat 7 a.toNat := by bv_omega
      rw [ht, ← he]; rfl
    · obtain ⟨n, ht⟩ := row (h ▸ commandOf_cellAddress hc ha) (by simp)
      rw [ht]; rfl
    · obtain ⟨n, ht⟩ := row (commandOf_home ho h) (by simp)
      rw [ht]; rfl

/-- Settles O29: both operations deliver the byte whole, and R58 splits on the entry mode, the location and the flags. -/
theorem dataByteIsStoredAtTheAddressCounter : Obligations.DataByteIsStoredAtTheAddressCounter := by
  intro s b i hi hm
  let c := s.lcd.holding 0 true b
  obtain ⟨hlen, hbus, hin⟩ : i.length = 2 ∧ onParallelBus i = true ∧ i.inRange s.cfg.cols = true := by
    rcases hi with rfl | rfl <;> exact ⟨rfl, rfl, rfl⟩
  have ht : (performed i s).lcd = c.data b := by
    rcases hi with rfl | rfl
    · exact (lcdDat_lcd b s).trans (onByte_data hm s.cfg b)
    · exact (putc_lcd s b).trans (onByte_data hm s.cfg b)
  refine ⟨_, exec_of_inRange hin, performed_parallelFrame hbus s, hlen ▸ performed_pc i s, fun hl => ?_, fun hl => ?_⟩
  · rw [ht, data_of_not_leftToRight (c := c) b hl]; rfl
  · have hltr : c.chCfg.leftToRight = true := decide_eq_true hl
    refine ⟨fun a hs ha => ?_, fun a hs ha => ?_, fun hu => ?_, fun hk => ?_⟩
    · have hst := stored_ddram (c := c) b hs ha
      refine ⟨?_, fun hk => ?_⟩
      · rw [ht, data_ac b hltr, hst, ddramNext_eq]
      · rw [ht, data_of_known b hltr hk, hst]
        exact ⟨Memory.read_write_same .., fun j hj => Memory.read_write_other _ _ hj, rfl⟩
    · have hst := stored_cgram (c := c) b hs ha
      refine ⟨?_, fun hk => ?_⟩
      · rw [ht, data_ac b hltr, hst, cgramNext_eq]
      · rw [ht, data_of_known b hltr hk, hst]
        exact ⟨Memory.read_write_same .., fun j hj => Memory.read_write_other _ _ hj, rfl⟩
    · rw [ht, data_of_no_location b hltr hu]; rfl
    · rw [ht, data_of_not_known b hltr hk, stored_memoriesLost]; rfl

/-- Settles O37: either request is the one data-stream transaction, whose byte R60 stores. -/
theorem dataStreamByteIsStoredAtTheWritePosition : Obligations.DataStreamByteIsStoredAtTheWritePosition := by
  intro s b i hi hc hb
  obtain ⟨hbus, hin, hne, he⟩ : onParallelBus i = false ∧ i.inRange s.cfg.cols = true ∧ i ≠ .oledInit ∧
      wireEvents s.cfg i = oledXfer s.cfg s.cfg.ctlDat [b] := by
    rcases hi with rfl | rfl <;> exact ⟨rfl, rfl, nofun, rfl⟩
  obtain ⟨hpx, hidle⟩ := performed_of_xfer hne he (emitAll_data_xfer hc [b] hb)
  simp only [List.foldl_cons, List.foldl_nil] at hpx
  obtain ⟨-, -, -, -, -, hsync, hon, hpage⟩ := PixelRx.data_frame b s.px
  refine ⟨_, exec_of_inRange hin, performed_serialFrame hbus s, performed_pc i s, hidle, he ▸ performed_trace i s, ?_⟩
  simp only [State.column, hpx]
  refine ⟨hpage, hsync, hon, rfl, rfl, fun c g h1 h2 h3 => ?_, fun hu a => ?_⟩
  · rw [data_at_position h1 h2 h3, colPtr_closed, colPtr_setCol, colPtr_succ]
    exact ⟨rfl, Memory.read_write_same .., fun a ha => Memory.read_write_other _ _ ha⟩
  · rw [data_lost hu]; rfl

/-- Settles O38: either request is the one command-stream transaction, and its byte takes its row of R60. -/
theorem commandStreamByteTakesItsTableRow : Obligations.CommandStreamByteTakesItsTableRow := by
  intro s b i hi hs hb
  obtain ⟨hbus, hin, hne, he⟩ : onParallelBus i = false ∧ i.inRange s.cfg.cols = true ∧ i ≠ .oledInit ∧
      wireEvents s.cfg i = oledXfer s.cfg s.cfg.ctlCmd [b] := by
    rcases hi with rfl | rfl <;> exact ⟨rfl, rfl, nofun, rfl⟩
  obtain ⟨hpx, hidle⟩ := performed_of_xfer hne he (emitAll_command_xfer [b] hb)
  simp only [List.foldl_cons, List.foldl_nil] at hpx
  have place {e : PosEffect} (h : standardPosition b = some e) :
      (performed i s).px = (s.px.place e).closed .command := by
    rw [hpx, command_of_position ((positionOf_standard hs).trans h)]
  have other (h : (0x18 ≤ b.toNat ∧ b.toNat ≤ 0xAF) ∨ 0xB8 ≤ b.toNat) :=
    hpx.trans (congrArg (PixelRx.closed .command) (command_of_no_position (p := s.px) hs (standardPosition_none h)))
  refine ⟨_, exec_of_inRange hin, performed_serialFrame hbus s, performed_pc i s, hidle, he ▸ performed_trace i s,
    fun h => ?_, fun h => ?_, fun h => ?_, fun h => ?_, fun h => ?_, fun h => ?_⟩
  · have hlo : b.toNat % 2 ^ 4 = b.toNat := Nat.mod_eq_of_lt (by omega)
    rw [place (standardPosition_colLo h), extractLow_eq, hlo]; rfl
  · rw [place (standardPosition_colHi h), extractLow_eq]; rfl
  · obtain rfl : b = 0xAE#8 := BitVec.eq_of_toNat_eq h
    exact other (.inl (by decide))
  · obtain rfl : b = 0xAF#8 := BitVec.eq_of_toNat_eq h
    exact other (.inl (by decide))
  · rw [place (standardPosition_page h), extractLow_eq]; rfl
  · have hoff : b ≠ 0xAE#8 := by rintro rfl; revert h; decide
    have hon : b ≠ 0xAF#8 := by rintro rfl; revert h; decide
    rw [other (by omega), if_neg hoff, if_neg hon]; rfl

end Sys2Proof.Machine

end

/-! ## Glyphs in cells (20_memory.md R54, 42_char_surface.md R164) -/

section

namespace Sys2Proof.Machine

/-- R160: with legal row offsets the address of a cell fits in 7 bits. -/
theorem cellAddr_masked {s : State} {row col : Byte}
    (h : (rowBaseAt s.cfg.rowBase row).toNat + col.toNat ≤ 0x7F) :
    (cellAddr s.cfg row col &&& 0x7F#8).toNat = (rowBaseAt s.cfg.rowBase row).toNat + col.toNat := by
  simpa using cell_mask (s := s) (k := 0) h

theorem chSetcur_inRange {c : Columns} {row col : Byte} (hr : row.toNat ≤ 3) (hc : col.toNat ≤ c.count - 1) :
    (Instr.chSetcur row col).inRange c = true := by
  simp [Instr.inRange, hr, hc]

theorem chGlyph_inRange (c : Columns) {slot : Byte} (hs : slot.toNat ≤ 7) (rows : Bytes8) :
    (Instr.chGlyph slot rows).inRange c = true := by
  simp [Instr.inRange, hs]

/-- What `t` is after the character `b` was put into the cell `(row, col)` of `s`. -/
structure CellWritten (row col b : Byte) (s t : State) : Prop where
  frame : ParallelFrame s t
  cell : t.cell row col = .is b
  cgram : t.lcd.cgram = s.lcd.cgram
  kept : ∀ j, j ≠ (cellAddr s.cfg row col &&& 0x7F#8).toNat → Memory.read t.lcd.ddram j = Memory.read s.lcd.ddram j

/-- R162, R163: CH.SETCUR and then CH.PUTC write one cell and no other. -/
theorem setcur_putc_writes {s : State} (hr : s.charReady) (hl : s.cfg.rowsLegal) {row col : Byte} (h1 : row.toNat ≤ 3)
    (h2 : col.toNat ≤ s.cfg.cols.count - 1) (b : Byte) :
    ∃ t, execAll [.chSetcur row col, .chPutc b] s = .next t ∧ CellWritten row col b s t := by
  obtain ⟨hpair, hltr, hknown⟩ := hr
  have hle := cellAddr_le hl h1 h2
  have hmask := cellAddr_masked hle
  obtain ⟨k, hn, hcur⟩ := onByte_cursor hpair hle
  let u := performed (.chSetcur row col) s
  have hu : u.lcd = _ := (chSetcur_lcd row col s).trans hcur
  have haddr : (BitVec.ofNat 7 ((rowBaseAt s.cfg.rowBase row).toNat + col.toNat)).toNat =
      (cellAddr s.cfg row col &&& 0x7F#8).toNat := by
    rw [hmask, BitVec.toNat_ofNat, Nat.mod_eq_of_lt (by omega)]
  have ht : (performed (.chPutc b) u).lcd = _ := (putc_lcd u b).trans
    (onByte_data_ddram (by rw [hu]; exact hpair.2) (by rw [hu]; exact hltr) (by rw [hu]; exact hknown)
      (by rw [hu]) (by rw [hu]) u.cfg b)
  rw [haddr, hu] at ht
  refine ⟨performed (.chPutc b) u, ?_, ?_⟩
  · rw [execAll_cons (chSetcur_inRange h1 h2), execAll_cons rfl]; rfl
  · have hcfg : (performed (.chPutc b) u).cfg = s.cfg := by simp [u]
    refine ⟨(performed_parallelFrame rfl s).trans (performed_parallelFrame rfl u), ?_, by rw [ht], fun j hj => ?_⟩
    · rw [State.cell, hcfg, ht]
      exact Memory.read_write_same ..
    · rw [ht]
      exact Memory.read_write_other _ _ hj

/-- R54: a cell whose code is a slot's number shows the five low bits of the rows the slot holds. -/
theorem shownPixel_of_row {t : State} {row col code x : Byte} {r : Nat} (hc : t.cell row col = .is code)
    (hs : code.toNat ≤ 7) (hrow : t.glyphRow code.toNat r = .is (x &&& 0x1F#8)) (k : Nat) :
    t.shownPixel row col r k = .is (x.getLsbD (4 - k)) := by
  have hbit : ∀ j < 5, (0x1F#8).getLsbD j = true := by decide
  simp only [State.shownPixel, hc, if_pos hs, State.glyphPixel, hrow, trackedBit, BitVec.getLsbD_and,
    hbit (4 - k) (by omega), Bool.and_true]

/-- R166: after CH.GLYPH the slot holds the five low bits of the rows. -/
theorem glyphRow_chGlyph {s : State} (hr : s.charReady) {slot : Byte} (hs : slot.toNat ≤ 7) (rows : Bytes8) {r : Nat}
    (h : r < rows.toList.length) :
    (performed (.chGlyph slot rows) s).glyphRow slot.toNat r = .is (rows.toList[r] &&& 0x1F#8) := by
  have h8 : r < 8 := h
  have hst := (glyph_lcd hr hs rows).2.stored r h
  rwa [Nat.mod_eq_of_lt (by omega)] at hst

/-- R166: CH.GLYPH leaves the receiver ready for text. -/
theorem charReady_chGlyph {s : State} (hr : s.charReady) {slot : Byte} (hs : slot.toNat ≤ 7) (rows : Bytes8) :
    (performed (.chGlyph slot rows) s).charReady := by
  have hg := (glyph_lcd hr hs rows).2
  obtain ⟨⟨hc, -⟩, hltr, hknown⟩ := hr
  exact ⟨⟨by rwa [performed_cfg], hg.mode⟩, by rwa [hg.flags], by rwa [hg.flags]⟩

/-- Settles O60: CH.GLYPH loads the rows and leaves the cells, the two operations after it write one cell and leave the
rows, and a cell shows the rows of the slot its code names. -/
theorem glyphCellShowsItsGlyph : Obligations.GlyphCellShowsItsGlyph := by
  refine ⟨fun s slot row col rows hr hl h1 h2 => ?_, fun s slot row col rows hr hs hcell => ?_,
    fun s row col hr hl h1 h2 => ?_⟩
  · have hs : (slot.zeroExtend 8).toNat ≤ 7 := by bv_omega
    let u := performed (.chGlyph (slot.zeroExtend 8) rows) s
    have hcfg : u.cfg = s.cfg := performed_cfg _ s
    obtain ⟨t, hexec, ht⟩ := setcur_putc_writes (s := u) (charReady_chGlyph hr hs rows) (by rwa [hcfg]) h1
      (by rwa [hcfg]) (slot.zeroExtend 8)
    refine ⟨t, (execAll_cons (chGlyph_inRange _ hs rows)).trans hexec,
      (performed_parallelFrame rfl s).trans ht.frame, ht.cell, fun r h k _ => shownPixel_of_row ht.cell hs ?_ k⟩
    rw [State.glyphRow, ht.cgram]
    exact glyphRow_chGlyph hr hs rows h
  · have hkept : (performed (.chGlyph slot rows) s).cell row col = .is slot := by
      rw [State.cell, performed_cfg, (glyph_lcd hr hs rows).2.ddram]
      exact hcell
    exact ⟨_, exec_of_inRange (chGlyph_inRange _ hs rows), hkept,
      fun r h k _ => shownPixel_of_row hkept hs (glyphRow_chGlyph hr hs rows h) k⟩
  · obtain ⟨t, hexec, ht⟩ := setcur_putc_writes hr hl h1 h2 0x20#8
    exact ⟨t, hexec, ht.frame, ht.cell, fun r k => by simp [State.shownPixel, ht.cell], ht.kept⟩

end Sys2Proof.Machine

end

/-! ## The encoding (30_encoding.md)

The two directions of the round trip are `decode_encode` and `encode_of_decode`. By them no request begins with the
bytes of another (`encode_eq_append_iff`), so one of which bytes are missing is no shorter request. -/

section

namespace Sys2Proof

/-- Settles O1: the lookup of the opcode byte and the count byte give back the request (`decode_encode`). -/
theorem decodeOfEncodeIsTheRequest : Obligations.DecodeOfEncodeIsTheRequest :=
  fun _ rest h => decode_encode h rest

/-- Settles O2: every row of the opcode map takes the bytes of its own encoding (`encode_of_decode`), whose length is
R86's. -/
theorem decodedBytesAreTheEncoding : Obligations.DecodedBytesAreTheEncoding := by
  intro bs rest i h
  obtain ⟨hbs, henc⟩ := encode_of_decode h
  exact ⟨hbs, encode_length i, henc⟩

/-- R87: of a nonempty stream, the opcode byte alone decides whether the code is `BadOpcode`. -/
theorem decode_eq_badOpcode_iff {op : Byte} {bs : List Byte} :
    decode (op :: bs) = .error .badOpcode ↔ opcodeMap.lookup op = none := by
  cases hf : opcodeMap.lookup op with
  | none => simp [decode, hf]
  | some f =>
    rw [decode_of_lookup hf]
    cases f.operands bs <;> simp

/-- R86: a request that begins with the bytes of another is that other, since the whole would decode to either. -/
theorem encode_eq_append_iff {i j : Instr} {bs : List Byte} (hi : i.encodable = true) (hj : j.encodable = true) :
    encode i = encode j ++ bs ↔ i = j ∧ bs = [] := by
  refine ⟨fun h => ?_, by rintro ⟨rfl, rfl⟩; simp⟩
  have hdec : decode (encode i) = .ok (i, []) := by simpa using decode_encode hi []
  rw [h, decode_encode hj, Except.ok.injEq, Prod.mk.injEq] at hdec
  exact ⟨hdec.1.symm, hdec.2⟩

/-- R87: the first byte of a request is not reserved. -/
theorem decode_take_encode_ne_badOpcode {i : Instr} {n : Nat} (henc : i.encodable = true) (h0 : 0 < n) :
    decode ((encode i).take n) ≠ .error .badOpcode := by
  intro hd
  have hdec : decode (encode i) = .ok (i, []) := by simpa using decode_encode henc []
  obtain ⟨k, rfl⟩ := Nat.exists_eq_succ_of_ne_zero h0.ne'
  cases hb : encode i with
  | nil => simp [hb, decode] at hdec
  | cons op bs =>
    rw [hb, List.take_succ_cons, decode_eq_badOpcode_iff] at hd
    rw [hb, decode_eq_badOpcode_iff.2 hd] at hdec
    cases hdec

/-- R90: a proper, nonempty beginning of a request decodes to no request, and its opcode byte is there. -/
theorem decode_take_encode {i : Instr} {n : Nat} (henc : i.encodable = true) (h0 : 0 < n) (hn : n < i.length) :
    decode ((encode i).take n) = .error .truncated := by
  cases hd : decode ((encode i).take n) with
  | ok r =>
    obtain ⟨j, rest⟩ := r
    obtain ⟨htake, hj⟩ := encode_of_decode hd
    have hsplit : encode i = encode j ++ (rest ++ (encode i).drop n) := by
      rw [← List.append_assoc, ← htake, List.take_append_drop]
    obtain ⟨-, hrest⟩ := (encode_eq_append_iff henc hj).1 hsplit
    have hle : (encode i).length ≤ n := List.drop_eq_nil_iff.1 (List.append_eq_nil_iff.1 hrest).2
    rw [encode_length] at hle
    omega
  | error e =>
    cases e with
    | truncated => rfl
    | badOpcode => exact absurd hd (decode_take_encode_ne_badOpcode henc h0)

/-- Settles O3: each word is the encoding of its request. -/
theorem specWordsDecode : Obligations.SpecWordsDecode :=
  ⟨decode_encode (i := .lcdCmd 0x28#8) rfl [],
    decode_encode (i := .lcdNib 0x03#8) rfl [],
    decode_encode (i := .i2cXfer 0x00#8 [0xAE#8, 0xAF#8]) rfl [],
    decode_encode (i := .chSetcur 2#8 5#8) rfl [],
    decode_encode (i := .chText [0x48#8, 0x49#8]) rfl [],
    decode_encode (i := .chGlyph 1#8 ⟨0x0E#8, 0x1F#8, 0x15#8, 0x1F#8, 0x0E#8, 0x0A#8, 0x0A#8, 0x00#8⟩) rfl [],
    decode_encode (i := .chNum 0#8 12#8 1234#16) rfl [],
    decode_encode (i := .pxBlit 16#8 6#8 ⟨0xFF#8, 0x81#8, 0x81#8, 0x81#8, 0x81#8, 0x81#8, 0x81#8, 0xFF#8⟩) rfl [],
    decode_encode (i := .pxNum 96#8 0#8 42#16) rfl []⟩

/-- Settles O4: both opcodes have format FV, whose value is assembled low byte first (`toNat_assembleValue`). -/
theorem numberValueIsLowByteFirst : Obligations.NumberValueIsLowByteFirst :=
  fun _ _ lo hi _ => ⟨assembleValue lo hi, assembleValue lo hi, rfl, rfl, rfl, rfl, toNat_assembleValue lo hi⟩

end Sys2Proof

end

/-! ## Refusals and acceptance (30_encoding.md R87 to R90) -/

section

namespace Sys2Proof.Machine

/-- R221, R224: a step sets the mark (BadOpcode, `pc`) exactly where decode answers `BadOpcode`. -/
theorem step_eq_badOpcode_iff {s : State} (hr : s.refused = none) (hp : s.pc ≠ s.req.length) :
    step s = .next (s.refuse .badOpcode) ↔ decode s.pending = .error .badOpcode := by
  refine ⟨fun h => ?_, step_of_decode_error hr hp⟩
  obtain ⟨-, -, ⟨i, rest, -, -, ht⟩ | ⟨i, rest, -, -, ht⟩ | ⟨e, hd, ht⟩⟩ := step_next_cases h
  · simpa [hr] using congrArg State.refused ht
  · simpa using congrArg State.refused ht
  · cases e with
    | badOpcode => exact hd
    | truncated => simpa [refuseCodeOf] using congrArg State.refused ht

/-- Settles O5: the reserved bytes are those in no row of the opcode map, and only they make decode answer
`BadOpcode`. -/
theorem reservedOpcodeIsRefused : Obligations.ReservedOpcodeIsRefused := by
  intro s op bs hr hbs
  have hstep := step_eq_badOpcode_iff hr (pc_ne_of_pending hbs)
  rw [State.pending, hbs, decode_eq_badOpcode_iff, lookup_eq_none_iff] at hstep
  exact hstep.symm

/-- Settles O6: what is left decodes to no request (`decode_take_encode`). -/
theorem truncatedRequestIsRefused : Obligations.TruncatedRequestIsRefused := by
  intro s i n hr henc h0 hn hbs
  have hp : s.pc ≠ s.req.length := by
    intro he
    have hlen := congrArg List.length hbs
    simp only [he, List.drop_length, List.length_nil, List.length_take, encode_length] at hlen
    omega
  exact step_of_decode_error hr hp (hbs ▸ decode_take_encode henc h0 hn)

/-- R88: an operation inside its ranges is accepted. -/
theorem accepts_of_inRange {s : State} {i : Instr} (h : i.inRange s.cfg.cols = true) : Accepts s i :=
  ⟨performed i s, exec_of_inRange h, performed_refused i s, performed_pc i s, performed_trace i s⟩

/-- R88: where `P` says that the operands are in the table's ranges, it decides between acceptance and refusal. -/
theorem range_decides {s : State} {i : Instr} {P : Prop} (h : i.inRange s.cfg.cols = true ↔ P) :
    (P → Accepts s i) ∧ (¬ P → RefusesOperand s i) :=
  ⟨fun hP => accepts_of_inRange (h.2 hP),
    fun hP => exec_of_not_inRange (Bool.eq_false_of_not_eq_true fun hi => hP (h.1 hi))⟩

/-- R85, R88: the range of LCD.NIB is that bits 7 to 5 are 0. -/
theorem lcdNib_inRange_iff (c : Columns) (a : Byte) :
    (Instr.lcdNib a).inRange c = true ↔ a.extractLsb' 5 3 = 0#3 := by
  rw [Instr.inRange, ← nibOperandOk_iff, nibOperandOk, beq_iff_eq]

/-- Settles O7: each row of R88 is `Instr.inRange` of its operation, and the operations without a row are always in
range. -/
theorem operandRangesDecideAcceptance : Obligations.OperandRangesDecideAcceptance := by
  intro s
  have free {i : Instr} (h : i.inRange s.cfg.cols = true) : Accepts s i := accepts_of_inRange h
  refine ⟨fun a => range_decides (lcdNib_inRange_iff _ a), fun row col => range_decides ?_,
    fun row col v => range_decides ?_, fun slot rows => range_decides ?_, fun page => range_decides ?_,
    fun x page => range_decides ?_, fun x page p => range_decides ?_, fun x page v => range_decides ?_,
    fun b => ⟨free rfl, free rfl, free rfl, free rfl, free rfl, free rfl⟩, fun ctl p => ⟨free rfl, free rfl⟩,
    free rfl, free rfl, free rfl, free rfl, free rfl, free rfl⟩
  all_goals simp [Instr.inRange, and_assoc]

end Sys2Proof.Machine

end

/-! ## Text in a row (30_encoding.md R98, 42_char_surface.md R165) -/

section

namespace Sys2Proof.Machine

/-- CH.TEXT is its characters as data bytes, in list order (R165). -/
theorem chText_lcd (p : List Byte) (s : State) :
    (performed (.chText p) s).lcd = p.foldl (fun c b => c.onByte s.cfg true b) s.lcd := by
  simp only [performed, wireEvents, State.advance_lcd, emitAll_lcd_lcdData]

/-- Settles O45: the two operations of the expansion are performed one after the other, and what they leave in the
receiver is `row_text`. -/
theorem printShowsTheTextInItsCells : Obligations.PrintShowsTheTextInItsCells := by
  intro s row col text hr hb h1 h2 h3
  let u := performed (.chSetcur row col) s
  let t := performed (.chText text) u
  have hcfg : t.cfg = s.cfg := by simp [t, u]
  have hlcd : t.lcd = text.foldl (fun c b => c.onByte s.cfg true b)
      (s.lcd.onByte s.cfg false (cursorCommand s.cfg row col)) := by
    simp only [t, u, chText_lcd, chSetcur_lcd, performed_cfg]
  have htext : RowText s row col text t.lcd := hlcd ▸ row_text hr hb h1 h2 text h3
  obtain ⟨⟨hc, -⟩, hltr, hknown⟩ := hr
  refine ⟨t, ?_, (performed_parallelFrame rfl s).trans (performed_parallelFrame rfl u),
    ⟨⟨by rwa [hcfg], htext.mode⟩, by rwa [htext.flags], by rwa [htext.flags]⟩, htext.cgram,
    fun k hk => ?_, htext.kept⟩
  · rw [Pseudo.expand, execAll_cons (chSetcur_inRange h1 h2), execAll_cons rfl]
    rfl
  · rw [State.cell, hcfg]
    exact htext.stored k hk

end Sys2Proof.Machine

end

/-! ## The parallel driver (40_parallel_lcd_driver.md)

Each operation of the driver is a list of LcdNibbles and waits. Its state is read off `emitAll_lcdNibble` and
`emitAll_lcdByte`, its latched pairs off `latched_wireEvents`, and the receiver after LCD.INIT is followed through the
three legacy nibbles, the switch nibble and the four bytes. -/

section

namespace Sys2Proof.Machine

/-! ### One nibble, one byte -/

/-- An operation of `n` bytes that executes one LcdNibble (R110). -/
theorem complete_lcdNibble (rs : Bool) (nib : Nibble) (n : Nat) (s : State) :
    complete (lcdNibble rs nib) n s = .next
      { s with
        lines := { s.lines with nib := nib, rs := rs, en := false }
        pc := s.pc + n
        trace := s.trace ++ lcdNibble rs nib
        lcd := s.lcd.onStrobe s.cfg rs nib } := by
  rw [complete, emitAll_lcdNibble, State.advance]

/-- An operation of `n` bytes that executes one LcdByte (R112). -/
theorem complete_lcdByte (rs : Bool) (b : Byte) (n : Nat) (s : State) :
    complete (lcdByte rs b) n s = .next
      { s with
        lines := { s.lines with nib := b.extractLsb' 0 4, rs := rs, en := false }
        pc := s.pc + n
        trace := s.trace ++ lcdByte rs b
        lcd := s.lcd.onByte s.cfg rs b } := by
  rw [complete, emitAll_lcdByte, State.advance]

/-- Settles O21: the operand is accepted, and the operation is one LcdNibble of its two fields (R85). -/
theorem lcdNibIsOneNibbleTransfer : Obligations.LcdNibIsOneNibbleTransfer := by
  intro a s ha
  have hexec : exec (.lcdNib a) s = complete (lcdNibble (nibRs a) (nibData a)) 2 s :=
    exec_of_inRange (lcdNib_inRange a ha)
  exact hexec.trans (complete_lcdNibble (nibRs a) (nibData a) 2 s)

/-- Settles O22: each of the three operations is one LcdByte. -/
theorem byteIsHighNibbleThenLowNibble : Obligations.ByteIsHighNibbleThenLowNibble := by
  rintro b s i r (⟨rfl, rfl⟩ | ⟨rfl, rfl⟩ | ⟨rfl, rfl⟩)
  · exact complete_lcdByte false b 2 s
  · exact complete_lcdByte true b 2 s
  · exact complete_lcdByte true b 2 s

/-! ### The latched sequence -/

/-- Settles O23, by induction on the requests: each latches its own pairs whatever the levels before it
(`latched_wireEvents`). -/
theorem latchedSequenceIsOnePairPerNibble : Obligations.LatchedSequenceIsOnePairPerNibble := by
  intro c l prog
  induction prog generalizing l with
  | nil => rfl
  | cons i prog ih =>
    rw [List.flatMap_cons, List.flatMap_cons, latched_append, latched_wireEvents, ih]

/-! ### The events of LCD.INIT (R118) -/

/-- R263: the least duration of LCD.INIT in every build. -/
theorem waitSum_lcdInit (c : Config) :
    waitSum (wireEvents c .lcdInit) =
      20000 + c.tInit1 + c.tInit2 + c.tInit3 + 1005 * (3 + c.fourbitNib.toList.length) + 4 * 2010 := by
  have hswitch := waitSum_flatMap (lcdNibble false) 1005 c.fourbitNib.toList (waitSum_nibble false)
  simp only [wireEvents, lcdInitEvents, fourbitSwitch_eq, waitSum_append, waitSum_wait, waitSum_nil, waitSum_nibble,
    waitSum_byte, hswitch, tPwron]
  omega

/-- R118: the twelve pairs of LCD.INIT with the default parameters. -/
theorem strobePairs_lcdInit {c : Config} (h : c.charStandard) :
    strobePairs c .lcdInit =
      [(false, 0x3#4), (false, 0x3#4), (false, 0x3#4), (false, 0x2#4), (false, 0x2#4), (false, 0x8#4),
       (false, 0x0#4), (false, 0xC#4), (false, 0x0#4), (false, 0x6#4), (false, 0x0#4), (false, 0x1#4)] := by
  obtain ⟨⟨hfuncset, hdispon, hentry, hclear, -, -⟩, hlegacy, hswitch⟩ := h
  rw [strobePairs, hfuncset, hdispon, hentry, hclear, hlegacy, hswitch]
  rfl

/-- Settles O25: the sequence is the one of R118 with the switch nibble as a list of none or one; the pairs and the waits
are those of its parts. -/
theorem lcdInitSequence : Obligations.LcdInitSequence := by
  refine ⟨fun s => ⟨performed .lcdInit s, exec_of_inRange rfl, performed_pc _ s, performed_parallelFrame rfl s, ?_⟩,
    fun c l hc h1 h2 h3 => ⟨?_, ?_⟩⟩
  · rw [performed_trace, wireEvents, lcdInitEvents, fourbitSwitch_eq, tPwron]
  · rw [latched_wireEvents, strobePairs_lcdInit hc]
  · obtain ⟨-, -, hswitch⟩ := hc
    rw [waitSum_lcdInit, h1, h2, h3, hswitch]
    rfl

/-! ### The state after LCD.INIT (R119) -/

/-- The levels after LcdByte, whatever they were (R112). -/
theorem linesAfter_lcdByte (l : Lines) (rs : Bool) (b : Byte) :
    linesAfter l (lcdByte rs b) = { l with nib := b.extractLsb' 0 4, rs := rs, en := false } := rfl

/-- R119: LCD.INIT ends with the byte `CMD_CLEAR`, which leaves its low nibble, `RS` 0 and `EN` 0 on the lines. -/
theorem lcdInit_lines (s : State) :
    (performed .lcdInit s).lines.nib = s.cfg.cmdClear.extractLsb' 0 4 ∧ (performed .lcdInit s).lines.rs = false ∧
      (performed .lcdInit s).lines.en = false := by
  rw [performed_lines, wireEvents, lcdInitEvents, linesAfter_append, linesAfter_lcdByte]
  exact ⟨rfl, rfl, rfl⟩

/-- The receiver that LCD.INIT leaves (R119), with the fields R119 does not name: the legacy count, the last high nibble
and the glyph memory. -/
def CharRx.afterInit (legacy : Nat) (hi : Tracked Nibble) (glyphs : Memory) : CharRx where
  ifMode := .if4Hi
  legacyCnt := legacy
  hiNib := hi
  hiRs := .is false
  ac := .is 0#7
  acSel := .is .ddram
  chCfg := ⟨.is true, .is false, .is false, .is true, .is false, .is true, .is false⟩
  ddram := Memory.fill 128 0x20#8
  cgram := glyphs

/-- R118, R57: the four bytes of LCD.INIT set every flag, the address counter and the cell memory of a receiver that pairs
nibbles, and leave its glyph memory. -/
theorem onByte_initBytes {c : CharRx} (h : c.ifMode = .if4Hi) {cfg : Config} (hc : CommandsLegal cfg) :
    ∃ k hn, (((c.onByte cfg false cfg.cmdFuncset).onByte cfg false cfg.cmdDispon).onByte cfg false
      cfg.cmdEntry).onByte cfg false cfg.cmdClear = CharRx.afterInit k hn c.cgram := by
  obtain ⟨_, _, e1⟩ := onByte_funcset h hc
  have h1 := (congrArg CharRx.ifMode e1).trans h
  obtain ⟨_, _, e2⟩ := onByte_dispon h1 hc
  have h2 := (congrArg CharRx.ifMode e2).trans h1
  obtain ⟨_, _, e3⟩ := onByte_entry h2 hc
  have h3 := (congrArg CharRx.ifMode e3).trans h2
  obtain ⟨k, hn, e4⟩ := onByte_clear h3 cfg
  exact ⟨k, hn, by rw [e4, h3, e3, e2, e1]; rfl⟩

/-- The glyph memory under one command nibble after another: kept, or lost once and for all. -/
theorem onStrobe_cgram_of {c : CharRx} {m : Memory} (h : c.cgram = m ∨ c.cgram = Memory.lost) (cfg : Config)
    (n : Nibble) : (c.onStrobe cfg false n).cgram = m ∨ (c.onStrobe cfg false n).cgram = Memory.lost := by
  rcases onStrobe_command_cgram cfg n c with hkept | hlost
  · rwa [hkept]
  · exact .inr hlost

/-- R119, R120: with the default nibbles LCD.INIT leaves one and the same receiver from every state, but for the fields
R119 does not name. The three legacy nibbles lead to `if8` (`legacyStrobe_thrice`), the switch nibble to `if4Hi`. -/
theorem lcdInit_receiver {s : State} (hc : CommandsLegal s.cfg) (ho : ownCommand s.cfg 0x33#8 = none)
    (hlegacy : s.cfg.legacyNib = 0x3#4) (hswitch : s.cfg.fourbitNib = some 0x2#4) :
    ∃ k hn m, (performed .lcdInit s).lcd = CharRx.afterInit k hn m ∧ (m = s.lcd.cgram ∨ m = Memory.lost) := by
  have hmode := legacyStrobe_thrice ho s.lcd
  have hglyphs := onStrobe_cgram_of
    (onStrobe_cgram_of (onStrobe_command_cgram s.cfg 0x3#4 s.lcd) s.cfg 0x3#4) s.cfg 0x3#4
  have hpairs := congrArg CharRx.ifMode (onStrobe_switch hmode s.cfg)
  obtain ⟨k, hn, hbytes⟩ := onByte_initBytes hpairs hc
  rw [← lcdInit_lcd hlegacy hswitch, onStrobe_switch hmode] at hbytes
  exact ⟨k, hn, _, hbytes, hglyphs⟩

/-- Settles O26: the lines are `lcdInit_lines` and the receiver is `lcdInit_receiver`. -/
theorem lcdInitFromAnyState : Obligations.LcdInitFromAnyState := by
  intro s hc ho hlegacy hswitch
  obtain ⟨hnib, hrs, hen⟩ := lcdInit_lines s
  obtain ⟨k, hn, m, hlcd, hm⟩ := lcdInit_receiver hc ho hlegacy hswitch
  refine ⟨performed .lcdInit s, exec_of_inRange rfl, performed_parallelFrame rfl s, hnib, ?_, hrs, hen, ?_⟩
  · rintro ⟨-, -, -, hclear, -, -⟩
    rw [hnib, hclear]
    rfl
  rw [hlcd]
  refine ⟨rfl, rfl, rfl, rfl, fun a ha => ?_, fun a => ?_⟩
  · exact (Memory.read_fill 128 0x20#8 a).trans (if_pos ha)
  · exact hm.imp (congrArg (Memory.read · a)) (congrArg (Memory.read · a))

end Sys2Proof.Machine

end

/-! ## The serial driver (41_i2c_master.md)

A primitive is performed whole, so the state it leaves is `performed i s`. What its events do to the receiver is said
once for every line state it may meet; a transaction, by primitives or composed, is one list of events (`oledXfer_eq`). -/

section

namespace Sys2Proof.Machine

/-! ### The sub-sequences from any line levels (R131, R132, R138) -/

section
variable (feed : Byte → PixelRx → PixelRx)

/-- R59: a bit that is not the ninth of an open receiver changes at most the held bits. -/
theorem takeBit_not_ninth {p : PixelRx} (h : p.busCond ≠ .opened ∨ p.bits.length ≠ 8) (v : Bool) :
    ∃ bits, p.takeBit feed v = { p with bits := bits } := by
  by_cases ho : p.busCond = .opened
  · have h8 : p.bits.length ≠ 8 := h.resolve_left (not_not_intro ho)
    have h9 : ¬ (p.bits ++ [v]).length = 9 := by simpa using h8
    exact ⟨p.bits ++ [v], by rw [PixelRx.takeBit, if_pos ho, if_neg h9]⟩
  · exact ⟨p.bits, takeBit_closed feed ho v⟩

/-- R131: a start condition leaves no trace of a stray bit before it, unless that bit is the ninth of an open
receiver. -/
theorem startCond_beforeStart_not_ninth {p : PixelRx} {l : Lines}
    (h : l.scl = true ∨ p.busCond ≠ .opened ∨ p.bits.length ≠ 8) :
    (p.beforeStart feed l).startCond = p.startCond := by
  rcases h with hscl | h
  · rw [PixelRx.beforeStart, if_pos hscl]
  · obtain ⟨bits, hbits⟩ := takeBit_not_ninth feed h true
    rw [PixelRx.beforeStart, hbits]
    split <;> rfl

/-- What the receiver sees of `I2cStop` before its stop condition (R132): the bit of the rising edge where `SCL` was 0,
and an accidental start condition on the idle bus. -/
def PixelRx.beforeStop (l : Lines) (p : PixelRx) : PixelRx :=
  if l.scl then if l.sda then p.startCond else p else p.takeBit feed false

/-- Everything `I2cStop` does, from any line levels (R132). -/
theorem emitAllVia_i2cStop_any (t : Nat) (s : State) :
    emitAllVia feed (i2cStop t) s =
      { s with
        lines := { s.lines with scl := true, sda := true }
        trace := s.trace ++ i2cStop t
        px := (s.px.beforeStop feed s.lines).stopCond } := by
  cases hscl : s.lines.scl
  · rw [emitAllVia_i2cStop feed t hscl]
    simp [PixelRx.beforeStop, hscl]
  · cases hsda : s.lines.sda <;>
      simp [emitAllVia, emitVia, i2cStop, CharRx.observe, PixelRx.observe, PixelRx.beforeStop, hscl, hsda]

/-- What `I2cBit` does on the idle bus (R138): there is no rising edge, and a bit of 0 makes a start condition. -/
theorem emitAllVia_i2cBit_idle (t : Nat) (v : Bool) {s : State} (hscl : s.lines.scl = true)
    (hsda : s.lines.sda = true) :
    (emitAllVia feed (i2cBit t v) s).px = (if v then s.px else s.px.startCond) ∧
      (emitAllVia feed (i2cBit t v) s).lines.scl = false := by
  cases v <;> simp [emitAllVia, emitVia, i2cBit, PixelRx.observe, hscl, hsda]

/-- A bit is put on `SDA` while `SCL` is 0 (R133): the receiver sees nothing of it. -/
theorem emitAllVia_bitSetup (t : Nat) (v : Bool) {s : State} (h : s.lines.scl = false) :
    emitAllVia feed [.sda v, .wait t] s =
      { s with lines := { s.lines with sda := v }, trace := s.trace ++ [.sda v, .wait t] } := by
  simp [emitAllVia, emitVia, CharRx.observe, PixelRx.observe, h]

end

/-! ### Clocked bits (R133, R134) -/

theorem clocked_append (l : Lines) (es fs : List Event) :
    clocked l (es ++ fs) = clocked l es ++ clocked (linesAfter l es) fs := by
  induction es generalizing l with
  | nil => rfl
  | cons e es ih => rw [List.cons_append, clocked, clocked, ih, List.append_assoc, linesAfter_cons]

theorem clocked_i2cBit (t : Nat) (v : Bool) {l : Lines} (h : l.scl = false) : clocked l (i2cBit t v) = [v] := by
  simp [i2cBit, clocked, clockedAt, h]

/-- Each bit is clocked once, and the next finds `SCL` at 0. -/
theorem clocked_bits (t : Nat) (vs : List Bool) {l : Lines} (h : l.scl = false) :
    clocked l (vs.flatMap (i2cBit t)) = vs ∧ (linesAfter l (vs.flatMap (i2cBit t))).scl = false := by
  induction vs generalizing l with
  | nil => exact ⟨rfl, h⟩
  | cons v vs ih =>
    obtain ⟨hbits, hscl⟩ := ih (l := { l with scl := false, sda := v }) rfl
    rw [List.flatMap_cons, clocked_append, linesAfter_append, linesAfter_i2cBit, clocked_i2cBit t v h, hbits]
    exact ⟨rfl, hscl⟩

/-- The first seven bits of a byte. -/
def leadingBits (b : Byte) : List Bool :=
  [b.getLsbD 7, b.getLsbD 6, b.getLsbD 5, b.getLsbD 4, b.getLsbD 3, b.getLsbD 2, b.getLsbD 1]

theorem bitsOfByte_eq (b : Byte) : bitsOfByte b = leadingBits b ++ [b.getLsbD 0] := rfl

/-- The events of a byte up to its eighth rising edge, the edge not among them. -/
def beforeEighthEdge (t : Nat) (b : Byte) : List Event :=
  (leadingBits b).flatMap (i2cBit t) ++ [.sda (b.getLsbD 0), .wait t]

theorem i2cWriteByte_split (t : Nat) (b : Byte) :
    i2cWriteByte t b =
      beforeEighthEdge t b ++ .scl true :: ([.wait t, .scl false, .wait t] ++ i2cBit t true) := rfl

theorem clocked_eighthEdge (t : Nat) (b : Byte) {l : Lines} (h : l.scl = false) :
    clocked l (beforeEighthEdge t b ++ [.scl true]) = bitsOfByte b := by
  obtain ⟨hbits, hscl⟩ := clocked_bits t (leadingBits b) h
  rw [beforeEighthEdge, List.append_assoc, clocked_append, hbits, bitsOfByte_eq]
  simp [clocked, clockedAt, hscl]

section
variable (feed : Byte → PixelRx → PixelRx) (t : Nat) (b : Byte) {s : State} (hscl : s.lines.scl = false)
  (ho : s.px.busCond = .opened) (hb : s.px.bits = [])

include hscl ho hb

/-- R76: before the eighth rising edge the receiver holds seven bits. -/
theorem emitAllVia_beforeEighthEdge :
    (emitAllVia feed (beforeEighthEdge t b) s).px = { s.px with bits := leadingBits b } := by
  obtain ⟨hpx, hlow⟩ := emitAllVia_bits feed t (leadingBits b) hscl ho (by simp [hb, leadingBits])
  rw [beforeEighthEdge, emitAllVia_append, emitAllVia_bitSetup feed t _ hlow, hpx, hb]
  rfl

/-- R76: from the eighth rising edge the receiver holds the eight bits of the byte. -/
theorem emitAllVia_eighthEdge :
    (emitAllVia feed (beforeEighthEdge t b ++ [.scl true]) s).px = { s.px with bits := bitsOfByte b } := by
  have hlines : (emitAllVia feed (beforeEighthEdge t b) s).lines =
      { linesAfter s.lines ((leadingBits b).flatMap (i2cBit t)) with sda := b.getLsbD 0 } := by
    rw [emitAllVia_lines, beforeEighthEdge, linesAfter_append]
    rfl
  have hlow := (clocked_bits t (leadingBits b) hscl).2
  rw [emitAllVia_append, emitAllVia_cons, emitAllVia_nil, emitVia_px,
    emitAllVia_beforeEighthEdge feed t b hscl ho hb, hlines]
  simp only [PixelRx.observe, hlow, and_self, if_true]
  exact takeBit_short feed (p := { s.px with bits := leadingBits b }) ho (Nat.lt_succ_self 7) _

end

/-! ### The primitives (R136 to R138) -/

theorem i2cStart_px (s : State) :
    (performed .i2cStart s).px = (s.px.beforeStart (PixelRx.recvByte s.cfg) s.lines).startCond := by
  simp only [performed, wireEvents, State.advance_px, emitAll, emitAllVia_i2cStart]

theorem i2cStop_px (s : State) :
    (performed .i2cStop s).px = (s.px.beforeStop (PixelRx.recvByte s.cfg) s.lines).stopCond := by
  simp only [performed, wireEvents, State.advance_px, emitAll, emitAllVia_i2cStop_any]

theorem i2cWrb_px (b : Byte) (s : State) :
    (performed (.i2cWrb b) s).px =
      (emitAllVia (PixelRx.recvByte s.cfg) (i2cWriteByte s.cfg.tI2c b) s).px := by
  simp only [performed, wireEvents, State.advance_px, emitAll]

/-- Settles O31: the receiver starts whatever it held, and the stray bit before that is forgotten unless it is the
ninth. -/
theorem startConditionFromAnyLineState : Obligations.StartConditionFromAnyLineState := by
  intro s
  have hlines : (performed .i2cStart s).lines = { s.lines with scl := false, sda := false } :=
    (performed_lines .i2cStart s).trans (linesAfter_i2cStart s.cfg.tI2c s.lines)
  refine ⟨_, exec_of_inRange rfl, performed_serialFrame rfl s, performed_pc _ s, by rw [hlines], by rw [hlines],
    performed_trace _ s, ?_⟩
  rw [i2cStart_px]
  exact ⟨rfl, rfl, rfl, startCond_beforeStart_not_ninth (PixelRx.recvByte s.cfg)⟩

/-- Settles O32: the stop condition comes last; with `SCL` at 0 a stray bit is all there is before it, and on the idle
bus a start condition. -/
theorem stopConditionLeavesTheBusIdle : Obligations.StopConditionLeavesTheBusIdle := by
  intro s
  have hlines : (performed .i2cStop s).lines = { s.lines with scl := true, sda := true } :=
    (performed_lines .i2cStop s).trans (linesAfter_i2cStop s.cfg.tI2c s.lines)
  refine ⟨_, exec_of_inRange rfl, performed_serialFrame rfl s, performed_pc _ s, ?_, performed_trace _ s, ?_⟩
  · rw [State.busIdle, hlines, i2cStop_px]
    exact ⟨rfl, rfl, rfl, rfl⟩
  rw [i2cStop_px]
  refine ⟨fun hscl h8 => ?_, fun hscl hsda => ?_⟩
  · obtain ⟨bits, hbits⟩ := takeBit_not_ninth (PixelRx.recvByte s.cfg) (.inr h8) false
    simp only [PixelRx.beforeStop, hscl, hbits, Bool.false_eq_true, if_false]
    rfl
  · simp only [PixelRx.beforeStop, hscl, hsda, if_true]
    rfl

/-- Settles O33: the events are nine bits whatever the bus is doing; an open receiver that holds none hears the byte at
the eighth and takes it at the ninth, and one that is not open ignores them. -/
theorem writeByteClocksTheByte : Obligations.WriteByteClocksTheByte := by
  intro s b
  let t := s.cfg.tI2c
  have hlines : (performed (.i2cWrb b) s).lines = { s.lines with scl := false, sda := true } :=
    (performed_lines (.i2cWrb b) s).trans (linesAfter_i2cWriteByte t b s.lines)
  refine ⟨_, exec_of_inRange rfl, performed_serialFrame rfl s, performed_pc _ s, by rw [hlines], by rw [hlines],
    ⟨i2cWriteByte t b, performed_trace _ s, length_writeByte t b, i2cWriteByte_bits t b, fun hscl => ?_⟩,
    fun hscl ho hb => ⟨?_, beforeEighthEdge t b, _, i2cWriteByte_split t b, ?_, ?_, ?_, ?_⟩, fun hscl ho => ?_⟩
  · rw [i2cWriteByte_bits]
    exact (clocked_bits t (bitsOfByte b ++ [true]) hscl).1
  · rw [i2cWrb_px, emitAllVia_i2cWriteByte _ t b hscl ho hb]
  · rw [clocked_eighthEdge t b hscl]
    rfl
  · rw [emitAll, PixelRx.heardByte, emitAllVia_beforeEighthEdge _ t b hscl ho hb]
    rfl
  · rw [emitAll, PixelRx.heardByte, emitAllVia_eighthEdge _ t b hscl ho hb]
    exact congrArg some (byteOfBits_bitsOfByte b)
  · exact emitAllVia_eighthEdge _ t b hscl ho hb
  · rw [i2cWrb_px, i2cWriteByte_bits]
    exact (emitAllVia_bits_closed _ t _ hscl ho).1

/-- Settles O34: the first bit meets the idle bus, and only as a 0 does it open the receiver, which then holds the other
eight. -/
theorem writeByteOnTheIdleBus : Obligations.WriteByteOnTheIdleBus := by
  rintro s b ⟨hscl, hsda, hidle, -⟩
  obtain ⟨hfirst, hlow⟩ :=
    emitAllVia_i2cBit_idle (PixelRx.recvByte s.cfg) s.cfg.tI2c (b.getLsbD 7) hscl hsda
  have hpx := i2cWrb_px b s
  rw [i2cWriteByte_bits, bitsOfByte, List.cons_append, List.flatMap_cons, emitAllVia_append] at hpx
  refine ⟨_, exec_of_inRange rfl, performed_serialFrame rfl s, fun h7 => ?_, fun h7 => ?_⟩
  · rw [if_pos h7] at hfirst
    have hclosed : s.px.busCond ≠ .opened := by simp [hidle]
    rw [hpx, (emitAllVia_bits_closed _ _ _ hlow (hfirst ▸ hclosed)).1, hfirst]
  · rw [if_neg (ne_true_of_eq_false h7)] at hfirst
    rw [hpx, (emitAllVia_bits _ _ _ hlow (by rw [hfirst]; rfl) (by rw [hfirst]; exact Nat.le_refl 8)).1, hfirst]
    rfl

/-! ### Transactions (R139 to R145) -/

/-- R139: a transaction is a start, its bytes and a stop. -/
theorem oledXfer_eq (c : Config) (ctl : Byte) (p : List Byte) :
    oledXfer c ctl p =
      i2cStart c.tI2c ++ ((c.i2cAddr :: ctl :: p).flatMap (i2cWriteByte c.tI2c) ++ i2cStop c.tI2c) := by
  simp only [oledXfer, List.flatMap_cons, List.append_assoc]

/-- Settles O35: each operation adds its own transfers to the view of a bus that is not open (`adds_wireEvents`). -/
theorem transactionsOfComposedOperations : Obligations.TransactionsOfComposedOperations := by
  intro c l prog hprog
  have hadds := adds_flatMap (wireEvents c) (transfers c) prog fun i hi => adds_wireEvents c i (hprog i hi)
  exact congrArg BusView.closed (hadds l .empty rfl)

/-- R145: the primitives of a transaction emit its events. -/
theorem execAll_primitives (s : State) (ctl : Byte) (p : List Byte) :
    execAll (.i2cStart :: (s.cfg.i2cAddr :: ctl :: p).map Instr.i2cWrb ++ [.i2cStop]) s =
      .next ((emitAll (oledXfer s.cfg ctl p) s).advance (6 + 2 * p.length)) := by
  rw [List.cons_append, execAll_cons rfl, execAll_wrbs, execAll_cons rfl, execAll]
  simp only [performed, wireEvents, State.advance_cfg, emitAll_cfg, emitAll_advance, advance_advance,
    ← emitAll_append, ← oledXfer_eq, List.append_assoc]
  congr 2
  simp only [Instr.length, List.length_cons]
  omega

/-- R24: requests of different lengths with the same events leave states that differ in `pc` alone. -/
theorem advance_eq_but_pc (m n : Nat) (s : State) : s.advance m = { s.advance n with pc := (s.advance m).pc } := rfl

/-- Settles O36: both emit the events of one transaction, so only the moves of `pc` differ. -/
theorem primitivesComposeToTheTransaction : Obligations.PrimitivesComposeToTheTransaction := by
  intro s ctl p
  refine ⟨_, (emitAll (oledXfer s.cfg ctl p) s).advance (3 + p.length), execAll_primitives s ctl p,
    exec_of_inRange rfl, advance_eq_but_pc _ _ _, ?_, ?_⟩
  · rw [State.advance_pc, emitAll_pc, Nat.add_assoc]
  · rw [State.advance_pc, emitAll_pc, Nat.add_assoc]

/-- R60: what is left of a receiver after the two header bytes with a control byte it does not know. -/
def PixelRx.ignoring (p : PixelRx) : PixelRx :=
  { p.startCond.havoc with phase := .ignored, addressed := .is true }

theorem recv_header_unknown {cfg : Config} {ctl : Byte} (hcmd : ctl ≠ cfg.ctlCmd) (hdat : ctl ≠ cfg.ctlDat)
    (p : PixelRx) :
    PixelRx.recvByte cfg ctl (PixelRx.recvByte cfg cfg.i2cAddr p.startCond) = p.ignoring := by
  simp [PixelRx.recvByte, PixelRx.startCond, PixelRx.ignoring, PixelRx.havoc, hcmd, hdat]

/-- R60: the rest of a transaction is ignored. -/
theorem foldl_ignoring (cfg : Config) (bs : List Byte) (p : PixelRx) :
    bs.foldl (fun q b => PixelRx.recvByte cfg b q) p.ignoring = p.ignoring := by
  induction bs with
  | nil => rfl
  | cons b bs ih => exact ih

/-- Settles O39: the header loses the position, and the payload after it is ignored (`foldl_ignoring`). -/
theorem unknownControlByteLosesThePosition : Obligations.UnknownControlByteLosesThePosition := by
  intro s ctl p hcmd hdat hb
  have hxfer : performed (.i2cXfer ctl p) s = State.advance (3 + p.length)
      { s with
        lines := { s.lines with scl := true, sda := true }
        trace := s.trace ++ oledXfer s.cfg ctl p
        px := s.px.ignoring.stopCond } := by
    have he := emitAllVia_oledXfer (PixelRx.recvByte_quiet s.cfg) s.cfg ctl p hb
    rw [List.foldl_cons, List.foldl_cons, recv_header_unknown hcmd hdat, foldl_ignoring] at he
    exact congrArg (State.advance (3 + p.length)) he
  refine ⟨_, exec_of_inRange rfl, performed_serialFrame rfl s, ?_, ?_, performed_trace _ s,
    length_xfer s.cfg ctl p, ?_⟩
  · rw [performed_pc, Instr.length, Nat.add_assoc]
  · rw [hxfer]
    exact ⟨rfl, rfl, rfl, rfl⟩
  · rw [hxfer]
    rfl

/-- Settles O40: on either stream the bytes of the payload reach the receiver in order, in one transaction
(`emitAll_command_xfer`, `emitAll_data_xfer`) or in one each (`execAll_cmds`, `execAll_dats`). -/
theorem transactionFramingDoesNotMatter : Obligations.TransactionFramingDoesNotMatter := by
  intro s p hc hb hne
  constructor
  · obtain ⟨u, hu, hpx, hlines⟩ := execAll_cmds p hb hne
    have ht := congrArg (State.advance (3 + p.length)) (emitAll_command_xfer p hb)
    exact ⟨_, u, congrArg Host.Outcome.next ht, hu, hpx.symm, hlines.symm⟩
  · obtain ⟨u, hu, hpx, hlines⟩ := execAll_dats p hc hb hne
    have ht := congrArg (State.advance (3 + p.length)) (emitAll_data_xfer hc p hb)
    exact ⟨_, u, congrArg Host.Outcome.next ht, hu, hpx.symm, hlines.symm⟩

/-- Settles O41: its bytes are not fed through R60, so the effect is that of R153 on a receiver whose memory is as it
was and whose bus the last transaction left idle. -/
theorem oledInitAsAWhole : Obligations.OledInitAsAWhole := by
  intro s
  refine ⟨_, exec_of_inRange rfl, performed_serialFrame rfl s, performed_pc _ s, performed_trace _ s,
    rfl, rfl, rfl, rfl, rfl, rfl, muted_gddram _ s, ?_⟩
  exact muted_busIdle s.cfg s.cfg.oledInitSeq s

end Sys2Proof.Machine

end

/-! ## The character surface (42_char_surface.md)

Each operation is performed whole, and what it leaves in the receiver is said by the lemmas of Laws/CharSurface.lean:
`onByte_clear`, `onByte_cursor`, `text_stored` and `glyph_lcd`. -/

section

namespace Sys2Proof.Machine

/-- CH.CLEAR is one command byte (R161). -/
theorem chClear_lcd (s : State) : (performed .chClear s).lcd = s.lcd.onByte s.cfg false s.cfg.cmdClear := by
  simp only [performed, wireEvents, State.advance_lcd, emitAll_lcd_lcdByte]

/-- The build is a parameter, so a receiver that pairs nibbles after a request is `charPaired` as before it. -/
theorem charPaired_performed {i : Instr} {s : State} (hr : s.charPaired)
    (hm : (performed i s).lcd.ifMode = .if4Hi) : (performed i s).charPaired :=
  ⟨by rw [performed_cfg]; exact hr.1, hm⟩

/-- Settles O42: the byte is the build's own clear command, and the receiver's answer is `onByte_clear`. -/
theorem clearMakesEveryCellASpace : Obligations.ClearMakesEveryCellASpace := by
  intro s hr
  obtain ⟨k, hn, hclear⟩ := onByte_clear hr.2 s.cfg
  have hlcd := (chClear_lcd s).trans hclear
  refine ⟨_, exec_of_inRange rfl, performed_parallelFrame rfl s, performed_pc _ s, performed_trace _ s,
    fun a ha => ?_, by rw [hlcd], by rw [hlcd], by rw [hlcd], by rw [hlcd],
    charPaired_performed hr (by rw [hlcd]; exact hr.2)⟩
  rw [hlcd]
  exact (Memory.read_fill 128 0x20#8 a).trans (if_pos ha)

/-- R162: with legal row offsets the mask takes nothing from the address of the cell. -/
theorem cursorCommand_eq {s : State} {row col : Byte}
    (h : (rowBaseAt s.cfg.rowBase row).toNat + col.toNat ≤ 0x7F) :
    cursorCommand s.cfg row col =
      s.cfg.cmdDdram ||| BitVec.ofNat 8 ((rowBaseAt s.cfg.rowBase row).toNat + col.toNat) := by
  rw [cursorCommand, ← cellAddr_masked h, BitVec.ofNat_toNat, BitVec.setWidth_eq]

/-- Settles O43: the address fits in seven bits (`cellAddr_le`), so the byte is the build's own command for that cell,
and the receiver's answer is `onByte_cursor`. -/
theorem setCursorSelectsTheCell : Obligations.SetCursorSelectsTheCell := by
  intro s row col hr hl hrow hcol
  have hle := cellAddr_le hl hrow hcol
  obtain ⟨k, hn, hcursor⟩ := onByte_cursor hr hle
  have hlcd := (chSetcur_lcd row col s).trans hcursor
  have htrace := performed_trace (.chSetcur row col) s
  rw [wireEvents, cursorCommand_eq hle] at htrace
  exact ⟨_, exec_of_inRange (chSetcur_inRange hrow hcol), performed_parallelFrame rfl s, performed_pc _ s, hle, htrace,
    by rw [hlcd], by rw [hlcd], by rw [hlcd], by rw [hlcd], by rw [hlcd],
    charPaired_performed hr (by rw [hlcd]; exact hr.2)⟩

/-- R165: CH.TEXT stores a text no longer than the address order along it, and leaves the receiver ready for more. -/
theorem chText_stores {s : State} (hr : s.charReady) (hs : s.lcd.acSel = .is .ddram) {a : BitVec 7}
    (ha : s.lcd.ac = .is a) {p : List Byte} (hp : p.length ≤ 80) :
    TextStored s.cfg p a s.lcd (performed (.chText p) s).lcd ∧ (performed (.chText p) s).charReady := by
  obtain ⟨hpair, hltr, hknown⟩ := hr
  have h : TextStored s.cfg p a s.lcd (performed (.chText p) s).lcd := by
    rw [chText_lcd]
    exact text_stored s.cfg p a s.lcd hpair.2 hltr hknown hs ha hp
  exact ⟨h, charPaired_performed hpair h.mode, by rwa [h.flags], by rwa [h.flags]⟩

/-- R72: with the default offsets of either width, the cell after the last of row 0 is the first of row 2, and the one
after the last of row 1 is the first of row 3. -/
theorem ddramNext_row_end (c : Columns) :
    ddramNext (BitVec.ofNat 7 ((RowBase.standard c).row0.toNat + c.count - 1)) =
        BitVec.ofNat 7 (RowBase.standard c).row2.toNat ∧
      ddramNext (BitVec.ofNat 7 ((RowBase.standard c).row1.toNat + c.count - 1)) =
        BitVec.ofNat 7 (RowBase.standard c).row3.toNat := by
  cases c <;> decide

/-- Settles O44: the stored text is `chText_stores`, and the rows follow each other by `ddramNext_row_end`. -/
theorem textIsStoredInAddressOrder : Obligations.TextIsStoredInAddressOrder := by
  refine ⟨fun s p a hr hs ha hp => ?_, ddramNext_row_end⟩
  obtain ⟨h, hready⟩ := chText_stores hr hs ha hp
  exact ⟨_, exec_of_inRange rfl, performed_parallelFrame rfl s,
    (performed_pc _ s).trans (Nat.add_assoc s.pc 2 p.length).symm, performed_trace _ s, h.ac, h.sel, h.cgram, h.flags,
    hready, h.stored, h.kept⟩

/-- Settles O46: the receiver after the request is `glyph_lcd`; the eight rows of a slot do not wrap round the glyph
memory. -/
theorem glyphIsStoredInItsSlot : Obligations.GlyphIsStoredInItsSlot := by
  intro s slot rows hr hslot
  obtain ⟨-, h⟩ := glyph_lcd hr hslot rows
  refine ⟨_, exec_of_inRange (chGlyph_inRange _ hslot rows), performed_parallelFrame rfl s, performed_pc _ s,
    performed_trace _ s, fun r hlt => glyphRow_chGlyph hr hslot rows hlt, fun a ha => ?_, h.sel, h.ac, h.ddram, h.flags,
    charReady_chGlyph hr hslot rows⟩
  refine h.kept a fun k hk => ?_
  have hk8 : k < 8 := hk
  rw [Nat.mod_eq_of_lt (by omega)]
  exact ha k hk8

/-- R58: at a receiver whose counter points into glyph memory, CH.PUTC stores five bits there and writes no cell. -/
theorem putc_in_glyph_memory {s : State} (hr : s.charReady) (hs : s.lcd.acSel = .is .cgram) {a : Nat} (ha : a < 64)
    (hac : s.lcd.ac = .is (BitVec.ofNat 7 a)) (c : Byte) :
    (performed (.chPutc c) s).lcd.ddram = s.lcd.ddram ∧
      Memory.read (performed (.chPutc c) s).lcd.cgram a = .is (c &&& 0x1F#8) := by
  obtain ⟨⟨-, hmode⟩, hltr, hknown⟩ := hr
  have haddr : (BitVec.ofNat 7 a).toNat % 64 = a := by
    rw [BitVec.toNat_ofNat]
    omega
  rw [putc_lcd, onByte_data_cgram hmode hltr hknown hs hac, haddr]
  exact ⟨rfl, Memory.read_write_same ..⟩

/-- Settles O47: CH.GLYPH leaves the counter in glyph memory (`glyph_lcd`), where the character is stored unless
CH.SETCUR moves it to a cell (`setcur_putc_writes`). -/
theorem characterAfterGlyphNeedsACursor : Obligations.CharacterAfterGlyphNeedsACursor := by
  intro s slot row col c rows hr hl hslot hrow hcol
  let t := performed (.chGlyph slot rows) s
  have hready : t.charReady := charReady_chGlyph hr hslot rows
  have hin := chGlyph_inRange s.cfg.cols hslot rows
  constructor
  · obtain ⟨-, h⟩ := glyph_lcd hr hslot rows
    obtain ⟨hcells, hbyte⟩ := putc_in_glyph_memory hready h.sel (Nat.mod_lt _ (by decide)) h.ac c
    exact ⟨performed (.chPutc c) t, (execAll_cons hin).trans (execAll_cons rfl), hcells.trans h.ddram, hbyte⟩
  · have hcfg : t.cfg = s.cfg := performed_cfg _ s
    obtain ⟨u, hexec, hu⟩ := setcur_putc_writes hready (by rwa [hcfg]) hrow (by rwa [hcfg]) c
    exact ⟨t, u, exec_of_inRange hin, hexec, hu.cell, hu.cgram⟩

end Sys2Proof.Machine

end

/-! ## The pixel surface (43_pixel_surface.md)

The events of each operation are its body, so what it leaves in the pixel receiver is said by the lemmas of
Laws/PixelWrites.lean: `emitAll_setpos`, `blit_stored`, `clearPage_stored` and `clearPages`. -/

section

namespace Sys2Proof.Machine

theorem pxSetpos_inRange (cols : Columns) {x page : Byte} (hx : x.toNat ≤ 127) (hp : page.toNat ≤ 7) :
    (Instr.pxSetpos x page).inRange cols = true := by
  simp [Instr.inRange, hx, hp]

theorem pxBlit_inRange (cols : Columns) {x page : Byte} (hx : x.toNat ≤ 120) (hp : page.toNat ≤ 7) (p : Bytes8) :
    (Instr.pxBlit x page p).inRange cols = true := by
  simp [Instr.inRange, hx, hp]

theorem pxClrpg_inRange (cols : Columns) {page : Byte} (hp : page.toNat ≤ 7) :
    (Instr.pxClrpg page).inRange cols = true := by
  simp [Instr.inRange, hp]

/-- The build is a parameter, so a receiver that is synchronised after a request, on the idle bus, is `pixelReady` as
before it. -/
theorem pixelReady_performed {i : Instr} {s : State} (hr : s.pixelReady) (hsync : (performed i s).px.pxSync = true)
    (hidle : (performed i s).busIdle) : (performed i s).pixelReady := by
  obtain ⟨-, -, -, hbits⟩ := hidle
  exact ⟨by rw [performed_cfg]; exact hr.1, hsync, by rw [hbits]; exact Nat.zero_lt_succ 7⟩

/-- Settles O48: the position commands leave the receiver `positioned` (`emitAll_setpos`), which stores nothing. -/
theorem setPositionLoadsThePosition : Obligations.SetPositionLoadsThePosition := by
  intro s x page hmatch hbits hx hp
  have hlines := congrArg State.lines (emitAll_setpos hmatch hbits hx hp)
  have hpx : (performed (.pxSetpos x page) s).px = s.px.positioned x page :=
    congrArg State.px (emitAll_setpos hmatch hbits hx hp)
  refine ⟨_, exec_of_inRange (pxSetpos_inRange _ hx hp), performed_serialFrame rfl s, performed_pc _ s, ?_,
    performed_trace _ s, fun hstd => by rw [setposBytes, hstd], ?_⟩
  · exact ⟨congrArg Lines.scl hlines, congrArg Lines.sda hlines, by rw [hpx]; rfl, by rw [hpx]; rfl⟩
  · rw [hpx]
    exact ⟨rfl, colPtr_positioned x page hx s.px, rfl, rfl, rfl⟩

/-- Settles O49: what the position and the eight columns leave is `blit_stored`. -/
theorem blitStoresEightColumns : Obligations.BlitStoresEightColumns := by
  intro s x page p hr hx hp
  obtain ⟨h, hidle⟩ := blit_stored hr hx hp p
  exact ⟨_, exec_of_inRange (pxBlit_inRange _ hx hp p), performed_serialFrame rfl s, performed_pc _ s, hidle,
    performed_trace _ s, h.stored, h.kept, h.page, h.col, h.sync, h.on⟩

/-- Settles O50: the second blit stores its own columns, and keeps every other byte as the first left it. -/
theorem laterSpriteWins : Obligations.LaterSpriteWins := by
  intro s x y page p q hr hx hy hp
  let u := performed (.pxBlit x page p) s
  obtain ⟨hfirst, hidle⟩ := blit_stored hr hx hp p
  have hu : u.pixelReady := pixelReady_performed hr hfirst.sync hidle
  obtain ⟨hsecond, -⟩ := blit_stored hu hy hp q
  refine ⟨performed (.pxBlit y page q) u, ?_, hsecond.stored, fun i hi hout => ?_⟩
  · rw [execAll_cons (pxBlit_inRange _ hx hp p), execAll_cons (pxBlit_inRange _ hy hp q), execAll]
  · have hkept : ∀ k < q.toList.length,
        gddramAddr page.toNat (x.toNat + i) ≠ 128 * page.toNat + (y.toNat + k) := by
      intro k hk
      have hk8 : k < 8 := hk
      rw [gddramAddr]
      omega
    exact (hsecond.kept _ hkept).trans (hfirst.stored i hi)

/-- Settles O51: what the position and the 128 zero columns leave is `clearPage_stored`; the column after the last is
column 0. -/
theorem clearPageZeroesItsPage : Obligations.ClearPageZeroesItsPage := by
  intro s page hr hp
  obtain ⟨h, hidle⟩ := clearPage_stored hr hp
  have hcol := h.col
  rw [List.length_replicate] at hcol
  refine ⟨_, exec_of_inRange (pxClrpg_inRange _ hp), performed_serialFrame rfl s, performed_pc _ s, hidle,
    performed_trace _ s, fun x hx => ?_, fun a ha => h.kept a fun k hk => ?_, h.page, hcol, h.sync, h.on⟩
  · have hzero := h.stored x (by rwa [List.length_replicate])
    rwa [List.getElem_replicate, Nat.zero_add] at hzero
  · rw [Nat.zero_add]
    exact ha k (by rwa [List.length_replicate] at hk)

/-- Settles O52: the eight pages of `clearPages`, the last of them page 7. -/
theorem clearZeroesThePanel : Obligations.ClearZeroesThePanel := by
  intro s hr
  obtain ⟨⟨-, hsync, -⟩, hidle, hon, hpage, hcol, hzero⟩ := clearPages 8 (Nat.le_refl 8) hr (Nat.zero_lt_succ 7)
  exact ⟨_, exec_of_inRange rfl, performed_serialFrame rfl s, performed_pc _ s, hidle, hzero, hpage, hcol, hsync, hon⟩

/-! ### Numbers of events and transactions (R121, R155, R188) -/

/-- R155: a transaction of one payload byte is 175 events. -/
theorem length_oneByteXfers (c : Config) (ctl : Byte) (bs : List Byte) :
    (bs.flatMap fun b => oledXfer c ctl [b]).length = 175 * bs.length :=
  length_flatMap _ 175 bs fun b => length_xfer c ctl [b]

theorem length_commandTransfers (c : Config) (bs : List Byte) : (commandTransfers c bs).length = bs.length :=
  List.length_map ..

theorem length_dataTransfers (c : Config) (bs : List Byte) : (dataTransfers c bs).length = bs.length :=
  List.length_map ..

/-- A position and then columns is one transaction for each byte of either. -/
theorem length_block (c : Config) (x page : Byte) (cols : List Byte) :
    (setposEvents c x page ++ columnEvents c cols).length =
      175 * (commandTransfers c (setposBytes c x page) ++ dataTransfers c cols).length := by
  have hset : (setposEvents c x page).length = 175 * (setposBytes c x page).length := length_oneByteXfers c c.ctlCmd _
  have hcol : (columnEvents c cols).length = 175 * cols.length := length_oneByteXfers c c.ctlDat cols
  rw [List.length_append, List.length_append, hset, hcol, length_commandTransfers, length_dataTransfers, Nat.mul_add]

theorem length_blit (c : Config) (x page : Byte) (p : Bytes8) :
    (blitEvents c x page p).length = 175 * (blitTransfers c x page p).length :=
  length_block c x page p.toList

theorem length_clearPage (c : Config) (page : Byte) :
    (clearPageEvents c page).length = 175 * (clearPageTransfers c page).length :=
  length_block c 0#8 page _

/-- R188: PX.CLEAR is 175 events for each of its transactions. -/
theorem length_clearPanel (c : Config) :
    (wireEvents c .pxClear).length = 175 * (transfers c .pxClear).length := by
  simp only [wireEvents, clearPanelEvents, transfers, List.length_flatMap, length_clearPage, List.sum_map_mul_left]

theorem length_number (c : Config) (x page : Byte) (v : Value) :
    (wireEvents c (.pxNum x page v)).length = 175 * (transfers c (.pxNum x page v)).length := by
  simp only [wireEvents, digitBlits_four, transfers, numberTransfers, List.length_append, length_blit, Nat.mul_add]

section
variable {c : Config} (hstd : c.pxSetpos = .standard)
include hstd

/-- R181: the default position takes three bytes. -/
theorem length_setposBytes (x page : Byte) : (setposBytes c x page).length = 3 := by
  rw [setposBytes, hstd]
  rfl

theorem length_blockTransfers (x page : Byte) (cols : List Byte) :
    (commandTransfers c (setposBytes c x page) ++ dataTransfers c cols).length = 3 + cols.length := by
  rw [List.length_append, length_commandTransfers, length_dataTransfers, length_setposBytes hstd]

theorem length_blitTransfers (x page : Byte) (p : Bytes8) : (blitTransfers c x page p).length = 11 :=
  length_blockTransfers hstd x page p.toList

theorem length_clearPageTransfers (page : Byte) : (clearPageTransfers c page).length = 131 := by
  rw [clearPageTransfers, length_blockTransfers hstd, List.length_replicate]
  rfl

theorem length_clearPanelTransfers : (transfers c .pxClear).length = 1048 :=
  length_flatMap _ 131 (List.range pages) fun _ => length_clearPageTransfers hstd _

theorem length_numberTransfers (x page : Byte) (v : Value) : (transfers c (.pxNum x page v)).length = 44 := by
  simp only [transfers, numberTransfers, List.length_append, length_blitTransfers hstd]

end

/-- R118, R121: with the default lone nibble LCD.INIT is 4 nibbles, 4 bytes and 4 waits. -/
theorem length_lcdInitEvents {c : Config} (h : c.fourbitNib = some 0x2#4) : (lcdInitEvents c).length = 76 := by
  rw [lcdInitEvents, h]
  rfl

/-- Settles O59: every transaction of the pixel surface is 175 events (`length_block`), so its events follow from the
number of its transactions. -/
theorem eventAndTransactionCounts : Obligations.EventAndTransactionCounts := by
  intro c
  refine ⟨fun _ _ => ⟨rfl, rfl⟩, fun _ _ => rfl, length_lcdInitEvents, rfl, rfl, rfl, rfl, fun _ => ⟨rfl, rfl⟩,
    length_xfer c, fun b => ⟨length_xfer c c.ctlCmd [b], length_xfer c c.ctlDat [b]⟩, fun h => ?_,
    fun hstd => ⟨fun x page => ⟨?_, ?_⟩, fun x page p => ⟨length_blitTransfers hstd x page p, ?_⟩,
      fun page => ⟨length_clearPageTransfers hstd page, ?_⟩, length_clearPanelTransfers hstd, ?_,
      fun x page v => ⟨length_numberTransfers hstd x page v, ?_⟩⟩⟩
  · exact (length_oneByteXfers c c.ctlCmd c.oledInitSeq).trans (by rw [h]; rfl)
  · exact (length_commandTransfers c _).trans (length_setposBytes hstd x page)
  · exact (length_oneByteXfers c c.ctlCmd _).trans (by rw [length_setposBytes hstd])
  · exact (length_blit c x page p).trans (by rw [length_blitTransfers hstd])
  · exact (length_clearPage c page).trans (by rw [length_clearPageTransfers hstd])
  · rw [length_clearPanel, length_clearPanelTransfers hstd]
  · rw [length_number, length_numberTransfers hstd]

end Sys2Proof.Machine

end

/-! ## The decimal renderer (44_decimal_renderer.md)

The digits are those of Laws/Decimal.lean. CH.NUM is a position command and a text in a row (`row_text`), PX.NUM a list
of blits (`blits_stored`). -/

section

namespace Sys2Proof.Machine

/-! ### The digits (R201, R202) -/

theorem charDigits_zero : charDigits 0#16 = [0] := rfl

theorem charDigits_of_ne_zero {v : Value} (h : v ≠ 0#16) : charDigits v = (digitsLow 5 v.toNat).reverse := if_neg h

/-- R201: a 16-bit value needs no more than the five rounds of the loop. -/
theorem value_lt_fiveDigits (v : Value) : v.toNat < 10 ^ 5 := v.isLt.trans (by decide)

theorem charDigits_le (v : Value) : ∀ d ∈ charDigits v, d ≤ 9 := by
  by_cases h : v = 0#16
  · subst h
    decide
  · rw [charDigits_of_ne_zero h]
    exact fun d hd => digitsLow_le 5 v.toNat d (List.mem_reverse.1 hd)

theorem decimalValue_charDigits (v : Value) : decimalValue (charDigits v) = v.toNat := by
  by_cases h : v = 0#16
  · subst h
    rfl
  · rw [charDigits_of_ne_zero h]
    exact digitsLow_value 5 v.toNat (value_lt_fiveDigits v)

theorem charDigits_length_le (v : Value) : (charDigits v).length ≤ 5 := by
  by_cases h : v = 0#16
  · subst h
    decide
  · rw [charDigits_of_ne_zero h, List.length_reverse]
    exact digitsLow_length 5 v.toNat

/-- No digits at all have the value 0, whose character form is "0". -/
theorem charDigits_ne_nil (v : Value) : charDigits v ≠ [] := by
  intro h
  have hv : v.toNat = 0 := by rw [← decimalValue_charDigits v, h]; rfl
  have h0 : v = 0#16 := BitVec.eq_of_toNat_eq hv
  subst h0
  exact absurd h (List.cons_ne_nil _ _)

/-- R201: the loop's last digit, which is the first of the result, is 0 for no value but 0. -/
theorem eq_zero_of_charDigits_head {v : Value} (h : (charDigits v).head? = some 0) : v = 0#16 := by
  by_contra hv
  rw [charDigits_of_ne_zero hv, List.head?_reverse] at h
  exact digitsLow_last 5 v.toNat (value_lt_fiveDigits v) h

/-- Settles O53: the value 0 has its own form, and every other the digits of the loop (Laws/Decimal.lean). -/
theorem charDigitsAreTheDecimalDigits : Obligations.CharDigitsAreTheDecimalDigits := fun v =>
  ⟨List.length_pos_of_ne_nil (charDigits_ne_nil v), charDigits_length_le v, charDigits_le v, decimalValue_charDigits v,
    fun h => h ▸ charDigits_zero, fun h => eq_zero_of_charDigits_head h ▸ charDigits_zero⟩

theorem pixDigits_le {v : Value} (hv : v.toNat ≤ 9999) : ∀ d ∈ pixDigits v, d ≤ 9 := by
  simp only [pixDigits, List.forall_mem_cons]
  exact ⟨by omega, by omega, by omega, by omega, List.forall_mem_nil _⟩

theorem decimalValue_pixDigits (v : Value) : decimalValue (pixDigits v) = v.toNat := by
  simp only [decimalValue, pixDigits, List.foldl_cons, List.foldl_nil]
  omega

/-- Settles O54: the digits are the quotients of R202. -/
theorem pixDigitsAreFourPaddedDigits : Obligations.PixDigitsAreFourPaddedDigits := by
  intro v hv
  refine ⟨_, _, _, _, rfl, ?_, ?_, ?_, ?_, ?_⟩ <;> omega

/-! ### CH.NUM (R203, R204) -/

theorem chNum_inRange {s : State} {row col : Byte} (hrow : row.toNat ≤ 3) (hcol : col.toNat ≤ s.cfg.cols.count - 1)
    (v : Value) : (Instr.chNum row col v).inRange s.cfg.cols = true := by
  simp [Instr.inRange, hrow, hcol]

/-- CH.NUM is the position command of CH.SETCUR and then the digit codes as data bytes (R203). -/
theorem chNum_lcd (row col : Byte) (v : Value) (s : State) :
    (performed (.chNum row col v) s).lcd =
      (numberCodes v).foldl (fun c b => c.onByte s.cfg true b)
        (s.lcd.onByte s.cfg false (cursorCommand s.cfg row col)) := by
  simp only [performed, wireEvents, State.advance_lcd, emitAll_append, emitAll_lcd_lcdData, emitAll_lcd_lcdByte,
    emitAll_cfg]

theorem numberCodes_length (v : Value) : (numberCodes v).length = (charDigits v).length := List.length_map ..

/-- R207: every code is that of a digit. -/
theorem numberCodes_range (v : Value) : ∀ b ∈ numberCodes v, 0x30 ≤ b.toNat ∧ b.toNat ≤ 0x39 := by
  intro b hb
  obtain ⟨d, hd, rfl⟩ := List.mem_map.1 hb
  have hle := charDigits_le v d hd
  rw [toNat_digitCode d hle]
  omega

/-- R209 (a): the digits are read back from their codes. -/
theorem numberCodes_digits (v : Value) : (numberCodes v).map (fun b => b.toNat - 0x30) = charDigits v := by
  have hdigit : ∀ d ∈ charDigits v, (digitCode d).toNat - 0x30 = d := fun d hd => by
    rw [toNat_digitCode d (charDigits_le v d hd), Nat.add_sub_cancel_left]
  rw [numberCodes, List.map_map]
  exact (List.map_congr_left hdigit).trans (List.map_id _)

/-- R209 (a): the first code is "0" for no value but 0. -/
theorem eq_zero_of_numberCodes_head {v : Value} (h : (numberCodes v).head? = some 0x30#8) : v = 0#16 := by
  apply eq_zero_of_charDigits_head
  rw [← numberCodes_digits v, List.head?_map, h]
  rfl

/-- Settles O55: the codes are a text in a row (`row_text`), and the digits are read back from them
(`numberCodes_digits`). -/
theorem charNumberReadsBack : Obligations.CharNumberReadsBack := by
  intro s row col v hr hb hrow hcol hfit
  have htext : RowText s row col (numberCodes v) (performed (.chNum row col v) s).lcd := by
    rw [chNum_lcd]
    exact row_text hr hb hrow hcol _ (by rwa [numberCodes_length])
  obtain ⟨hpair, hltr, hknown⟩ := hr
  refine ⟨_, numberCodes v, exec_of_inRange (chNum_inRange hrow hcol v), performed_parallelFrame rfl s, performed_pc _ s,
    performed_trace _ s, numberCodes_length v, fun k hk => ?_, numberCodes_range v, ?_, eq_zero_of_numberCodes_head,
    htext.kept, htext.cgram, charPaired_performed hpair htext.mode, by rwa [htext.flags], by rwa [htext.flags]⟩
  · rw [State.cell, performed_cfg]
    exact htext.stored k hk
  · rw [numberCodes_digits, decimalValue_charDigits]

/-! ### PX.NUM (R205, R206) -/

/-- Settles O56: four blits side by side (`blits_stored`), the last column at most 127. -/
theorem pixNumberStoresFourFontBlocks : Obligations.PixNumberStoresFourFontBlocks := by
  intro s x page v hr hx hp hv
  have hfit : x.toNat + 8 * (pixDigits v).length ≤ 128 := Nat.add_le_add_right hx 32
  obtain ⟨⟨-, hsync, -⟩, hidle, hon, hpage, hcol, hblocks, hkept⟩ :=
    blits_stored (pixDigits v) hr (fun _ => trivial) hfit hp (List.cons_ne_nil _ _)
  exact ⟨_, exec_of_inRange (pxNum_in _ hx hp hv), performed_serialFrame rfl s, performed_pc _ s, hidle, hblocks, hkept,
    hpage, hcol, hsync, hon⟩

/-- Settles O57: the blocks are the font entries of the four digits, and a font of different entries gives each digit
back (`digitOf_glyph`). -/
theorem pixNumberReadsBack : Obligations.PixNumberReadsBack := by
  intro s x page v hr hf hx hp hv
  obtain ⟨t, hexec, -, -, -, hblocks, -⟩ := pixNumberStoresFourFontBlocks s x page v hr hx hp hv
  refine ⟨t, (pixDigits v).map (glyphOf s.cfg.digitFont), pixDigits v, hexec, rfl, fun k hk i b hb => ?_, ?_,
    decimalValue_pixDigits v⟩
  · rw [List.length_map] at hk
    rw [List.getElem_map] at hb
    exact hblocks k _ (List.getElem?_eq_getElem hk) i b hb
  · rw [List.map_map]
    exact List.map_congr_left fun d hd => digitOf_glyph hf (pixDigits_le hv d hd)

end Sys2Proof.Machine

end

/-! ## Refusals and the end of a run (60_exceptions.md)

A refusal leaves `s.refuse code`, where the decoder's answer and the operand ranges fix the code. Every other step takes
at least one of the bytes left, so a run ends. -/

section

namespace Sys2Proof.Machine

/-- R221, R224: a step that refuses sets the mark at `pc`, and its code is the first that applies: the decoder's, or
`BadOperand` for a decoded request out of its ranges. -/
theorem refused_next_cases {s t : State} (h : step s = .next t) (ht : t.refused ≠ none) :
    (∃ i rest, decode s.pending = .ok (i, rest) ∧ i.inRange s.cfg.cols = false ∧ t = s.refuse .badOperand) ∨
      (∃ e, decode s.pending = .error e ∧ t = s.refuse (refuseCodeOf e)) := by
  obtain ⟨hr, -, ⟨i, rest, -, -, rfl⟩ | hrefused⟩ := step_next_cases h
  · exact absurd ((performed_refused i s).trans hr) ht
  · exact hrefused

/-- Settles O11: the code of a decoded request is `BadOperand`, and that of any other the decoder's. -/
theorem refusalIsPrecise : Obligations.RefusalIsPrecise := by
  intro s t h ht
  have stops (code : RefuseCode) : step (s.refuse code) = .refused (.requestRefused ⟨code, s.pc⟩) :=
    step_of_marked (s.refuse_refused code)
  obtain ⟨i, rest, hd, hi, rfl⟩ | ⟨e, hd, rfl⟩ := refused_next_cases h ht <;> rw [State.pending] at hd
  · exact ⟨.badOperand, rfl, by simp [hd], by simp [hd], by simp [hd, hi], stops _⟩
  · cases e with
    | badOpcode => exact ⟨.badOpcode, rfl, by simp [hd], by simp [hd], by simp [hd], stops _⟩
    | truncated => exact ⟨.truncated, rfl, by simp [hd], by simp [hd], by simp [hd], stops _⟩

/-- R24: a run that is neither over nor refused has a next step. -/
theorem step_next_of_running {s : State} (hr : s.refused = none) (hp : s.pc ≠ s.req.length) :
    ∃ t, step s = .next t := by
  rw [step_running hr hp]
  exact runRequest_next s

/-- R24, R86: a step that refuses nothing leaves fewer bytes, and `pc` not past the end. -/
theorem bytesLeft_decrease {s t : State} (h : step s = .next t) (ht : t.refused = none) :
    t.pc ≤ t.req.length ∧ t.req.length - t.pc < s.req.length - s.pc := by
  obtain ⟨i, rest, -, hpc, -, hle⟩ := pcMovesByTheRequestLength s t h ht
  obtain ⟨-, -, hreq⟩ := stepOnlyAppendsToTheTrace s t h
  have hpos := instr_length_pos i
  rw [hreq] at hle ⊢
  omega

/-- A run is its first step, and then the run from the state after it. -/
theorem runFor_succ {s t : State} (h : step s = .next t) (n : Nat) : runFor (n + 1) s = runFor n t := by
  simp only [runFor, h]

/-- R227: by strong induction on the number of bytes left (`bytesLeft_decrease`). -/
theorem runFor_ends {s : State} (hle : s.pc ≤ s.req.length) :
    ∃ n t, n ≤ s.req.length - s.pc ∧ runFor n s = .next t ∧ (t.final ∨ t.refused ≠ none) := by
  induction hleft : s.req.length - s.pc using Nat.strong_induction_on generalizing s with
  | _ left ih =>
    subst hleft
    by_cases hr : s.refused = none
    · by_cases hp : s.pc = s.req.length
      · exact ⟨0, s, Nat.zero_le _, rfl, .inl ⟨hp, hr⟩⟩
      · obtain ⟨t, hst⟩ := step_next_of_running hr hp
        by_cases ht : t.refused = none
        · obtain ⟨hle', hlt⟩ := bytesLeft_decrease hst ht
          obtain ⟨n, u, hn, hrun, hend⟩ := ih _ hlt hle' rfl
          exact ⟨n + 1, u, Nat.lt_of_le_of_lt hn hlt, (runFor_succ hst n).trans hrun, hend⟩
        · exact ⟨1, t, Nat.sub_pos_of_lt (Nat.lt_of_le_of_ne hle hp), runFor_succ hst 0, .inr ht⟩
    · exact ⟨0, s, Nat.zero_le _, rfl, .inr hr⟩

/-- Settles O13: a final state is unmarked, so the two ends of a run exclude each other. -/
theorem everyRunEnds : Obligations.EveryRunEnds := by
  intro s hle
  obtain ⟨n, t, hn, hrun, hend⟩ := runFor_ends hle
  exact ⟨n, t, hn, hrun, hend, fun ⟨hfinal, hmark⟩ => hmark hfinal.2⟩

end Sys2Proof.Machine

end

/-! ## Hazards and timing (70_reset_and_hazards.md)

The strobe's spacing is that of `Tidy` lists (Laws/Latched.lean), which speak of lines with `EN` at 0; a lone nibble is
followed through the three latched pairs of R255; the least durations are sums of those of the sub-sequences. -/

section

namespace Sys2Proof.Machine

/-! ### The strobe (R253) -/

/-- The level of `EN` after a list of events depends on the level before only where the list does not write it. -/
theorem linesAfter_en_congr {l l' : Lines} {es : List Event} (h : l.en = l'.en ∨ ∃ v, .en v ∈ es) :
    (linesAfter l es).en = (linesAfter l' es).en := by
  induction es generalizing l l' with
  | nil => exact h.resolve_right (by simp)
  | cons e es ih =>
    apply ih
    rcases h with heq | ⟨v, hv⟩
    · left
      cases e with
      | en v => rfl
      | nib _ | rs _ | scl _ | sda _ | wait _ => exact heq
    · rcases List.mem_cons.1 hv with rfl | hes
      · exact .inl rfl
      · exact .inr ⟨v, hes⟩

/-- R253: a run of accepted requests is spaced on lines with `EN` at 0. -/
theorem spaced_wireEvents (c : Config) (prog : List Instr) {l : Lines} (h : l.en = false) :
    Spaced l true (prog.flatMap (wireEvents c)) := by
  have htidy := tidy_flatMap (wireEvents c) prog (tidy_wireEvents c) l [] h fun _ _ => trivial
  rwa [List.append_nil] at htidy

/-- Settles O24: the run is spaced on the same lines with `EN` at 0, and either `EN` is at 0 already or the run has
written it before. -/
theorem nibAndRsAreStableAroundTheStrobe : Obligations.NibAndRsAreStableAroundTheStrobe := by
  intro c l prog pre post e he hwrite
  obtain ⟨hen, -, hsettled⟩ :=
    (spaced_wireEvents c prog (l := { l with en := false }) rfl).spec _ _ _ pre post e he hwrite
  exact ⟨fun h => (linesAfter_en_congr h).trans hen, hsettled⟩

/-! ### A lone nibble (R255) -/

section
variable {c : CharRx} (cfg : Config) (rs : Bool) (n : Nibble)

/-- R56: a receiver that waits for a high nibble holds it, and its register select. -/
theorem onStrobe_high (h : c.ifMode = .if4Hi) :
    c.onStrobe cfg rs n =
      { c with
        legacyCnt := if rs = false ∧ n = 0x3#4 then min (c.legacyCnt + 1) 3 else 0
        hiNib := .is n, hiRs := .is rs, ifMode := .if4Lo } := by
  simp [CharRx.onStrobe, CharRx.countLegacy, CharRx.intake, h]

/-- R56: a data nibble after a held data nibble makes a data byte. -/
theorem onStrobe_low_data {h : Nibble} (hm : c.ifMode = .if4Lo) (hn : c.hiNib = .is h) (hr : c.hiRs = .is true) :
    c.onStrobe cfg true n = CharRx.data (h ++ n) { c with legacyCnt := 0, ifMode := .if4Hi } := by
  have hintake : (c.countLegacy true n).intake cfg true n =
      CharRx.data (h ++ n) { c with legacyCnt := 0, ifMode := .if4Hi } := by
    simp [CharRx.countLegacy, CharRx.intake, CharRx.deliver, hm, hn, hr]
  rw [CharRx.onStrobe, hintake]
  exact settleLegacy_of_zero (CharRx.data_legacyCnt _ _)

/-- R56: a data nibble after a held command nibble loses the receiver. -/
theorem onStrobe_low_mismatch {h : Nibble} (hm : c.ifMode = .if4Lo) (hn : c.hiNib = .is h)
    (hr : c.hiRs = .is false) : c.onStrobe cfg true n = { c.havoc with legacyCnt := 0 } := by
  simp [CharRx.onStrobe, CharRx.countLegacy, CharRx.intake, CharRx.havoc, hm, hn, hr]

/-- R56: a receiver in mode `unknown` takes of a data nibble only that it is not a legacy one. -/
theorem onStrobe_unknown_data (hm : c.ifMode = .unknown) :
    c.onStrobe cfg true n = { c with legacyCnt := 0 } := by
  simp [CharRx.onStrobe, CharRx.countLegacy, CharRx.intake, hm]

end

/-- A byte of two nibbles as a number. -/
theorem nibbles_append_eq (h n : Nibble) : (h ++ n : BitVec (4 + 4)) = BitVec.ofNat 8 (16 * h.toNat + n.toNat) := by
  apply BitVec.eq_of_toNat_eq
  have hh := h.isLt
  have hn := n.isLt
  rw [BitVec.toNat_append, ← Nat.shiftLeft_add_eq_or_of_lt hn, Nat.shiftLeft_eq, BitVec.toNat_ofNat]
  omega

/-- R255, R56: at a receiver that holds a command nibble a data byte is lost at its first nibble. -/
theorem onByte_data_after_command {c : CharRx} {h : Nibble} (hm : c.ifMode = .if4Lo) (hn : c.hiNib = .is h)
    (hr : c.hiRs = .is false) (cfg : Config) (b : Byte) :
    c.onByte cfg true b = { c.havoc with legacyCnt := 0 } := by
  rw [CharRx.onByte, onStrobe_low_mismatch cfg _ hm hn hr]
  exact onStrobe_unknown_data cfg _ rfl

/-- R255, R58: at a receiver that holds the data nibble `h` a data byte completes the byte of `h` and its own high nibble,
and its low nibble is held. -/
theorem onByte_data_after_data {c : CharRx} {h : Nibble} (hm : c.ifMode = .if4Lo) (hn : c.hiNib = .is h)
    (hr : c.hiRs = .is true) (hl : c.chCfg.leftToRight = true) (hk : c.chCfg.known = true) (cfg : Config)
    (b : Byte) :
    c.onByte cfg true b =
      { CharRx.stored (h ++ b.extractLsb' 4 4) { c with legacyCnt := 0, ifMode := .if4Hi } with
        legacyCnt := 0, hiNib := .is (b.extractLsb' 0 4), hiRs := .is true, ifMode := .if4Lo } := by
  have hfirst := (onStrobe_low_data cfg (b.extractLsb' 4 4) hm hn hr).trans
    (data_of_known (c := { c with legacyCnt := 0, ifMode := .if4Hi }) _ hl hk)
  rw [CharRx.onByte, hfirst]
  exact onStrobe_high cfg true _ (CharRx.stored_frame _ _).2.1

/-- Settles O30: the nibble is held (`onStrobe_high`), and the data byte after it meets the receiver half-way through a
byte. -/
theorem loneNibbleShiftsThePairing : Obligations.LoneNibbleShiftsThePairing := by
  rintro s a b ⟨⟨-, hmode⟩, hl, hk⟩ ha
  let t := performed (.lcdNib a) s
  have ht := (lcdNib_lcd a s).trans (onStrobe_high s.cfg (nibRs a) (nibData a) hmode)
  have hm : t.lcd.ifMode = .if4Lo := congrArg CharRx.ifMode ht
  have hn : t.lcd.hiNib = .is (a.extractLsb' 0 4) := congrArg CharRx.hiNib ht
  have hr : t.lcd.hiRs = .is (a.getLsbD 4) := congrArg CharRx.hiRs ht
  have hflags : t.lcd.chCfg = s.lcd.chCfg := by rw [ht]
  refine ⟨t, _, exec_of_inRange (lcdNib_inRange a ha), exec_of_inRange rfl, hm, hn, hr, by rw [ht], by rw [ht],
    fun hrs => ?_, fun hrs => ?_⟩ <;> rw [lcdDat_lcd]
  · rw [onByte_data_after_command hm hn (hrs ▸ hr)]
    exact ⟨rfl, rfl, rfl, rfl, fun _ => ⟨rfl, rfl⟩⟩
  · rw [onByte_data_after_data hm hn (hrs ▸ hr) (hflags ▸ hl) (hflags ▸ hk)]
    refine ⟨rfl, rfl, fun p hsel hac => ?_⟩
    have hsel' := (congrArg CharRx.acSel ht).trans hsel
    have hac' := (congrArg CharRx.ac ht).trans hac
    rw [stored_ddram (c := { t.lcd with legacyCnt := 0, ifMode := .if4Hi }) _ hsel' hac', nibbles_append_eq]
    exact Memory.read_write_same ..

/-! ### The least durations (R263) -/

/-- R263: a transaction of one payload byte. -/
theorem waitSum_oneByteXfer (c : Config) (ctl b : Byte) : waitSum (oledXfer c ctl [b]) = 87 * c.tI2c :=
  waitSum_xfer c ctl [b]

/-- R263: a command byte and then data bytes, as CH.GLYPH and CH.NUM send them. -/
theorem waitSum_commandAndData (b : Byte) (p : List Byte) :
    waitSum (lcdByte false b ++ lcdData p) = 2010 * (1 + p.length) := by
  rw [waitSum_append, waitSum_byte, waitSum_data, Nat.mul_add]

theorem dvd_waitSum_append {t : Nat} {es fs : List Event} (h : t ∣ waitSum es) (h' : t ∣ waitSum fs) :
    t ∣ waitSum (es ++ fs) := by
  rw [waitSum_append]
  exact Nat.dvd_add h h'

theorem dvd_waitSum_flatMap {α : Type} {t : Nat} {f : α → List Event} (xs : List α) (h : ∀ x, t ∣ waitSum (f x)) :
    t ∣ waitSum (xs.flatMap f) := by
  induction xs with
  | nil => exact Nat.dvd_zero t
  | cons x xs ih =>
    rw [List.flatMap_cons]
    exact dvd_waitSum_append (h x) ih

section
variable (c : Config)

theorem tI2c_dvd_xfer (ctl : Byte) (p : List Byte) : c.tI2c ∣ waitSum (oledXfer c ctl p) := by
  rw [waitSum_xfer]
  exact Nat.dvd_mul_left ..

theorem tI2c_dvd_setpos (x page : Byte) : c.tI2c ∣ waitSum (setposEvents c x page) :=
  dvd_waitSum_flatMap _ fun b => tI2c_dvd_xfer c c.ctlCmd [b]

/-- A position and then columns, as PX.BLIT and PX.CLRPG send them. -/
theorem tI2c_dvd_block (x page : Byte) (cols : List Byte) :
    c.tI2c ∣ waitSum (setposEvents c x page ++ columnEvents c cols) :=
  dvd_waitSum_append (tI2c_dvd_setpos c x page) (dvd_waitSum_flatMap cols fun b => tI2c_dvd_xfer c c.ctlDat [b])

theorem tI2c_dvd_digitBlits (page : Byte) (ds : List Nat) (x : Byte) :
    c.tI2c ∣ waitSum (digitBlits c x page ds) := by
  induction ds generalizing x with
  | nil => exact Nat.dvd_zero _
  | cons d ds ih => exact dvd_waitSum_append (tI2c_dvd_block c x page _) (ih _)

/-- R263: every wait of the serial bus is `T_I2C`, so every serial operation lasts a multiple of it. -/
theorem tI2c_dvd_wireEvents {i : Instr} (h : onParallelBus i = false) : c.tI2c ∣ waitSum (wireEvents c i) := by
  cases i <;> simp only [onParallelBus, Bool.true_eq_false] at h <;> simp only [wireEvents]
  case i2cStart => exact waitSum_start _ ▸ Nat.dvd_mul_left ..
  case i2cStop => exact waitSum_stop _ ▸ Nat.dvd_mul_left ..
  case i2cWrb b => exact waitSum_writeByte _ b ▸ Nat.dvd_mul_left ..
  case oledInit => exact dvd_waitSum_flatMap _ fun b => tI2c_dvd_xfer c c.ctlCmd [b]
  case pxClear => exact dvd_waitSum_flatMap _ fun p => tI2c_dvd_block c 0#8 (BitVec.ofNat 8 p) _
  case pxClrpg page => exact tI2c_dvd_block c 0#8 page _
  case pxSetpos x page => exact tI2c_dvd_setpos c x page
  case pxBlit x page sprite => exact tI2c_dvd_block c x page sprite.toList
  case pxNum x page v => exact tI2c_dvd_digitBlits c page (pixDigits v) x
  all_goals exact tI2c_dvd_xfer c _ _

end

/-- Settles O58: each sum is that of the operation's sub-sequences, and a multiple of 0 is 0. -/
theorem leastDurations : Obligations.LeastDurations := by
  intro c
  refine ⟨waitSum_nibble, waitSum_byte, fun h1 h2 h3 hswitch => ?_, waitSum_byte _ _, fun _ _ => waitSum_byte _ _,
    waitSum_byte true, waitSum_data, fun _ rows => waitSum_commandAndData _ rows.toList, fun row col v => ?_,
    waitSum_writeByte _, waitSum_start _, waitSum_stop _, waitSum_oneByteXfer c _, waitSum_oneByteXfer c _,
    waitSum_oneByteXfer c, fun hzero i hserial => ?_⟩
  · rw [waitSum_lcdInit, h1, h2, h3, hswitch]
    rfl
  · exact (waitSum_commandAndData _ (numberCodes v)).trans (by rw [numberCodes_length])
  · exact Nat.eq_zero_of_zero_dvd (hzero ▸ tI2c_dvd_wireEvents c hserial)

end Sys2Proof.Machine

end
